-- ==== Sys2Proof/Word.lean ====
section
/-! DEFINITION. The word types of the block (00 R10, R12): a byte is 8 bits, bit 0 the least significant; an address
and the cursor are 16 bits; a CRC and a four-byte register are 32 bits. -/

namespace Sys2Proof

/-- A byte (00 R10). -/
abbrev Byte := BitVec 8

/-- A register-file address, and the cursor (00 R12, 10 R26). -/
abbrev Address := BitVec 16

/-- A CRC, or the pattern of a four-byte register (00 R12). -/
abbrev Word32 := BitVec 32

end Sys2Proof
end

