-- ==== Sys2Proof/Syntax.lean ====
section
/-! DEFINITION. The instructions of the block (30 R93, R96): the four bus events and the twenty operation calls, with
typed operands as 30 R95 asks, and the words that carry them on the ports of 00 R9. -/

namespace Sys2Proof

/-- The ByteCodec types, in the order of the table of 40 R120. There is no signed 8-bit type and no double (40 R127). -/
inductive ScalarType where
  | u8 | u16 | u32 | u64 | i16 | i32 | i64 | f32
  deriving DecidableEq, Repr

/-- A value of a codec type, held as its bit pattern (40 R120, R123; log entry 12): the value itself for the unsigned types, two's
complement for the signed types, the binary32 encoding for `f32`. -/
inductive ScalarVal where
  | u8 (p : BitVec 8)
  | u16 (p : BitVec 16)
  | u32 (p : BitVec 32)
  | u64 (p : BitVec 64)
  | i16 (p : BitVec 16)
  | i32 (p : BitVec 32)
  | i64 (p : BitVec 64)
  | f32 (p : BitVec 32)
  deriving DecidableEq, Repr

/-- What the sensor data source reports (45 R252): a reading as two binary32 patterns, or a read error. -/
inductive SensorResult where
  | ok (t h : BitVec 32)
  | noReading
  deriving DecidableEq, Repr

/-- One constructor per row of `opcode_table.json`. A register id and a bit index are unsigned numbers of no stated
width (30 R97); an address operand of an operation is 16 bits. -/
inductive Instr where
  -- format EV, 30 R93
  | endTx
  | addr (a : Byte)
  | wr (b : Byte)
  | rd (n : Byte)
  -- format OP, 30 R96
  | encode (T : ScalarType) (v : ScalarVal)
  | decode (T : ScalarType) (bs : List Byte)
  | lookup (r : Nat)
  | totalSize
  | classAt (a : Address)
  | readByte (a : Address)
  | writeByte (a : Address) (b : Byte)
  | readTyped (T : ScalarType) (r : Nat)
  | writeTyped (T : ScalarType) (r : Nat) (v : ScalarVal)
  | getBit (r : Nat) (i : Nat)
  | setBit (r : Nat) (i : Nat) (x : Bool)
  | resetCursor
  | advanceCursor
  | cursor
  | crc32 (bs : List Byte)
  | save
  | restore
  | resetConfig
  | serviceTriggers
  | sensorUpdate (res : SensorResult)
  deriving DecidableEq, Repr

/-- The twenty operations as names, without their operands (30 R96, in the table's order). -/
inductive OpName where
  | encode | decode
  | lookup | totalSize | classAt
  | readByte | writeByte | readTyped | writeTyped | getBit | setBit | resetCursor | advanceCursor | cursor
  | crc32 | save | restore | resetConfig
  | serviceTriggers | sensorUpdate
  deriving DecidableEq, Repr

/-- A typed argument carried beside an operation number (30 R95, R97). A scalar type travels as a tag, so that a call
that names a type outside the codec can be made and refused (60 R279). -/
inductive Arg where
  | ty (tag : Byte)
  | val (v : ScalarVal)
  | bytes (bs : List Byte)
  | reg (r : Nat)
  | address (a : Address)
  | byte (b : Byte)
  | bitIndex (i : Nat)
  | flag (x : Bool)
  | sensor (res : SensorResult)
  deriving DecidableEq, Repr

/-- A word on an input port of 00 R9: an event word on `ev` (30 R91), or an operation number with its arguments on `op`
(30 R95). The port, not the word, tells the formats apart (30 R90). -/
inductive PortWord where
  | ev (w : BitVec 10)
  | op (num : Byte) (args : List Arg)
  deriving DecidableEq, Repr

/-- What an agent does next (00 R5): the transport or the main loop puts a word on its port, the environment resets the
block (70 R300), or the main loop takes the next sub-step of an operation that is split (44 R222). -/
inductive PortInput where
  | word (p : PortWord)
  | reset
  | mainStep
  deriving DecidableEq, Repr

/-- Why the decoder refuses a call (60 R279). -/
inductive DecodeError where
  /-- A reserved operation number (30 R98). -/
  | reservedOp (num : Byte)
  /-- A type outside the table of 40 R120 (40 R127, 60 R279). -/
  | notCodecType (tag : Byte)
  /-- Arguments that are not those of the operation in number or kind (30 R97). -/
  | badOperands (num : Byte)
  deriving DecidableEq, Repr

end Sys2Proof
end

