-- ==== Sys2Proof/Machine/Operands.lean ====
section
/-! DEFINITION. ByteCodec (40) and the typed operands: widths, bit patterns, little-endian encoding and decoding.
Definitions over bit patterns, independent of any host's byte order (40 R126). -/

namespace Sys2Proof

/-- `width(T)` in bytes (40 R120). -/
def ScalarType.width : ScalarType → Nat
  | .u8 => 1
  | .u16 | .i16 => 2
  | .u32 | .i32 | .f32 => 4
  | .u64 | .i64 => 8

/-- The type a value belongs to. -/
def ScalarVal.ty : ScalarVal → ScalarType
  | .u8 _ => .u8
  | .u16 _ => .u16
  | .u32 _ => .u32
  | .u64 _ => .u64
  | .i16 _ => .i16
  | .i32 _ => .i32
  | .i64 _ => .i64
  | .f32 _ => .f32

/-- A value's bit pattern (40 R120), in the low `8 * width` bits. -/
def ScalarVal.pattern : ScalarVal → BitVec 64
  | .u8 p => p.setWidth 64
  | .u16 p | .i16 p => p.setWidth 64
  | .u32 p | .i32 p | .f32 p => p.setWidth 64
  | .u64 p | .i64 p => p

/-- The value of type `T` with a given pattern (40 R122); bits above the type's width play no part. -/
def ScalarVal.ofPattern : ScalarType → BitVec 64 → ScalarVal
  | .u8, p => .u8 (p.setWidth 8)
  | .u16, p => .u16 (p.setWidth 16)
  | .u32, p => .u32 (p.setWidth 32)
  | .u64, p => .u64 p
  | .i16, p => .i16 (p.setWidth 16)
  | .i32, p => .i32 (p.setWidth 32)
  | .i64, p => .i64 p
  | .f32, p => .f32 (p.setWidth 32)

/-- The mathematical integer a value stands for: unsigned, or two's complement (40 R120, R122); a float has none here,
since the block does no arithmetic on it (40 R124). -/
def ScalarVal.toInt? : ScalarVal → Option Int
  | .u8 p => some p.toNat
  | .u16 p => some p.toNat
  | .u32 p => some p.toNat
  | .u64 p => some p.toNat
  | .i16 p => some p.toInt
  | .i32 p => some p.toInt
  | .i64 p => some p.toInt
  | .f32 _ => none

/-- `encode_n(p)` of 40 R121: byte `k` is bits `8k+7 : 8k`, least significant byte first. -/
def encodeLE : Nat → BitVec 64 → List Byte
  | 0, _ => []
  | n + 1, p => p.setWidth 8 :: encodeLE n (p >>> 8)

/-- `decode_n(bs)` of 40 R122: the bytes joined, the first least significant. -/
def decodeLE : List Byte → BitVec 64
  | [] => 0
  | b :: bs => b.setWidth 64 ||| decodeLE bs <<< 8

/-- ENCODE on a value (40 R121). -/
def ScalarVal.encode (v : ScalarVal) : List Byte := encodeLE v.ty.width v.pattern

/-- DECODE at a type (40 R122), for a sequence of the type's width. -/
def ScalarType.decode (T : ScalarType) (bs : List Byte) : ScalarVal := ScalarVal.ofPattern T (decodeLE bs)

end Sys2Proof
end

