-- ==== Sys2Proof/Config.lean ====
section
/-! DEFINITION. The parameters an instance of the block fixes (00 R7): the types. Their default values stand in
Machine/DefaultInstance.lean, what follows from REGMAP in Machine/RegisterMap.lean. -/

namespace Sys2Proof

/-- The declared type of a register (41 R140). -/
inductive RegType where
  | uint8 | uint32 | float
  deriving DecidableEq, Repr

/-- The register names of the source, in its order (10 R21; log entry 17). -/
inductive RegName where
  | id | verMajor | verMinor | verBuild | temperature | humidity | status | readingId
  | interval | upperThreshold | lowerThreshold | startDelay | config | deviceAddress | model
  deriving DecidableEq, Repr

/-- One declaration of REGMAP (41 R140). -/
structure RegDecl where
  name : RegName
  width : Nat
  ty : RegType
  /-- Any value for any name (log entry 20). -/
  writable : Bool
  deriving DecidableEq, Repr

/-- The protection class of a byte (41 R143). -/
inductive PClass where
  | readOnlyAligned | readOnlyContinuation | writableAligned | writableContinuation
  deriving DecidableEq, Repr

/-- Bit positions of the six status bits (10 R23). -/
structure StatusBits where
  sensorEnabled : Nat
  upperExceeded : Nat
  lowerExceeded : Nat
  configSaved : Nat
  readError : Nat
  writeError : Nat
  deriving DecidableEq, Repr

/-- Bit positions of the five configuration bits (10 R24). -/
structure ConfigBits where
  sensorEnable : Nat
  thresholdEnable : Nat
  triggerReading : Nat
  writeConfig : Nat
  resetConfig : Nat
  deriving DecidableEq, Repr

/-- A parameter set (00 R7). TOTAL, PLEN and NV_USED are derived from it in Machine/RegisterMap.lean. -/
structure Params where
  /-- REGMAP, the ordered declarations (log entries 17, 20). -/
  regmap : List RegDecl
  /-- REG_RESET, the register file after reset and before the boot restore. -/
  regReset : List Byte
  /-- STATUS_BITS. -/
  statusBits : StatusBits
  /-- CONFIG_BITS. -/
  configBits : ConfigBits
  /-- CONFIG_PERSIST_MASK. -/
  configMask : Byte
  /-- PERSIST, the persisted registers in the order of this list, REGMAP's order or another (log entry 19). -/
  persist : List RegName
  /-- SIGNATURE, SIG_ADDR, SIG_MODEL. -/
  signature : Byte
  sigAddr : Byte
  sigModel : Byte
  /-- NV_SIG, NV_DATA, NV_CRC, NV_ABLK, NV_MBLK. -/
  nvSig : Nat
  nvData : Nat
  nvCrc : Nat
  nvAblk : Nat
  nvMblk : Nat
  /-- NV_SIZE. -/
  nvSize : Nat
  /-- P_PERSIST_ADDR, P_PERSIST_MODEL. -/
  persistAddr : Bool
  persistModel : Bool
  /-- P_STRICT_CONT_WRITE. -/
  strictContWrite : Bool
  /-- P_PERSIST_ATOMIC. -/
  persistAtomic : Bool
  deriving DecidableEq, Repr

end Sys2Proof
end

