-- ==== Sys2Proof/Machine/RegisterMap.lean ====
section
/-! DEFINITION. RegisterMap (41): offsets, TOTAL, the register at an address and the protection class of a byte, all
derived from REGMAP, and the well-formedness of a parameter set (00 R8). Pure static data (41 R146). -/

namespace Sys2Proof

/-- `K`, the number of declarations (41 R140). -/
def Params.regCount (p : Params) : Nat := p.regmap.length

/-- `w(r)` of 41 R140; 0 for an id that names no register. -/
def Params.width (p : Params) (r : Nat) : Nat := (p.regmap[r]?.map RegDecl.width).getD 0

/-- `wr(r)` of 41 R140. -/
def Params.writable (p : Params) (r : Nat) : Bool := (p.regmap[r]?.map RegDecl.writable).getD false

/-- `off(r)`: the sum of the widths declared before `r` (41 R140). -/
def Params.off (p : Params) (r : Nat) : Nat := ((p.regmap.take r).map RegDecl.width).sum

/-- TOTAL, the sum of all widths (41 R140, R142). -/
def Params.total (p : Params) : Nat := (p.regmap.map RegDecl.width).sum

/-- Walk the consecutive spans of the declarations to the one that contains offset `a`. -/
def spanOf : List RegDecl → Nat → Option Nat
  | [], _ => none
  | d :: ds, a => if a < d.width then some 0 else (spanOf ds (a - d.width)).map (· + 1)

/-- `reg_at(a)`: the register whose span contains `a` (41 R144); none past the end. -/
def Params.regAt (p : Params) (a : Nat) : Option Nat := spanOf p.regmap a

/-- `class(a)` (41 R143); none for an address at or above TOTAL. -/
def Params.classAt (p : Params) (a : Nat) : Option PClass :=
  (p.regAt a).map fun r =>
    if a = p.off r then
      if p.writable r then .writableAligned else .readOnlyAligned
    else
      if p.writable r then .writableContinuation else .readOnlyContinuation

/-- `aligned` of 41 R143, on a class. -/
def PClass.aligned : PClass → Bool
  | .readOnlyAligned | .writableAligned => true
  | .readOnlyContinuation | .writableContinuation => false

/-- `writable` of 41 R143, on a class. -/
def PClass.writable : PClass → Bool
  | .writableAligned | .writableContinuation => true
  | .readOnlyAligned | .readOnlyContinuation => false

/-- `aligned(a)` (41 R143). -/
def Params.aligned (p : Params) (a : Nat) : Bool := ((p.classAt a).map PClass.aligned).getD false

/-- `writable(a)` (41 R143), on a byte address. -/
def Params.writableAt (p : Params) (a : Nat) : Bool := ((p.classAt a).map PClass.writable).getD false

/-- The classes of a register's bytes, first byte first: the third part of LOOKUP's result (41 R141). -/
def Params.classesOf (p : Params) (r : Nat) : List PClass :=
  (List.range (p.width r)).filterMap fun k => p.classAt (p.off r + k)

/-- The id of a named register: its position in REGMAP (10 R21); K where REGMAP does not declare it. -/
def Params.idOf (p : Params) (n : RegName) : Nat := p.regmap.findIdx fun d => d.name = n

/-- `w` of a named register. -/
def Params.widthOf (p : Params) (n : RegName) : Nat := p.width (p.idOf n)

/-- `off` of a named register. -/
def Params.offOf (p : Params) (n : RegName) : Nat := p.off (p.idOf n)

/-- PLEN, the byte length of the persisted image (00 R7). -/
def Params.plen (p : Params) : Nat := (p.persist.map p.widthOf).sum

/-- `idx`: where the `k`-th register of PERSIST starts in the image (44 R213), counted in PERSIST's own order (log
entry 19). -/
def Params.idx (p : Params) (k : Nat) : Nat := ((p.persist.take k).map p.widthOf).sum

/-- NV_USED, one past the highest store address any rule touches (00 R7). -/
def Params.nvUsed (p : Params) : Nat :=
  max (max (p.nvSig + 1) (p.nvData + p.plen)) (max (p.nvCrc + 4) (max (p.nvAblk + 2) (p.nvMblk + 2)))

/-- Two store ranges, each a base and a length, have no address in common. -/
def disjoint (x y : Nat × Nat) : Bool := x.1 + x.2 ≤ y.1 || y.1 + y.2 ≤ x.1

/-- The positions of a bit table as a list. -/
def StatusBits.toList (b : StatusBits) : List Nat :=
  [b.sensorEnabled, b.upperExceeded, b.lowerExceeded, b.configSaved, b.readError, b.writeError]

/-- The positions of a bit table as a list. -/
def ConfigBits.toList (b : ConfigBits) : List Nat :=
  [b.sensorEnable, b.thresholdEnable, b.triggerReading, b.writeConfig, b.resetConfig]

/-- Pairwise distinct and within 0 to 7 (00 R8). -/
def bitPositionsOk (l : List Nat) : Bool := decide l.Nodup && l.all (· ≤ 7)

/-- The five store ranges of 00 R8. -/
def Params.nvRanges (p : Params) : List (Nat × Nat) :=
  [(p.nvSig, 1), (p.nvData, p.plen), (p.nvCrc, 4), (p.nvAblk, 2), (p.nvMblk, 2)]

/-- The conditions 00 R8 lists. TOTAL, PLEN and NV_USED are derived, so their equations hold by definition.
PERSIST's order and members are free (log entry 19), and so is what 00 R7 has the source fix but 00 R8 does not list
(log entry 20). -/
def Params.wfListed (p : Params) : Bool :=
  p.regmap.all (fun d => d.width = 1 || d.width = 4)
  && decide (1 ≤ p.total) && decide (p.total ≤ 255)
  && decide (p.regReset.length = p.total)
  && bitPositionsOk p.statusBits.toList && bitPositionsOk p.configBits.toList
  && decide (p.widthOf .status = 1) && decide (p.widthOf .config = 1)
  && p.persist.all (fun n => decide (p.idOf n < p.regCount))
  && p.signature != 0x00
  && decide (p.nvRanges.Pairwise fun x y => disjoint x y = true)
  && decide (p.nvCrc = p.nvData + p.plen) && decide (p.nvSig < p.nvData)
  && decide (p.nvUsed ≤ p.nvSize)

/-- The conditions other rules put on a parameter set (log entry 8): a one-byte register is a `uint8` and no other is
(41 R140); the optional signatures are not 0x00 (44 R226); the registers SENSOR_UPDATE writes are four bytes wide
(45 R252), those of the optional blocks one byte (44 R218). No condition is put on the read-only/writable split (log
entry 20). -/
def Params.wfImplied (p : Params) : Bool :=
  p.regmap.all (fun d => decide (d.ty = .uint8 ↔ d.width = 1))
  && p.sigAddr != 0x00 && p.sigModel != 0x00
  && decide (p.widthOf .temperature = 4) && decide (p.widthOf .humidity = 4)
  && decide (p.widthOf .deviceAddress = 1) && decide (p.widthOf .model = 1)

/-- A well-formed parameter set: the model refuses every other (00 R8). -/
def Params.wf (p : Params) : Bool := p.wfListed && p.wfImplied

end Sys2Proof
end

