-- ==== Sys2Proof/Machine/DefaultInstance.lean ====
section
/-! DEFINITION. The default instance of the parameters (00 R7, 10 R21, 44 R214): the values every worked example of the
spec uses. They are the spec's decisions D1 to D11, D15, D17, D18, not the device's (log entry 2). -/

namespace Sys2Proof.Machine

/-- The default REGMAP, the 15 rows of 10 R21. -/
def defaultRegmap : List RegDecl :=
  [ ⟨.id, 1, .uint8, false⟩
  , ⟨.verMajor, 1, .uint8, false⟩
  , ⟨.verMinor, 1, .uint8, false⟩
  , ⟨.verBuild, 1, .uint8, false⟩
  , ⟨.temperature, 4, .float, false⟩
  , ⟨.humidity, 4, .float, false⟩
  , ⟨.status, 1, .uint8, false⟩
  , ⟨.readingId, 4, .uint32, false⟩
  , ⟨.interval, 4, .uint32, true⟩
  , ⟨.upperThreshold, 4, .float, true⟩
  , ⟨.lowerThreshold, 4, .float, true⟩
  , ⟨.startDelay, 4, .uint32, true⟩
  , ⟨.config, 1, .uint8, true⟩
  , ⟨.deviceAddress, 1, .uint8, true⟩
  , ⟨.model, 1, .uint8, true⟩ ]

/-- The default parameter set (00 R7's column "Default"). -/
def defaultParams : Params where
  regmap := defaultRegmap
  regReset := List.replicate 36 0x00
  statusBits := ⟨0, 1, 2, 3, 4, 5⟩
  configBits := ⟨0, 1, 2, 3, 4⟩
  configMask := 0x03
  persist := [.interval, .upperThreshold, .lowerThreshold, .startDelay, .config]
  signature := 0xA5
  sigAddr := 0xA5
  sigModel := 0xA5
  nvSig := 0
  nvData := 1
  nvCrc := 18
  nvAblk := 22
  nvMblk := 24
  nvSize := 42
  persistAddr := false
  persistModel := false
  strictContWrite := false
  persistAtomic := true

end Sys2Proof.Machine
end

