-- ==== Sys2Proof/Machine/State.lean ====
section
/-! DEFINITION. The state of the block (10), the reasons a step stops (60), and the state after power-on reset (10 R34,
70 R300, R301). Plain data throughout. -/

namespace Sys2Proof.Machine

/-- A byte-addressed space as its listed cells: addresses strictly rising, no cell equal to what an unlisted address
reads as, 0x00 (log entry 3). `REG` and `NV` are each one (20 R60). -/
abbrev Memory := List Host.Cell

/-- The handler's label (10 R27); `AddressSelected` carries no position of its own. -/
inductive BusState where
  | idle | addressSelected | receiving | transmitting
  deriving DecidableEq, Repr

/-- The two caller errors the model stops on (10 R30, 60 R277, R278). The step that meets one sets the marker `fault`
and is a next state; every later step answers the marker's fault, until power-on reset (60 R289). Both are safe: the
model stops where the source gives the hardware no behaviour. -/
inductive Fault where
  /-- Raised by ADDR with an address at or above TOTAL (60 R277). Safe. -/
  | addrOutOfRange
  /-- Raised by READBYTE and WRITEBYTE with an address at or above TOTAL (60 R278). Safe. -/
  | accessOutOfRange
  deriving DecidableEq, Repr

/-- Why a call gets no step (60 R279, 00 R8). Every one is safe: no state is given a value. -/
inductive Refusal where
  /-- An instruction the model gives no meaning; none is left. Safe. -/
  | notModelled (mnemonic : String)
  /-- Any step under a parameter set that is not well-formed (00 R8). Safe. -/
  | badParameters
  /-- A word the decoder refuses: a reserved number, a type outside the codec, arguments of the wrong kind (60 R279). Safe. -/
  | undecodable (e : DecodeError)
  /-- LOOKUP, READTYPED, WRITETYPED, GETBIT, SETBIT with an id that names no register (60 R279). Safe. -/
  | unknownRegister (r : Nat)
  /-- CLASSAT with an address at or above TOTAL (60 R279). Safe. -/
  | noSuchAddress (a : Address)
  /-- READTYPED or WRITETYPED with a type of another width than the register (60 R279). Safe. -/
  | widthMismatch (r : Nat)
  /-- ENCODE or WRITETYPED with a value that is not of the type named (30 R97, 60 R279). Safe. -/
  | valueNotOfType
  /-- DECODE with a sequence of another length than the type's width (60 R279). Safe. -/
  | wrongLength
  /-- GETBIT or SETBIT on a register wider than one byte (60 R279). Safe. -/
  | notBitRegister (r : Nat)
  /-- GETBIT or SETBIT with a bit index above 7 (60 R279). Safe. -/
  | bitIndexTooLarge (i : Nat)
  /-- WR or RD with a cursor at or above TOTAL, which no reachable state has (10 R35, 43 R183 (f); log entry 10). Safe. -/
  | cursorInvalid
  deriving DecidableEq, Repr

/-- The conditions of 60 R272, each with the value an event history may keep. -/
inductive Cause where
  | sensorReadError
  | protocolMisalignment (cursor : Address)
  | storageCorruption
  | writeToReadOnly (cursor : Address) (b : Byte)
  | addrOutOfRange (a : Byte)
  | accessOutOfRange (a : Address)
  deriving DecidableEq, Repr

/-- What an operation returns on the port `ret` (00 R9, 30 R96 column "result"). -/
inductive Result where
  | bytes (bs : List Byte)
  | scalar (v : ScalarVal)
  | entry (offset width : Nat) (classes : List PClass)
  | size (n : Nat)
  | cls (c : PClass)
  | byte (b : Byte)
  | bool (x : Bool)
  | position (a : Address)
  | crc (c : Word32)
  deriving DecidableEq, Repr

/-- What one step puts on the output ports (00 R9) and the condition it raised (60 R271): the response of a read-request
on `rsp`, an operation's result on `ret`. -/
structure Answer where
  rsp : Option (List Byte) := none
  ret : Option Result := none
  raised : Option Cause := none
  deriving DecidableEq, Repr

/-- The sub-steps of a main-loop operation under `P_PERSIST_ATOMIC = false` (44 R215, R222, 45 R251; log entry 9). -/
inductive Micro where
  /-- S1 of SAVE for the `k`-th register of PERSIST. -/
  | saveReg (k : Nat)
  /-- S2 of SAVE: the CRC. -/
  | saveCrc
  /-- S3 of SAVE: the signature. -/
  | saveSig
  /-- S4 of SAVE: the optional blocks. -/
  | saveBlocks
  /-- S5 of SAVE: CONFIG_SAVED. -/
  | saveFlag
  /-- SERVICE_TRIGGERS: test WRITE_CONFIG and start SAVE. -/
  | testWrite
  /-- SERVICE_TRIGGERS: clear WRITE_CONFIG. -/
  | clearWrite
  /-- SERVICE_TRIGGERS: test RESET_CONFIG and start RESETCONFIG. -/
  | testReset
  /-- SERVICE_TRIGGERS: RESETCONFIG, one step. -/
  | eraseConfig
  /-- SERVICE_TRIGGERS: clear RESET_CONFIG. -/
  | clearReset
  deriving DecidableEq, Repr

/-- The whole state. INVENTORY.md lists each field with its rule and its reset value. -/
structure State where
  /-- The parameters of the instance (00 R7). Not state in the spec (10 R31): no step changes them (log entry 1). -/
  params : Params
  /-- `REG`, the register file (10 R20). -/
  reg : Memory
  /-- The bus cursor, the block's program counter (10 R26). -/
  cursor : Address
  /-- 10 R27. -/
  busState : BusState
  /-- 10 R28, 43 R184. -/
  wrBurstOk : Bool
  /-- The non-volatile store (10 R29). -/
  nv : Memory
  /-- The sticky fault marker (10 R30). -/
  fault : Option Fault
  /-- The model's own: store writes so far, a ghost count (44 R223; log entry 11). -/
  wear : Nat
  /-- The model's own: what is left of a split main-loop operation (44 R222; log entry 9). -/
  job : List Micro
  /-- The model's own: what the agents do next, oldest first (20 R74; log entry 4). -/
  inbox : List PortInput
  /-- The model's own: the output ports after the last step (00 R9; log entry 7). -/
  answer : Answer
  deriving DecidableEq, Repr

/-- The machine right after power-on reset and the boot restore with an all-zero store (10 R34, 70 R300, R301, and 95's
"Start: reset"): the default instance, REG at REG_RESET, CONFIG_SAVED 0, the failed restore on record. -/
def State.reset : State where
  params := defaultParams
  reg := []
  cursor := 0
  busState := .idle
  wrBurstOk := false
  nv := []
  fault := none
  wear := 0
  job := []
  inbox := []
  answer := { raised := some .storageCorruption }

end Sys2Proof.Machine
end

