-- ==== Sys2Proof/Machine/Ops.lean ====
section
/-! DEFINITION. The named operations every meaning is written with (00 R11, 20 R70): bytes of a space, MemRead and
MemWrite, the store primitives, the cursor's advance, answering, and taking a fault. -/

namespace Sys2Proof.Machine

/-- The outcome of a step. -/
abbrev StepOutcome := Host.Outcome State Fault Refusal

/-- What an unlisted address reads as: 0x00, the default REG_RESET and the erased store of 95 (log entry 3). -/
def fillByte : Byte := 0x00

/-- The byte at an address. -/
def Memory.read : Memory → Nat → Byte
  | [], _ => fillByte
  | (b, v) :: m, a => if a = b then v else Memory.read m a

/-- Put a cell before the first listed address above it. -/
def Memory.insert (a : Nat) (v : Byte) : Memory → Memory
  | [] => [(a, v)]
  | (b, w) :: m => if a < b then (a, v) :: (b, w) :: m else (b, w) :: Memory.insert a v m

/-- Set the byte at an address; writing the fill byte unlists it, so that equal spaces are equal lists. -/
def Memory.write (m : Memory) (a : Nat) (v : Byte) : Memory :=
  let rest := m.filter fun c => c.1 ≠ a
  if v = fillByte then rest else Memory.insert a v rest

/-- `n` bytes from `a` up, in ascending address order: MemRead and readBlock (00 R11, 20 R70). -/
def Memory.readN (m : Memory) : Nat → Nat → List Byte
  | _, 0 => []
  | a, n + 1 => m.read a :: m.readN (a + 1) n

/-- Store a sequence from `a` up: MemWrite (00 R11). -/
def Memory.writeN (m : Memory) : Nat → List Byte → Memory
  | _, [] => m
  | a, b :: bs => (m.write a b).writeN (a + 1) bs

/-- A space from its bytes, the first at address `a`. -/
def Memory.ofBytes (bs : List Byte) : Memory := Memory.writeN [] 0 bs

/-- The canonical form: addresses strictly rising, no listed cell equal to the fill byte. -/
abbrev Memory.wf (m : Memory) : Prop :=
  m.Pairwise (fun c d => c.1 < d.1) ∧ ∀ c ∈ m, c.2 ≠ fillByte

/-- Every listed address lies below `n` (10 R35 (b): REG has TOTAL bytes, NV has NV_SIZE). -/
abbrev Memory.below (m : Memory) (n : Nat) : Prop := ∀ c ∈ m, c.1 < n

/-- A block that has stopped takes no step (10 R30), and a parameter set that is not well-formed is refused (00 R8);
otherwise the step goes on as `k` says (log entry 14). -/
def admitted (s : State) (k : StepOutcome) : StepOutcome :=
  if s.params.wf then
    match s.fault with
    | none => k
    | some c => .fault c
  else .refused .badParameters

/-- The step completes with nothing on a port but what `ans` holds. -/
def finish (s : State) (ans : Answer := {}) : StepOutcome := .next { s with answer := ans }

/-- `fault <Cause>` (00 R11, 60 R277, R278, R282; log entry 6): set the marker and change nothing else; `x` is the condition with its
recorded value (60 R272). -/
def takeFault (c : Fault) (x : Cause) (s : State) : StepOutcome :=
  .next { s with fault := some c, answer := { raised := some x } }

/-- The code of a condition (60 R272). -/
def Cause.code : Cause → Nat
  | .sensorReadError => 1
  | .protocolMisalignment _ => 2
  | .storageCorruption => 3
  | .writeToReadOnly _ _ => 4
  | .addrOutOfRange _ => 5
  | .accessOutOfRange _ => 6

/-- `cursor <- (cursor + k) mod TOTAL` (10 R26, 46 R260). -/
def State.advance (k : Nat) (s : State) : State :=
  { s with cursor := BitVec.ofNat 16 ((s.cursor.toNat + k) % s.params.total) }

/-- MemRead over a register's span: the bytes `x[r]` is read from (00 R11). -/
def State.regBytes (s : State) (r : Nat) : List Byte := s.reg.readN (s.params.off r) (s.params.width r)

/-- MemWrite from a register's offset (00 R11). -/
def State.putBytes (r : Nat) (bs : List Byte) (s : State) : State :=
  { s with reg := s.reg.writeN (s.params.off r) bs }

/-- NvWrite (20 R70): one store write, counted (44 R223; log entries 11, 16). -/
def State.nvWrite (a : Nat) (b : Byte) (s : State) : State :=
  { s with nv := s.nv.write a b, wear := s.wear + 1 }

/-- NvUpdate (20 R70): write if different. -/
def State.nvUpdate (a : Nat) (b : Byte) (s : State) : State := if s.nv.read a = b then s else s.nvWrite a b

/-- NvWrite at consecutive ascending addresses: writeBlock (20 R70). -/
def State.nvWriteN : Nat → List Byte → State → State
  | _, [], s => s
  | a, b :: bs, s => State.nvWriteN (a + 1) bs (s.nvWrite a b)

end Sys2Proof.Machine
end

