-- ==== Sys2Proof/Machine/Flags.lean ====
section
/-! DEFINITION. The bits of one-byte registers (42 R154, R155) and the named bits of STATUS and CONFIG (10 R23, R24). -/

namespace Sys2Proof.Machine

/-- Bit `i` of a byte, bit 0 the least significant (00 R10, 42 R154). -/
def byteBit (b : Byte) (i : Nat) : Bool := b >>> i &&& 1 = 1

/-- A byte with bit `i` set to `x` and the other seven kept (42 R155). -/
def withBit (b : Byte) (i : Nat) (x : Bool) : Byte :=
  (b &&& ~~~((1 : Byte) <<< i)) ||| (if x then 1 else 0 : Byte) <<< i

/-- The read half of GETBIT, on a register's first byte (42 R154). -/
def State.bit (s : State) (r i : Nat) : Bool := byteBit (s.reg.read (s.params.off r)) i

/-- The effect of SETBIT: one read-modify-write of a register's first byte (42 R155, 20 R76). -/
def State.putBit (r i : Nat) (x : Bool) (s : State) : State :=
  { s with reg := s.reg.write (s.params.off r) (withBit (s.reg.read (s.params.off r)) i x) }

/-- A bit of the CONFIG register (10 R24). -/
def State.configBit (s : State) (i : Nat) : Bool := s.bit (s.params.idOf .config) i

/-- SETBIT on STATUS (10 R23). -/
def State.putStatus (i : Nat) (x : Bool) (s : State) : State := s.putBit (s.params.idOf .status) i x

/-- SETBIT on CONFIG (10 R24). -/
def State.putConfig (i : Nat) (x : Bool) (s : State) : State := s.putBit (s.params.idOf .config) i x

/-- SETBIT STATUS CONFIG_SAVED (44 R215, R216, R217). -/
def State.putConfigSaved (x : Bool) (s : State) : State := s.putStatus s.params.statusBits.configSaved x

end Sys2Proof.Machine
end

