-- ==== Sys2Proof/Machine/Accessors.lean ====
section
/-! DEFINITION. RegisterFile's accessors and cursor operations (42). None consults the protection class (42 R160). -/

namespace Sys2Proof.Machine

/-- READBYTE (42 R150). -/
def execReadByte (a : Address) (s : State) : StepOutcome :=
  admitted s <|
    if s.params.total ≤ a.toNat then takeFault .accessOutOfRange (.accessOutOfRange a) s
    else finish s { ret := some (.byte (s.reg.read a.toNat)) }

/-- WRITEBYTE (42 R151). -/
def execWriteByte (a : Address) (b : Byte) (s : State) : StepOutcome :=
  admitted s <|
    if s.params.total ≤ a.toNat then takeFault .accessOutOfRange (.accessOutOfRange a) s
    else finish { s with reg := s.reg.write a.toNat b }

/-- The requirement of READTYPED and WRITETYPED: the register exists and has the type's width (42 R152, R153). -/
def typedCall (T : ScalarType) (r : Nat) (s : State) (k : StepOutcome) : StepOutcome :=
  if r < s.params.regCount then
    if T.width = s.params.width r then k else .refused (.widthMismatch r)
  else .refused (.unknownRegister r)

/-- READTYPED (42 R152). -/
def execReadTyped (T : ScalarType) (r : Nat) (s : State) : StepOutcome :=
  admitted s <| typedCall T r s <| finish s { ret := some (.scalar (T.decode (s.regBytes r))) }

/-- WRITETYPED (42 R153). -/
def execWriteTyped (T : ScalarType) (r : Nat) (v : ScalarVal) (s : State) : StepOutcome :=
  admitted s <| typedCall T r s <|
    if v.ty = T then finish (s.putBytes r v.encode) else .refused .valueNotOfType

/-- The requirement of GETBIT and SETBIT: a one-byte register and a bit of 0 to 7 (42 R154, R155). -/
def bitCall (r i : Nat) (s : State) (k : StepOutcome) : StepOutcome :=
  if r < s.params.regCount then
    if s.params.width r = 1 then
      if i ≤ 7 then k else .refused (.bitIndexTooLarge i)
    else .refused (.notBitRegister r)
  else .refused (.unknownRegister r)

/-- GETBIT (42 R154). -/
def execGetBit (r i : Nat) (s : State) : StepOutcome :=
  admitted s <| bitCall r i s <| finish s { ret := some (.bool (s.bit r i)) }

/-- SETBIT (42 R155). -/
def execSetBit (r i : Nat) (x : Bool) (s : State) : StepOutcome :=
  admitted s <| bitCall r i s <| finish (s.putBit r i x)

/-- RESETCURSOR (42 R156). -/
def execResetCursor (s : State) : StepOutcome := admitted s (finish { s with cursor := 0 })

/-- ADVANCECURSOR (42 R157). -/
def execAdvanceCursor (s : State) : StepOutcome := admitted s (finish (s.advance 1))

/-- CURSOR (42 R158). -/
def execCursor (s : State) : StepOutcome := admitted s (finish s { ret := some (.position s.cursor) })

end Sys2Proof.Machine
end

