-- ==== Sys2Proof/Machine/BusHandler.lean ====
section
/-! DEFINITION. BusTransactionHandler (43): the four bus events. Every event acts in every `bus_state` (43 R188), touches
neither the store nor a status bit (43 R180, R191). -/

namespace Sys2Proof.Machine

/-- END, the transaction-end event (43 R187). -/
def execEndTx (s : State) : StepOutcome :=
  admitted s (finish { s with busState := .idle, wrBurstOk := false })

/-- ADDR, the address-select event (43 R182). -/
def execAddr (a : Byte) (s : State) : StepOutcome :=
  admitted s <|
    if s.params.total ≤ a.toNat then takeFault .addrOutOfRange (.addrOutOfRange a) s
    else finish
      { s with cursor := a.setWidth 16, busState := .addressSelected, wrBurstOk := s.params.aligned a.toNat }

/-- `wr_burst_ok` as WR leaves it: passing an aligned byte sets it under the strict policy (43 R184); under the default
policy WR does not touch it (43 R183; log entry 13). -/
def burstAfter (s : State) (c : PClass) : Bool :=
  if s.params.strictContWrite then s.wrBurstOk || c.aligned else s.wrBurstOk

/-- Whether WR stores its byte on a byte of class `c`: a writable class (43 R183), and under the strict policy only in a
burst that has passed an aligned byte (43 R184). -/
def storesByte (s : State) (c : PClass) : Bool :=
  c.writable && (!s.params.strictContWrite || burstAfter s c)

/-- WR, the write-byte event (43 R183, R184): the cursor advances whether or not the byte is stored. -/
def execWr (b : Byte) (s : State) : StepOutcome :=
  admitted s <|
    match s.params.classAt s.cursor.toNat with
    | none => .refused .cursorInvalid
    | some c =>
      finish
        (State.advance 1
          { s with
            reg := if storesByte s c then s.reg.write s.cursor.toNat b else s.reg
            busState := .receiving
            wrBurstOk := burstAfter s c })
        { raised := if c.writable then none else some (.writeToReadOnly s.cursor b) }

/-- The width of the register at the cursor: what an aligned read-request moves (43 R185). -/
def State.cursorWidth (s : State) : Nat := ((s.params.regAt s.cursor.toNat).map s.params.width).getD 0

/-- RD, the read-request event (43 R185): an aligned cursor gives the whole register and advances by its width; any
other gives zero bytes and does not move. The count `n` has no effect. -/
def execRd (_n : Byte) (s : State) : StepOutcome :=
  admitted s <|
    match s.params.classAt s.cursor.toNat with
    | none => .refused .cursorInvalid
    | some c =>
      let t := { s with busState := .transmitting }
      if c.aligned then
        finish (t.advance s.cursorWidth) { rsp := some (s.reg.readN s.cursor.toNat s.cursorWidth) }
      else
        finish t { rsp := some [], raised := some (.protocolMisalignment s.cursor) }

end Sys2Proof.Machine
end

