-- ==== Sys2Proof/Machine/Codec.lean ====
section
/-! DEFINITION. ByteCodec's operations (40): ENCODE and DECODE, pure. -/

namespace Sys2Proof.Machine

/-- ENCODE (40 R121); a value that is not of type `T` is no input (60 R279). -/
def execEncode (T : ScalarType) (v : ScalarVal) (s : State) : StepOutcome :=
  admitted s <|
    if v.ty = T then finish s { ret := some (.bytes v.encode) } else .refused .valueNotOfType

/-- DECODE (40 R122); a sequence of another length than `width(T)` is no input. -/
def execDecode (T : ScalarType) (bs : List Byte) (s : State) : StepOutcome :=
  admitted s <|
    if bs.length = T.width then finish s { ret := some (.scalar (T.decode bs)) } else .refused .wrongLength

end Sys2Proof.Machine
end

