-- ==== Sys2Proof/Machine/MapLookup.lean ====
section
/-! DEFINITION. RegisterMap's operations (41): LOOKUP, TOTALSIZE, CLASSAT. They read and write no state. -/

namespace Sys2Proof.Machine

/-- LOOKUP (41 R141). -/
def execLookup (r : Nat) (s : State) : StepOutcome :=
  admitted s <|
    if r < s.params.regCount then
      finish s { ret := some (.entry (s.params.off r) (s.params.width r) (s.params.classesOf r)) }
    else .refused (.unknownRegister r)

/-- TOTALSIZE (41 R142). -/
def execTotalSize (s : State) : StepOutcome := admitted s (finish s { ret := some (.size s.params.total) })

/-- CLASSAT (41 R143). -/
def execClassAt (a : Address) (s : State) : StepOutcome :=
  admitted s <|
    match s.params.classAt a.toNat with
    | some c => finish s { ret := some (.cls c) }
    | none => .refused (.noSuchAddress a)

end Sys2Proof.Machine
end

