-- ==== Sys2Proof/Machine/Crc.lean ====
section
/-! DEFINITION. The CRC-32 of 44 R211 in its bit-serial form, and the table-driven form of 44 R212. -/

namespace Sys2Proof.Machine

/-- One bit of the reflected division: shift right, and exclusive-or the reversed generator if a 1 fell out (44 R211). -/
def crcBit (c : Word32) : Word32 := if c.getLsbD 0 then (c >>> 1) ^^^ 0xEDB88320 else c >>> 1

/-- `n` bits. -/
def crcBits : Nat → Word32 → Word32
  | 0, c => c
  | n + 1, c => crcBits n (crcBit c)

/-- Take one byte into the register. -/
def crcByte (c : Word32) (b : Byte) : Word32 := crcBits 8 (c ^^^ b.setWidth 32)

/-- The register after a sequence, from a given start. -/
def crcFrom (c : Word32) (bs : List Byte) : Word32 := bs.foldl crcByte c

/-- `crc32(bs)` (44 R211): seed and final complement all ones. -/
def crc32 (bs : List Byte) : Word32 := crcFrom 0xFFFFFFFF bs ^^^ 0xFFFFFFFF

/-- Entry `n` of the table `T` (44 R212). -/
def crcTable (n : Byte) : Word32 := crcBits 8 (n.setWidth 32)

/-- One byte through the table (44 R212). -/
def crcByteByTable (c : Word32) (b : Byte) : Word32 :=
  crcTable ((c ^^^ b.setWidth 32).setWidth 8) ^^^ (c >>> 8)

/-- The table-driven `crc32` (44 R212). -/
def crc32ByTable (bs : List Byte) : Word32 := bs.foldl crcByteByTable 0xFFFFFFFF ^^^ 0xFFFFFFFF

end Sys2Proof.Machine
end

