-- ==== Sys2Proof/Machine/Persistence.lean ====
section
/-! DEFINITION. ConfigPersistence (44): the persisted image, the sub-steps of SAVE, RESTORE, RESETCONFIG and the optional
blocks, and the operations CRC32, SAVE, RESTORE, RESETCONFIG. The store is ideal (20 R70); none of them faults (44 R221). -/

namespace Sys2Proof.Machine

/-- A persisted register's bytes as they are stored: CONFIG under the mask, any other as it stands (44 R213). -/
def State.fieldImage (s : State) (n : RegName) : List Byte :=
  let bs := s.regBytes (s.params.idOf n)
  if n = .config then bs.map (· &&& s.params.configMask) else bs

/-- `persist_image()` (44 R213): the registers in PERSIST's own order, which need not be REGMAP's (log entry 19). -/
def State.persistImage (s : State) : List Byte := s.params.persist.flatMap s.fieldImage

/-- The PLEN data bytes of the store (44 R215, R216). -/
def State.storedData (s : State) : List Byte := s.nv.readN s.params.nvData s.params.plen

/-- `encode_4` of a CRC (44 R214). -/
def crcBytes (c : Word32) : List Byte := (ScalarVal.u32 c).encode

/-- S1 of SAVE for the `k`-th register of PERSIST: write its bytes if the stored ones differ (44 R215). -/
def State.saveReg (k : Nat) (s : State) : State :=
  match s.params.persist[k]? with
  | none => s
  | some n =>
    let cur := s.fieldImage n
    let a := s.params.nvData + s.params.idx k
    if s.nv.readN a cur.length = cur then s else s.nvWriteN a cur

/-- S2 of SAVE: the CRC of the data in the store, right after it (44 R215). -/
def State.saveCrc (s : State) : State := s.nvWriteN s.params.nvCrc (crcBytes (crc32 s.storedData))

/-- `save_block(base, sig, r)` (44 R218). -/
def State.saveBlock (base : Nat) (sig : Byte) (n : RegName) (s : State) : State :=
  (s.nvUpdate (base + 1) (s.reg.read (s.params.offOf n))).nvWrite base sig

/-- Do `f` where a build variant is on. -/
def onVariant (on : Bool) (f : State → State) (s : State) : State := if on then f s else s

/-- S4 of SAVE: the enabled optional blocks (44 R215, R218). -/
def State.saveBlocks (s : State) : State :=
  onVariant s.params.persistModel (State.saveBlock s.params.nvMblk s.params.sigModel .model)
    (onVariant s.params.persistAddr (State.saveBlock s.params.nvAblk s.params.sigAddr .deviceAddress) s)

/-- The sub-steps of SAVE in order: S1 for each register, S2, S3, S4, S5 (44 R215, R222).
PERSIST is walked in its own order (log entry 19). -/
def saveMicros (p : Params) : List Micro :=
  (List.range p.persist.length).map .saveReg ++ [.saveCrc, .saveSig, .saveBlocks, .saveFlag]

/-- RESETCONFIG's effect: zero the main block and the enabled optional blocks, clear CONFIG_SAVED (44 R217, R220). -/
def State.eraseConfig (s : State) : State :=
  let main :=
    ((s.nvWrite s.params.nvSig 0).nvWriteN s.params.nvData (List.replicate s.params.plen 0)).nvWriteN
      s.params.nvCrc (List.replicate 4 0)
  let blocks :=
    onVariant s.params.persistModel (State.nvWriteN s.params.nvMblk [0, 0])
      (onVariant s.params.persistAddr (State.nvWriteN s.params.nvAblk [0, 0]) main)
  blocks.putConfigSaved false

/-- The effect of one sub-step of a main-loop operation (44 R215, R222, 45 R251). The two tests put the action they
start before what is left of the job. -/
def microEffect : Micro → State → State
  | .saveReg k, s => s.saveReg k
  | .saveCrc, s => s.saveCrc
  | .saveSig, s => s.nvWrite s.params.nvSig s.params.signature
  | .saveBlocks, s => s.saveBlocks
  | .saveFlag, s => s.putConfigSaved true
  | .testWrite, s =>
    if s.configBit s.params.configBits.writeConfig then
      { s with job := saveMicros s.params ++ .clearWrite :: s.job }
    else s
  | .clearWrite, s => s.putConfig s.params.configBits.writeConfig false
  | .testReset, s =>
    if s.configBit s.params.configBits.resetConfig then { s with job := .eraseConfig :: .clearReset :: s.job } else s
  | .eraseConfig, s => s.eraseConfig
  | .clearReset, s => s.putConfig s.params.configBits.resetConfig false

/-- SAVE's whole effect: its sub-steps with nothing between them (44 R215). -/
def State.save (s : State) : State := (saveMicros s.params).foldl (fun t m => microEffect m t) s

/-- Leave the sub-steps of an operation for the steps to come (44 R222). -/
def State.startJob (ms : List Micro) (s : State) : State := { s with job := s.job ++ ms }

/-- The next sub-step of the main loop's operation as a step of its own (44 R222). -/
def runMicro (s : State) : StepOutcome :=
  admitted s <|
    match s.job with
    | [] => finish s
    | m :: rest => finish (microEffect m { s with job := rest })

/-- The main block is valid: the signature is there and the stored CRC is that of the stored data (44 R216). -/
def State.mainValid (s : State) : Bool :=
  s.nv.read s.params.nvSig = s.params.signature
    && decodeLE (s.nv.readN s.params.nvCrc 4) = (crc32 s.storedData).setWidth 64

/-- Copy the `k`-th persisted register from the store, whole (44 R216; no mask on the way in, (b)). -/
def State.restoreReg (k : Nat) (s : State) : State :=
  match s.params.persist[k]? with
  | none => s
  | some n => s.putBytes (s.params.idOf n) (s.nv.readN (s.params.nvData + s.params.idx k) (s.params.widthOf n))

/-- Copy every persisted register (44 R216), in PERSIST's own order (log entry 19). -/
def State.restoreRegs (s : State) : State := (List.range s.params.persist.length).foldl (fun t k => t.restoreReg k) s

/-- `restore_block(base, sig, r)` (44 R219). -/
def State.restoreBlock (base : Nat) (sig : Byte) (n : RegName) (s : State) : State :=
  if s.nv.read base = sig then { s with reg := s.reg.write (s.params.offOf n) (s.nv.read (base + 1)) } else s

/-- RESTORE's whole effect (44 R216): the main block or nothing of it, CONFIG_SAVED, then the optional blocks whether or
not the main block was valid. -/
def State.restore (s : State) : State :=
  let main := if s.mainValid then s.restoreRegs.putConfigSaved true else s.putConfigSaved false
  onVariant s.params.persistModel (State.restoreBlock s.params.nvMblk s.params.sigModel .model)
    (onVariant s.params.persistAddr (State.restoreBlock s.params.nvAblk s.params.sigAddr .deviceAddress) main)

/-- The condition RESTORE raises (60 R275). -/
def State.restoreRaised (s : State) : Option Cause := if s.mainValid then none else some .storageCorruption

/-- CRC32 (44 R211). -/
def execCrc32 (bs : List Byte) (s : State) : StepOutcome := admitted s (finish s { ret := some (.crc (crc32 bs)) })

/-- SAVE (44 R215): one step, or the start of its sub-steps where the variant splits it (44 R222). -/
def execSave (s : State) : StepOutcome :=
  admitted s <| finish (if s.params.persistAtomic then s.save else s.startJob (saveMicros s.params))

/-- RESTORE (44 R216): one step under either variant (log entry 9). -/
def execRestore (s : State) : StepOutcome :=
  admitted s (finish s.restore { ret := some (.bool s.mainValid), raised := s.restoreRaised })

/-- RESETCONFIG (44 R217): one step under either variant (log entry 9). -/
def execResetConfig (s : State) : StepOutcome := admitted s (finish s.eraseConfig)

end Sys2Proof.Machine
end

