-- ==== Sys2Proof/Machine/Service.lean ====
section
/-! DEFINITION. The main loop's two service operations (45): SERVICE_TRIGGERS and SENSOR_UPDATE. -/

namespace Sys2Proof.Machine

/-- The first half of SERVICE_TRIGGERS: SAVE on WRITE_CONFIG, then clear the bit (45 R251). -/
def State.serveWrite (s : State) : State :=
  if s.configBit s.params.configBits.writeConfig then s.save.putConfig s.params.configBits.writeConfig false else s

/-- The second half: RESETCONFIG on RESET_CONFIG, then clear the bit (45 R251). -/
def State.serveReset (s : State) : State :=
  if s.configBit s.params.configBits.resetConfig then s.eraseConfig.putConfig s.params.configBits.resetConfig false else s

/-- The sub-steps of SERVICE_TRIGGERS where the variant splits it (45 R251 (d); log entry 9). -/
def serviceMicros : List Micro := [.testWrite, .testReset]

/-- SERVICE_TRIGGERS (45 R251). -/
def execServiceTriggers (s : State) : StepOutcome :=
  admitted s <| finish (if s.params.persistAtomic then s.serveWrite.serveReset else s.startJob serviceMicros)

/-- The two typed writes of a reading (45 R252). -/
def State.putReading (t h : Word32) (s : State) : State :=
  (s.putBytes (s.params.idOf .temperature) (ScalarVal.f32 t).encode).putBytes
    (s.params.idOf .humidity) (ScalarVal.f32 h).encode

/-- SENSOR_UPDATE (45 R252), one atomic step (log entries 15, 18). -/
def execSensorUpdate (res : SensorResult) (s : State) : StepOutcome :=
  admitted s <|
    match res with
    | .ok t h => finish (s.putReading t h)
    | .noReading => finish (s.putStatus s.params.statusBits.readError true) { raised := some .sensorReadError }

end Sys2Proof.Machine
end

