-- ==== Sys2Proof/Machine/Dispatch.lean ====
section
/-! DEFINITION. The meaning of each instruction (30 R93, R96). -/

namespace Sys2Proof.Machine

def exec (i : Instr) (s : State) : Host.Outcome State Fault Refusal :=
  match i with
  | .endTx => Sys2Proof.Machine.execEndTx s
  | .addr a => Sys2Proof.Machine.execAddr a s
  | .wr b => Sys2Proof.Machine.execWr b s
  | .rd n => Sys2Proof.Machine.execRd n s
  | .encode T v => Sys2Proof.Machine.execEncode T v s
  | .decode T bs => Sys2Proof.Machine.execDecode T bs s
  | .lookup r => Sys2Proof.Machine.execLookup r s
  | .totalSize => Sys2Proof.Machine.execTotalSize s
  | .classAt a => Sys2Proof.Machine.execClassAt a s
  | .readByte a => Sys2Proof.Machine.execReadByte a s
  | .writeByte a b => Sys2Proof.Machine.execWriteByte a b s
  | .readTyped T r => Sys2Proof.Machine.execReadTyped T r s
  | .writeTyped T r v => Sys2Proof.Machine.execWriteTyped T r v s
  | .getBit r k => Sys2Proof.Machine.execGetBit r k s
  | .setBit r k x => Sys2Proof.Machine.execSetBit r k x s
  | .resetCursor => Sys2Proof.Machine.execResetCursor s
  | .advanceCursor => Sys2Proof.Machine.execAdvanceCursor s
  | .cursor => Sys2Proof.Machine.execCursor s
  | .crc32 bs => Sys2Proof.Machine.execCrc32 bs s
  | .save => Sys2Proof.Machine.execSave s
  | .restore => Sys2Proof.Machine.execRestore s
  | .resetConfig => Sys2Proof.Machine.execResetConfig s
  | .serviceTriggers => Sys2Proof.Machine.execServiceTriggers s
  | .sensorUpdate res => Sys2Proof.Machine.execSensorUpdate res s

end Sys2Proof.Machine
end

