-- ==== Sys2Proof/WellFormed.lean ====
section
/-! DEFINITION. Which instructions are well-formed: the operand conditions that depend on the instruction alone (30 R97,
40 R121, R122, 42 R154, R155). Conditions on a register id or an address depend on REGMAP and are the meanings' own. -/

namespace Sys2Proof

/-- ENCODE and WRITETYPED take a value of their type, DECODE a sequence of its type's width, GETBIT and SETBIT a bit
index of 0 to 7; every other instruction is well-formed with any operands. -/
def Instr.wf : Instr → Bool
  | .encode T v => v.ty = T
  | .decode T bs => bs.length = T.width
  | .writeTyped T _ v => v.ty = T
  | .getBit _ i => i ≤ 7
  | .setBit _ i _ => i ≤ 7
  | .endTx | .addr _ | .wr _ | .rd _ | .lookup _ | .totalSize | .classAt _ | .readByte _ | .writeByte _ _
  | .readTyped _ _ | .resetCursor | .advanceCursor | .cursor | .crc32 _ | .save | .restore | .resetConfig
  | .serviceTriggers | .sensorUpdate _ => true

end Sys2Proof
end

