-- ==== Sys2Proof/Decode.lean ====
section
/-! DEFINITION. The decoders of the two formats (30 R90 to R98, R102), the encoder, and the table's numbering of words.
An EV word is 10 bits and every one decodes; an OP call is a number of the table of 30 R96 with its typed arguments. -/

namespace Sys2Proof

/-- The operations in the order of 30 R96. -/
def OpName.all : List OpName :=
  [ .encode, .decode, .lookup, .totalSize, .classAt, .readByte, .writeByte, .readTyped, .writeTyped, .getBit, .setBit
  , .resetCursor, .advanceCursor, .cursor, .crc32, .save, .restore, .resetConfig, .serviceTriggers, .sensorUpdate ]

/-- The operation number (30 R96). -/
def OpName.number : OpName → Byte
  | .encode => 0x00
  | .decode => 0x01
  | .lookup => 0x10
  | .totalSize => 0x11
  | .classAt => 0x12
  | .readByte => 0x20
  | .writeByte => 0x21
  | .readTyped => 0x22
  | .writeTyped => 0x23
  | .getBit => 0x24
  | .setBit => 0x25
  | .resetCursor => 0x26
  | .advanceCursor => 0x27
  | .cursor => 0x28
  | .crc32 => 0x30
  | .save => 0x31
  | .restore => 0x32
  | .resetConfig => 0x33
  | .serviceTriggers => 0x40
  | .sensorUpdate => 0x41

/-- The operation a number names; none for a reserved number (30 R98, R102). -/
def OpName.ofNumber (n : Byte) : Option OpName := OpName.all.find? fun o => o.number = n

/-- The tag of a scalar type operand: its row in the table of 40 R120 (log entry 5). -/
def ScalarType.tag : ScalarType → Byte
  | .u8 => 0
  | .u16 => 1
  | .u32 => 2
  | .u64 => 3
  | .i16 => 4
  | .i32 => 5
  | .i64 => 6
  | .f32 => 7

/-- The scalar types in the order of 40 R120. -/
def ScalarType.all : List ScalarType := [.u8, .u16, .u32, .u64, .i16, .i32, .i64, .f32]

/-- The type a tag names; none for a type outside the codec. -/
def ScalarType.ofTag (n : Byte) : Option ScalarType := ScalarType.all.find? fun T => T.tag = n

/-- Give `k` the codec type of a tag, or refuse the type by name (60 R279). -/
def withType (tag : Byte) (k : ScalarType → Instr) : Except DecodeError Instr :=
  match ScalarType.ofTag tag with
  | some T => .ok (k T)
  | none => .error (.notCodecType tag)

/-- Put an operation's typed arguments together (30 R96, column "operands"); any others are refused by name. -/
def assemble (o : OpName) (args : List Arg) : Except DecodeError Instr :=
  match o with
  | .encode => match args with | [.ty t, .val v] => withType t fun T => .encode T v | _ => .error (.badOperands o.number)
  | .decode => match args with | [.ty t, .bytes bs] => withType t fun T => .decode T bs | _ => .error (.badOperands o.number)
  | .lookup => match args with | [.reg r] => .ok (.lookup r) | _ => .error (.badOperands o.number)
  | .totalSize => match args with | [] => .ok .totalSize | _ => .error (.badOperands o.number)
  | .classAt => match args with | [.address a] => .ok (.classAt a) | _ => .error (.badOperands o.number)
  | .readByte => match args with | [.address a] => .ok (.readByte a) | _ => .error (.badOperands o.number)
  | .writeByte => match args with | [.address a, .byte b] => .ok (.writeByte a b) | _ => .error (.badOperands o.number)
  | .readTyped => match args with | [.ty t, .reg r] => withType t fun T => .readTyped T r | _ => .error (.badOperands o.number)
  | .writeTyped => match args with | [.ty t, .reg r, .val v] => withType t fun T => .writeTyped T r v | _ => .error (.badOperands o.number)
  | .getBit => match args with | [.reg r, .bitIndex i] => .ok (.getBit r i) | _ => .error (.badOperands o.number)
  | .setBit => match args with | [.reg r, .bitIndex i, .flag x] => .ok (.setBit r i x) | _ => .error (.badOperands o.number)
  | .resetCursor => match args with | [] => .ok .resetCursor | _ => .error (.badOperands o.number)
  | .advanceCursor => match args with | [] => .ok .advanceCursor | _ => .error (.badOperands o.number)
  | .cursor => match args with | [] => .ok .cursor | _ => .error (.badOperands o.number)
  | .crc32 => match args with | [.bytes bs] => .ok (.crc32 bs) | _ => .error (.badOperands o.number)
  | .save => match args with | [] => .ok .save | _ => .error (.badOperands o.number)
  | .restore => match args with | [] => .ok .restore | _ => .error (.badOperands o.number)
  | .resetConfig => match args with | [] => .ok .resetConfig | _ => .error (.badOperands o.number)
  | .serviceTriggers => match args with | [] => .ok .serviceTriggers | _ => .error (.badOperands o.number)
  | .sensorUpdate => match args with | [.sensor res] => .ok (.sensorUpdate res) | _ => .error (.badOperands o.number)

/-- The `OP` decoder (30 R96, R98, R102). -/
def decodeOp (num : Byte) (args : List Arg) : Except DecodeError Instr :=
  match OpName.ofNumber num with
  | some o => assemble o args
  | none => .error (.reservedOp num)

/-- The `EV` decoder: kind in bits 9:8, data in bits 7:0 (30 R91, R93); END ignores its data (30 R92). -/
def decodeEv (w : BitVec 10) : Instr :=
  let data : Byte := w.extractLsb' 0 8
  match (w.extractLsb' 8 2).toNat with
  | 0 => .endTx
  | 1 => .addr data
  | 2 => .wr data
  | _ => .rd data

/-- The decoder of a port's word (30 R102): it reads no state and refuses by name. -/
def decodeInstr : PortWord → Except DecodeError Instr
  | .ev w => .ok (decodeEv w)
  | .op num args => decodeOp num args

/-- An event word from its kind and its data (30 R91). -/
def evWord (kind : BitVec 2) (data : Byte) : BitVec 10 := kind.setWidth 10 <<< 8 ||| data.setWidth 10

/-- A call's word: the operation's number and its arguments (30 R95). -/
def callWord (o : OpName) (args : List Arg) : PortWord := .op o.number args

/-- The encoder (30 R93, R96); END in its canonical spelling, data 0 (30 R92). -/
def encodeInstr : Instr → PortWord
  | .endTx => .ev (evWord 0 0)
  | .addr a => .ev (evWord 1 a)
  | .wr b => .ev (evWord 2 b)
  | .rd n => .ev (evWord 3 n)
  | .encode T v => callWord .encode [.ty T.tag, .val v]
  | .decode T bs => callWord .decode [.ty T.tag, .bytes bs]
  | .lookup r => callWord .lookup [.reg r]
  | .totalSize => callWord .totalSize []
  | .classAt a => callWord .classAt [.address a]
  | .readByte a => callWord .readByte [.address a]
  | .writeByte a b => callWord .writeByte [.address a, .byte b]
  | .readTyped T r => callWord .readTyped [.ty T.tag, .reg r]
  | .writeTyped T r v => callWord .writeTyped [.ty T.tag, .reg r, .val v]
  | .getBit r i => callWord .getBit [.reg r, .bitIndex i]
  | .setBit r i x => callWord .setBit [.reg r, .bitIndex i, .flag x]
  | .resetCursor => callWord .resetCursor []
  | .advanceCursor => callWord .advanceCursor []
  | .cursor => callWord .cursor []
  | .crc32 bs => callWord .crc32 [.bytes bs]
  | .save => callWord .save []
  | .restore => callWord .restore []
  | .resetConfig => callWord .resetConfig []
  | .serviceTriggers => callWord .serviceTriggers []
  | .sensorUpdate res => callWord .sensorUpdate [.sensor res]

/-- The arguments of a call whose every operand is zero (log entry 5): the first type `u8`, the value 0 of it, a
sequence of `width(u8)` zero bytes for DECODE and the empty one for CRC32, register 0, address 0, byte 0, bit 0, false,
and the first sensor result with both patterns 0. -/
def zeroArgs : OpName → List Arg
  | .encode => [.ty 0, .val (.u8 0)]
  | .decode => [.ty 0, .bytes [0]]
  | .lookup => [.reg 0]
  | .classAt | .readByte => [.address 0]
  | .writeByte => [.address 0, .byte 0]
  | .readTyped => [.ty 0, .reg 0]
  | .writeTyped => [.ty 0, .reg 0, .val (.u8 0)]
  | .getBit => [.reg 0, .bitIndex 0]
  | .setBit => [.reg 0, .bitIndex 0, .flag false]
  | .crc32 => [.bytes []]
  | .sensorUpdate => [.sensor (.ok 0 0)]
  | .totalSize | .resetCursor | .advanceCursor | .cursor | .save | .restore | .resetConfig | .serviceTriggers => []

/-- The port word whose bits are `w` in the table's numbering: a row of at most 8 bits is an operation number, its
operands zero; a longer one is a 10-bit event word, carried in two bytes whose upper six bits are 0 (30 R90). -/
def tableWord (nbits w : Nat) : Option PortWord :=
  if nbits ≤ 8 then
    if w < 256 then
      some (.op (BitVec.ofNat 8 w) (((OpName.ofNumber (BitVec.ofNat 8 w)).map zeroArgs).getD []))
    else none
  else if w < 1024 then some (.ev (BitVec.ofNat 10 w)) else none

/-- The instruction the decoder reads from a word of `opcode_table.json`; none where it refuses. -/
def decodeTableWord (nbits w : Nat) : Option Instr :=
  match tableWord nbits w with
  | some p =>
    match decodeInstr p with
    | .ok i => some i
    | .error _ => none
  | none => none

end Sys2Proof
end

