-- ==== Sys2Proof/Machine/Fetch.lean ====
section
/-! DEFINITION. Whose turn it is: the next input of the schedule (20 R74, 60 R281) and what it asks the block to do. The
main loop takes its own steps in program order, so that while an operation of it is split, its next call and the
environment's reset wait for the sub-steps (44 R222, 70 R316); bus events do not (log entry 9). -/

namespace Sys2Proof.Machine

/-- What a step does. -/
inductive Turn where
  | idle
  | micro
  | reset
  | run (i : Instr)
  | reject (e : DecodeError)
  deriving DecidableEq, Repr

/-- The turn a port word asks for (30 R102). -/
def turnOf (p : PortWord) : Turn :=
  match decodeInstr p with
  | .ok i => .run i
  | .error e => .reject e

/-- The main loop owes no sub-step: none is left, or the block has stopped (10 R30). -/
def State.mainFree (s : State) : Bool := s.job.isEmpty || s.fault.isSome

/-- The main loop's own turn: its next sub-step if one is left. -/
def mainTurn (s : State) : Turn := if s.job.isEmpty then .idle else .micro

/-- The next turn, and the state with the input it uses taken from the inbox. -/
def fetch (s : State) : Turn × State :=
  match s.inbox with
  | [] => (mainTurn s, s)
  | .mainStep :: rest => (mainTurn s, { s with inbox := rest })
  | .reset :: rest => if s.mainFree then (.reset, { s with inbox := rest }) else (.micro, s)
  | .word (.ev w) :: rest => (turnOf (.ev w), { s with inbox := rest })
  | .word (.op n args) :: rest =>
    if s.mainFree then (turnOf (.op n args), { s with inbox := rest }) else (.micro, s)

/-- Put a word next in line, so that the next step takes it: ahead of the inbox, and with no sub-step owed if it is an
operation call (log entry 4). -/
def placeWord (p : PortWord) (s : State) : State :=
  match p with
  | .ev w => { s with inbox := .word (.ev w) :: s.inbox }
  | .op n args => { s with inbox := .word (.op n args) :: s.inbox, job := [] }

end Sys2Proof.Machine
end

