-- ==== Sys2Proof/Machine/PowerOn.lean ====
section
/-! DEFINITION. Power-on reset and the boot sequence, one atomic step of the environment (70 R300, R301). -/

namespace Sys2Proof.Machine

/-- The volatile state at its reset values (70 R300); the store is kept. What was left of a main-loop operation is gone
with the volatile state (log entry 9). -/
def State.powerOn (s : State) : State :=
  { s with
    reg := Memory.ofBytes s.params.regReset
    cursor := 0
    busState := .idle
    wrBurstOk := false
    fault := none
    job := [] }

/-- Power-on reset followed at once by the boot RESTORE, whose result is seen only in CONFIG_SAVED (70 R301). It is the
one step a stopped block takes (10 R30). -/
def powerOnReset (s : State) : StepOutcome :=
  if s.params.wf then finish s.powerOn.restore { raised := s.powerOn.restoreRaised } else .refused .badParameters

end Sys2Proof.Machine
end

