-- ==== Sys2Proof/Machine/Step.lean ====
section
/-! DEFINITION. One step of the block (20 R74): take the next input, and do what it asks. -/

namespace Sys2Proof.Machine

/-- One atomic step. With nothing to do the block waits, its state unchanged (log entry 4). -/
def step (s : State) : Host.Outcome State Fault Refusal :=
  match fetch s with
  | (.idle, t) => admitted t (.next t)
  | (.micro, t) => runMicro t
  | (.reset, t) => powerOnReset t
  | (.run i, t) => exec i t
  | (.reject e, t) => admitted t (.refused (.undecodable e))

/-- The word `w` of a table row of `nbits` bits on its port, next in line (log entry 4). -/
def State.withFetchWord (s : State) (nbits w : Nat) : State :=
  match tableWord nbits w with
  | some p => placeWord p s
  | none => s

end Sys2Proof.Machine
end

