-- ==== Sys2Proof/Machine/Trace.lean ====
section
/-! DEFINITION. Traces and the pseudo-instructions of 30 R99, R100: fixed expansions into bus events. -/

namespace Sys2Proof.Machine

/-- The pseudo-instructions of 30 R100; the last two take a register id and a 32-bit pattern. -/
inductive Pseudo where
  | writeAt (a : Byte) (bs : List Byte)
  | setPtr (a : Byte)
  | readNext (n : Byte)
  | readAt (a n : Byte)
  | readAtStop (a n : Byte)
  | writeU32 (r : Nat) (v : Word32)
  | writeF32 (r : Nat) (f : Word32)
  deriving DecidableEq, Repr

/-- WRITE_AT's events: one write transaction (30 R100). -/
def writeAtEvents (a : Byte) (bs : List Byte) : List Instr := .addr a :: bs.map .wr ++ [.endTx]

/-- The expansion of a pseudo-instruction (30 R100). -/
def Pseudo.expand (p : Params) : Pseudo → List Instr
  | .writeAt a bs => writeAtEvents a bs
  | .setPtr a => [.addr a, .endTx]
  | .readNext n => [.rd n, .endTx]
  | .readAt a n => [.addr a, .rd n, .endTx]
  | .readAtStop a n => [.addr a, .endTx, .rd n, .endTx]
  | .writeU32 r v => writeAtEvents (BitVec.ofNat 8 (p.off r)) (ScalarVal.u32 v).encode
  | .writeF32 r f => writeAtEvents (BitVec.ofNat 8 (p.off r)) (ScalarVal.f32 f).encode

/-- Run instructions one after the other (30 R99): the last state and each step's answer, none if a step stops. -/
def runTrace : List Instr → State → Option (State × List Answer)
  | [], s => some (s, [])
  | i :: is, s =>
    match exec i s with
    | .next t => (runTrace is t).map fun u => (u.1, t.answer :: u.2)
    | .fault _ => none
    | .refused _ => none

/-- The responses of the read-requests of a trace, oldest first. -/
def responses (as : List Answer) : List (List Byte) := as.filterMap Answer.rsp

end Sys2Proof.Machine
end

