-- ==== Sys2Proof/Safety.lean ====
section
/-! DEFINITION. The terms claims are stated in: a block that may take a step, the invariant of a run, what two states
share, and the regions of the two spaces an operation may write. -/

/-- PERSIST names no register twice and not STATUS, as the source's list (00 R7); other lists are admitted too (log
entry 19). -/
abbrev Sys2Proof.Params.plainPersist (p : Sys2Proof.Params) : Prop :=
  p.persist.Nodup ∧ Sys2Proof.RegName.status ∉ p.persist

namespace Sys2Proof.Machine

/-- The block may take a step: its parameters are well-formed (00 R8) and it has not stopped (10 R30). -/
abbrev State.Ready (s : State) : Prop := s.params.wf = true ∧ s.fault = none

/-- The invariant of a run (10 R35 (a), (b)): the parameters are well-formed, the cursor is below TOTAL, and each space
is in canonical form with no byte listed outside it. -/
abbrev State.Inv (s : State) : Prop :=
  s.params.wf = true ∧ s.cursor.toNat < s.params.total
    ∧ s.reg.wf ∧ s.reg.below s.params.total
    ∧ s.nv.wf ∧ s.nv.below s.params.nvSize

/-- An address of register `r`'s span. -/
abbrev inSpan (p : Params) (r a : Nat) : Prop := p.off r ≤ a ∧ a < p.off r + p.width r

/-- An address of the main block: signature, data or CRC (44 R214). -/
abbrev inMainBlock (p : Params) (a : Nat) : Prop :=
  a = p.nvSig ∨ (p.nvData ≤ a ∧ a < p.nvData + p.plen) ∨ (p.nvCrc ≤ a ∧ a < p.nvCrc + 4)

/-- An address of an enabled optional block (44 R214, R220). -/
abbrev inOptionalBlock (p : Params) (a : Nat) : Prop :=
  (p.persistAddr = true ∧ (a = p.nvAblk ∨ a = p.nvAblk + 1)) ∨ (p.persistModel = true ∧ (a = p.nvMblk ∨ a = p.nvMblk + 1))

/-- The store holds a valid main block: the signature, and the CRC of the data (44 R216). -/
def validMainBlock (s : State) : Prop :=
  s.nv.read s.params.nvSig = s.params.signature
    ∧ ∀ j, j < 4 → s.nv.read (s.params.nvCrc + j) = (crc32 s.storedData).extractLsb' (8 * j) 8

/-- RESTORE gives the byte at `a` from an optional block: the block is enabled, its signature stands in the store, and `a`
is its register's address (44 R219). -/
def takenByOptionalBlock (s : State) (a : Nat) : Prop :=
  (a = s.params.offOf .deviceAddress ∧ s.params.persistAddr = true ∧ s.nv.read s.params.nvAblk = s.params.sigAddr)
    ∨ (a = s.params.offOf .model ∧ s.params.persistModel = true ∧ s.nv.read s.params.nvMblk = s.params.sigModel)

/-- Bit `i` of the STATUS byte. -/
def State.statusBit (s : State) (i : Nat) : Bool := s.bit (s.params.idOf .status) i

/-- `REG` holds in `t` what it holds in `s`, but for bit `i` of STATUS, which is `x` in `t`. -/
def onlyStatusBit (s t : State) (i : Nat) (x : Bool) : Prop :=
  (∀ a, a ≠ s.params.offOf .status → t.reg.read a = s.reg.read a)
    ∧ ∀ j, j < 8 → t.statusBit j = if j = i then x else s.statusBit j

end Sys2Proof.Machine
end

