-- ==== Sys2Proof/Certificates/Slice0/Obligations.lean ====
section
/-! DEFINITION. The statements for the provers. Each docstring names the rules of the spec it formalises. A statement
about a next state is an equation: its right side names every field that may change, so it is the instruction's frame. -/

open Sys2Proof Sys2Proof.Machine

/-! ## Encodings (30) -/

/-- Decode and encode agree (30 R91, R93, R96): no operand of any instruction is lost on its port. How a call's typed
arguments are laid out, a type's tag among them, is the model's choice (log entry 5). -/
def Obligations.DecodeOfEncodeIsTheInstruction : Prop :=
  ∀ i : Instr, decodeInstr (encodeInstr i) = .ok i

/-- 30 R93: the event opcode map, match and mask; every 10-bit word is one of the four rows. -/
def Obligations.EveryEventWordDecodesByItsKind : Prop :=
  ∀ w : BitVec 10,
    (w &&& 0x300 = 0x000 ∨ w &&& 0x300 = 0x100 ∨ w &&& 0x300 = 0x200 ∨ w &&& 0x300 = 0x300)
    ∧ (w &&& 0x300 = 0x000 → decodeInstr (.ev w) = .ok .endTx)
    ∧ (w &&& 0x300 = 0x100 → decodeInstr (.ev w) = .ok (.addr (w.setWidth 8)))
    ∧ (w &&& 0x300 = 0x200 → decodeInstr (.ev w) = .ok (.wr (w.setWidth 8)))
    ∧ (w &&& 0x300 = 0x300 → decodeInstr (.ev w) = .ok (.rd (w.setWidth 8)))

/-- 30 R98: a number outside the table of R96 is reserved, whatever its arguments; the decoder and a step of a block
that may take one refuse it by name, and no number of the table is refused as reserved. -/
def Obligations.ReservedNumbersAreRefused : Prop :=
  (∀ (num : Byte) (args : List Arg),
    (decodeInstr (.op num args) = .error (.reservedOp num)
      ↔ num ∉ ([0x00, 0x01, 0x10, 0x11, 0x12, 0x20, 0x21, 0x22, 0x23, 0x24, 0x25, 0x26, 0x27, 0x28, 0x30, 0x31, 0x32,
          0x33, 0x40, 0x41] : List Byte)))
  ∧ ∀ (s : State) (num : Byte) (args : List Arg) (rest : List PortInput), s.Ready → s.job = [] →
    s.inbox = .word (.op num args) :: rest → decodeInstr (.op num args) = .error (.reservedOp num) →
    step s = .refused (.undecodable (.reservedOp num))

/-- Six event words and three operation numbers written out from 30 R91, R101 and R96, those of `WRITE_U32 INTERVAL,
5000` among them. The arguments beside a number are the model's choice (log entry 5): the spec says that they are typed
(30 R95, R96), not how, and that tag 2 stands for `u32` is the model's numbering. -/
def Obligations.WordsOfTheSpecDecode : Prop :=
  decodeInstr (.ev 0b0100010001) = .ok (.addr 0x11)
  ∧ decodeInstr (.ev 0b1010001000) = .ok (.wr 0x88)
  ∧ decodeInstr (.ev 0b1000010011) = .ok (.wr 0x13)
  ∧ decodeInstr (.ev 0b1000000000) = .ok (.wr 0x00)
  ∧ decodeInstr (.ev 0b1100000100) = .ok (.rd 4)
  ∧ decodeInstr (.ev 0b0000000000) = .ok .endTx
  ∧ decodeInstr (.op 0b00100011 [.ty 2, .reg 8, .val (.u32 5000)]) = .ok (.writeTyped .u32 8 (.u32 5000))
  ∧ decodeInstr (.op 0b00110001 []) = .ok .save
  ∧ decodeInstr (.op 0b01000001 [.sensor .noReading]) = .ok (.sensorUpdate .noReading)

/-! ## The step -/

/-- A step runs the decoded instruction: with a word next in line that decodes, the step is `exec` of it on the state
without that word; an event at any time, an operation call when no sub-step is owed (20 R69, R74, 30 R102). -/
def Obligations.StepRunsTheDecodedInstruction : Prop :=
  ∀ (s : State) (p : PortWord) (i : Instr) (rest : List PortInput),
    s.inbox = .word p :: rest → decodeInstr p = .ok i → (s.job = [] ∨ ∃ w, p = .ev w) →
    step s = exec i { s with inbox := rest }

/-- What the step does with everything else (44 R222, 70 R300, and the model's own schedule, log entries 4 and 9): an
owed sub-step runs before the main loop's next call, before a reset and when the main loop has its turn; a reset runs
when nothing is owed or the block has stopped; with no input and nothing owed the block waits. -/
def Obligations.StepTakesTheScheduledTurn : Prop :=
  ∀ (s : State) (rest : List PortInput),
    (∀ (m : Micro) (ms : List Micro), s.Ready → s.job = m :: ms →
      (s.inbox = [] → step s = .next { microEffect m { s with job := ms } with answer := {} })
      ∧ (s.inbox = .mainStep :: rest →
          step s = .next { microEffect m { s with job := ms, inbox := rest } with answer := {} })
      ∧ (s.inbox = .reset :: rest → step s = .next { microEffect m { s with job := ms } with answer := {} })
      ∧ ∀ n args, s.inbox = .word (.op n args) :: rest →
          step s = .next { microEffect m { s with job := ms } with answer := {} })
    ∧ (s.inbox = .reset :: rest → (s.job = [] ∨ s.fault ≠ none) → step s = powerOnReset { s with inbox := rest })
    ∧ (s.Ready → s.job = [] → s.inbox = [] → step s = .next s)
    ∧ (s.Ready → s.job = [] → s.inbox = .mainStep :: rest → step s = .next { s with inbox := rest })

/-! ## ByteCodec (40) -/

/-- 40 R121: ENCODE's result has `width(T)` bytes and byte `k` is bits `8k+7 : 8k` of the pattern; no state changes. -/
def Obligations.EncodeGivesTheLeastSignificantByteFirst : Prop :=
  ∀ (s : State) (T : ScalarType) (v : ScalarVal), s.Ready → v.ty = T →
    ∃ bs : List Byte, exec (.encode T v) s = .next { s with answer := { ret := some (.bytes bs) } }
      ∧ bs.length = T.width
      ∧ ∀ k, k < T.width → bs[k]? = some (v.pattern.extractLsb' (8 * k) 8)

/-- 40 R122: DECODE joins the bytes, the first least significant, and reads the pattern as unsigned, or as two's
complement for the signed types; a sequence of another length is refused. -/
def Obligations.DecodeJoinsTheBytes : Prop :=
  ∀ (s : State) (T : ScalarType) (bs : List Byte), s.Ready →
    (bs.length = T.width →
      ∃ v : ScalarVal, exec (.decode T bs) s = .next { s with answer := { ret := some (.scalar v) } }
        ∧ v.ty = T
        ∧ (∀ k, k < T.width → bs[k]? = some (v.pattern.extractLsb' (8 * k) 8))
        ∧ v.pattern.toNat < 2 ^ (8 * T.width)
        ∧ (T ∈ [ScalarType.u8, .u16, .u32, .u64] → v.toInt? = some (v.pattern.toNat : Int))
        ∧ (T ∈ [ScalarType.i16, .i32, .i64] →
            v.toInt? = some (if v.pattern.toNat < 2 ^ (8 * T.width - 1) then (v.pattern.toNat : Int)
              else (v.pattern.toNat : Int) - 2 ^ (8 * T.width))))
    ∧ (bs.length ≠ T.width → exec (.decode T bs) s = .refused .wrongLength)

/-- 40 R123: encoding and decoding are inverse bijections, bit for bit, NaN patterns included. -/
def Obligations.CodecMapsAreInverse : Prop :=
  (∀ v : ScalarVal, v.ty.decode v.encode = v)
  ∧ ∀ (T : ScalarType) (bs : List Byte), bs.length = T.width → (T.decode bs).ty = T ∧ (T.decode bs).encode = bs

/-! ## RegisterMap (41) -/

/-- 41 R140, R142: TOTALSIZE answers TOTAL, and the layout is cumulative. -/
def Obligations.TotalSizeEndsTheCumulativeLayout : Prop :=
  ∀ s : State, s.Ready →
    exec .totalSize s = .next { s with answer := { ret := some (.size s.params.total) } }
    ∧ s.params.off 0 = 0
    ∧ (∀ r, r < s.params.regCount → s.params.off (r + 1) = s.params.off r + s.params.width r)
    ∧ s.params.total = s.params.off s.params.regCount

/-- 41 R141: LOOKUP answers offset, width and the class of each byte, the first aligned and the rest continuation; an
id that names no register is refused. -/
def Obligations.LookupAnswersTheDescriptor : Prop :=
  ∀ (s : State) (r : Nat), s.Ready →
    (r < s.params.regCount →
      exec (.lookup r) s = .next { s with
        answer := { ret := some (.entry (s.params.off r) (s.params.width r)
          (if s.params.writable r then
            .writableAligned :: List.replicate (s.params.width r - 1) .writableContinuation
           else .readOnlyAligned :: List.replicate (s.params.width r - 1) .readOnlyContinuation)) } })
    ∧ (s.params.regCount ≤ r → exec (.lookup r) s = .refused (.unknownRegister r))

/-- 41 R143: the class of an address, from the register whose span it is in; an address at or above TOTAL is refused. -/
def Obligations.ClassAtFollowsTheRegister : Prop :=
  ∀ (s : State) (a : Address), s.Ready →
    (∀ r, r < s.params.regCount → inSpan s.params r a.toNat →
      exec (.classAt a) s = .next { s with
        answer := { ret := some (.cls
          (if a.toNat = s.params.off r then
            if s.params.writable r then .writableAligned else .readOnlyAligned
           else if s.params.writable r then .writableContinuation else .readOnlyContinuation)) } })
    ∧ (s.params.total ≤ a.toNat → exec (.classAt a) s = .refused (.noSuchAddress a))

/-- 41 R145: exactly one register claims each byte, a byte is aligned exactly at a register's offset, and an aligned
read never runs past the end. -/
def Obligations.SpansPartitionTheFile : Prop :=
  ∀ p : Params, p.wf = true →
    (∀ a, a < p.total → ∃ r, (r < p.regCount ∧ inSpan p r a) ∧ ∀ q, q < p.regCount ∧ inSpan p q a → q = r)
    ∧ (∀ a, p.aligned a = true ↔ ∃ r, r < p.regCount ∧ a = p.off r)
    ∧ ∀ a, p.aligned a = true → ∃ r, p.regAt a = some r ∧ a + p.width r ≤ p.total

/-! ## RegisterFile (42) -/

/-- 42 R150: READBYTE below TOTAL answers the byte; at or above TOTAL it sets the fault marker and nothing else. -/
def Obligations.ReadByteAnswersOrFaults : Prop :=
  ∀ (s : State) (a : Address), s.Ready →
    (a.toNat < s.params.total →
      exec (.readByte a) s = .next { s with answer := { ret := some (.byte (s.reg.read a.toNat)) } })
    ∧ (s.params.total ≤ a.toNat →
      exec (.readByte a) s = .next { s with
        fault := some .accessOutOfRange, answer := { raised := some (.accessOutOfRange a) } })

/-- 42 R151: WRITEBYTE below TOTAL stores the byte, the class not consulted; at or above TOTAL it sets the marker. -/
def Obligations.WriteByteStoresOrFaults : Prop :=
  ∀ (s : State) (a : Address) (b : Byte), s.Ready →
    (a.toNat < s.params.total →
      ∃ t, exec (.writeByte a b) s = .next t ∧ t = { s with reg := t.reg, answer := {} }
        ∧ ∀ x, t.reg.read x = if x = a.toNat then b else s.reg.read x)
    ∧ (s.params.total ≤ a.toNat →
      exec (.writeByte a b) s = .next { s with
        fault := some .accessOutOfRange, answer := { raised := some (.accessOutOfRange a) } })

/-- 42 R152: READTYPED answers the register's bytes as one pattern of type `T`; an unknown id or another width is
refused. -/
def Obligations.ReadTypedJoinsTheRegister : Prop :=
  ∀ (s : State) (T : ScalarType) (r : Nat), s.Ready →
    (r < s.params.regCount → T.width = s.params.width r →
      ∃ v : ScalarVal, exec (.readTyped T r) s = .next { s with answer := { ret := some (.scalar v) } }
        ∧ v.ty = T
        ∧ ∀ k, k < T.width → v.pattern.extractLsb' (8 * k) 8 = s.reg.read (s.params.off r + k))
    ∧ (r < s.params.regCount → T.width ≠ s.params.width r → exec (.readTyped T r) s = .refused (.widthMismatch r))
    ∧ (s.params.regCount ≤ r → exec (.readTyped T r) s = .refused (.unknownRegister r))

/-- 42 R153: WRITETYPED stores the value's bytes over the register's span in one step and nothing else; an unknown id
or another width is refused. -/
def Obligations.WriteTypedStoresTheRegister : Prop :=
  ∀ (s : State) (T : ScalarType) (r : Nat) (v : ScalarVal), s.Ready → v.ty = T →
    (r < s.params.regCount → T.width = s.params.width r →
      ∃ t, exec (.writeTyped T r v) s = .next t ∧ t = { s with reg := t.reg, answer := {} }
        ∧ (∀ k, k < T.width → t.reg.read (s.params.off r + k) = v.pattern.extractLsb' (8 * k) 8)
        ∧ ∀ a, ¬ inSpan s.params r a → t.reg.read a = s.reg.read a)
    ∧ (r < s.params.regCount → T.width ≠ s.params.width r →
      exec (.writeTyped T r v) s = .refused (.widthMismatch r))
    ∧ (s.params.regCount ≤ r → exec (.writeTyped T r v) s = .refused (.unknownRegister r))

/-- 43 R186, 20 R69: after a typed write, an address-select to the register's offset and a read-request answer exactly
the bytes of the value written, whatever count is asked for. -/
def Obligations.BusReadsTheLastTypedWrite : Prop :=
  ∀ (s : State) (r : Nat) (v : ScalarVal) (n : Byte), s.Ready → r < s.params.regCount →
    v.ty.width = s.params.width r →
    ∃ t as, runTrace [.writeTyped v.ty r v, .addr (BitVec.ofNat 8 (s.params.off r)), .rd n] s = some (t, as)
      ∧ responses as = [v.encode]

/-- 42 R154: GETBIT answers the bit of weight `2^i` of a one-byte register; any other register or index is refused. -/
def Obligations.GetBitAnswersTheBit : Prop :=
  ∀ (s : State) (r i : Nat), s.Ready →
    (r < s.params.regCount → s.params.width r = 1 → i ≤ 7 →
      exec (.getBit r i) s
        = .next { s with answer := { ret := some (.bool ((s.reg.read (s.params.off r)).getLsbD i)) } })
    ∧ (s.params.regCount ≤ r → exec (.getBit r i) s = .refused (.unknownRegister r))
    ∧ (r < s.params.regCount → s.params.width r ≠ 1 → exec (.getBit r i) s = .refused (.notBitRegister r))
    ∧ (r < s.params.regCount → s.params.width r = 1 → 7 < i → exec (.getBit r i) s = .refused (.bitIndexTooLarge i))

/-- 42 R155: SETBIT changes one bit of a one-byte register and keeps the other seven and every other byte; any other
register or index is refused. -/
def Obligations.SetBitChangesOneBit : Prop :=
  ∀ (s : State) (r i : Nat) (x : Bool), s.Ready →
    (r < s.params.regCount → s.params.width r = 1 → i ≤ 7 →
      ∃ t, exec (.setBit r i x) s = .next t ∧ t = { s with reg := t.reg, answer := {} }
        ∧ (∀ a, a ≠ s.params.off r → t.reg.read a = s.reg.read a)
        ∧ ∀ j, j < 8 → (t.reg.read (s.params.off r)).getLsbD j
            = if j = i then x else (s.reg.read (s.params.off r)).getLsbD j)
    ∧ (s.params.regCount ≤ r → exec (.setBit r i x) s = .refused (.unknownRegister r))
    ∧ (r < s.params.regCount → s.params.width r ≠ 1 → exec (.setBit r i x) s = .refused (.notBitRegister r))
    ∧ (r < s.params.regCount → s.params.width r = 1 → 7 < i →
      exec (.setBit r i x) s = .refused (.bitIndexTooLarge i))

/-- 42 R156, R157, R158: RESETCURSOR sets the cursor to 0, ADVANCECURSOR adds one modulo TOTAL, CURSOR answers it and
changes nothing. -/
def Obligations.CursorOperationsSetAdvanceAndAnswer : Prop :=
  ∀ s : State, s.Ready →
    exec .resetCursor s = .next { s with cursor := 0, answer := {} }
    ∧ (∃ c : Address, exec .advanceCursor s = .next { s with cursor := c, answer := {} }
        ∧ c.toNat = (s.cursor.toNat + 1) % s.params.total)
    ∧ exec .cursor s = .next { s with answer := { ret := some (.position s.cursor) } }

/-- 42 R157, its property: TOTAL calls of ADVANCECURSOR from any position return to that position. -/
def Obligations.AdvancingTotalTimesReturns : Prop :=
  ∀ s : State, s.Ready → s.cursor.toNat < s.params.total →
    ∃ t as, runTrace (List.replicate s.params.total .advanceCursor) s = some (t, as) ∧ t.cursor = s.cursor

/-! ## BusTransactionHandler (43) -/

/-- 43 R182: ADDR below TOTAL selects the address; at or above TOTAL it sets the fault marker and nothing else. -/
def Obligations.AddrSelectsOrFaults : Prop :=
  ∀ (s : State) (a : Byte), s.Ready →
    (a.toNat < s.params.total →
      exec (.addr a) s = .next { s with
        cursor := a.setWidth 16, busState := .addressSelected,
        wrBurstOk := s.params.aligned a.toNat, answer := {} })
    ∧ (s.params.total ≤ a.toNat →
      exec (.addr a) s = .next { s with
        fault := some .addrOutOfRange, answer := { raised := some (.addrOutOfRange a) } })

/-- 43 R183: WR under the default policy stores its byte exactly where the class is writable, advances the cursor by
one modulo TOTAL either way, and becomes Receiving. -/
def Obligations.WrStoresWhereTheClassIsWritable : Prop :=
  ∀ (s : State) (b : Byte), s.Ready → s.cursor.toNat < s.params.total → s.params.strictContWrite = false →
    ∃ t, exec (.wr b) s = .next t
      ∧ t = { s with
          reg := t.reg, cursor := t.cursor, busState := .receiving,
          answer := { raised := if s.params.writableAt s.cursor.toNat then none
                                else some (.writeToReadOnly s.cursor b) } }
      ∧ t.cursor.toNat = (s.cursor.toNat + 1) % s.params.total
      ∧ ∀ a, t.reg.read a
          = if a = s.cursor.toNat ∧ s.params.writableAt s.cursor.toNat = true then b else s.reg.read a

/-- 43 R184: WR under the strict policy stores a writable byte only in a burst that has passed an aligned byte. -/
def Obligations.WrUnderTheStrictPolicy : Prop :=
  ∀ (s : State) (b : Byte), s.Ready → s.cursor.toNat < s.params.total → s.params.strictContWrite = true →
    ∃ t, exec (.wr b) s = .next t
      ∧ t = { s with
          reg := t.reg, cursor := t.cursor, busState := .receiving,
          wrBurstOk := s.wrBurstOk || s.params.aligned s.cursor.toNat,
          answer := { raised := if s.params.writableAt s.cursor.toNat then none
                                else some (.writeToReadOnly s.cursor b) } }
      ∧ t.cursor.toNat = (s.cursor.toNat + 1) % s.params.total
      ∧ ∀ a, t.reg.read a
          = if a = s.cursor.toNat ∧ s.params.writableAt s.cursor.toNat = true
              ∧ (s.wrBurstOk = true ∨ s.params.aligned s.cursor.toNat = true) then b else s.reg.read a

/-- 43 R184: the two policies agree on every burst that starts at an aligned address: the same bytes and cursor. -/
def Obligations.PoliciesAgreeOnAlignedBursts : Prop :=
  ∀ (s : State) (a : Byte) (bs : List Byte), s.Ready → s.params.aligned a.toNat = true →
    ∃ t u as as',
      runTrace (.addr a :: bs.map .wr) { s with params := { s.params with strictContWrite := false } } = some (t, as)
      ∧ runTrace (.addr a :: bs.map .wr) { s with params := { s.params with strictContWrite := true } } = some (u, as')
      ∧ t.reg = u.reg ∧ t.cursor = u.cursor

/-- 43 R185: RD at a register's offset answers its whole width and advances past it, whatever the count; at a
continuation byte it answers zero bytes and the cursor stays. -/
def Obligations.RdAnswersTheRegisterOrNothing : Prop :=
  ∀ (s : State) (n : Byte) (r : Nat), s.Ready → r < s.params.regCount →
    (s.cursor.toNat = s.params.off r →
      ∃ c : Address, exec (.rd n) s
          = .next { s with
              cursor := c, busState := .transmitting,
              answer := { rsp := some ((List.range (s.params.width r)).map fun k =>
                s.reg.read (s.params.off r + k)) } }
        ∧ c.toNat = (s.cursor.toNat + s.params.width r) % s.params.total)
    ∧ (s.params.off r < s.cursor.toNat → s.cursor.toNat < s.params.off r + s.params.width r →
      exec (.rd n) s = .next { s with
        busState := .transmitting,
        answer := { rsp := some [], raised := some (.protocolMisalignment s.cursor) } })

/-- 43 R187: END becomes Idle and keeps the cursor and the register file. -/
def Obligations.EndKeepsTheCursor : Prop :=
  ∀ s : State, s.Ready →
    exec .endTx s = .next { s with busState := .idle, wrBurstOk := false, answer := {} }

/-- The model's stop on a state no run reaches (log entry 10): WR and RD with a cursor at or above TOTAL are refused. -/
def Obligations.BusEventsRefuseAnInvalidCursor : Prop :=
  ∀ (s : State) (b : Byte), s.Ready → s.params.total ≤ s.cursor.toNat →
    exec (.wr b) s = .refused .cursorInvalid ∧ exec (.rd b) s = .refused .cursorInvalid

/-- 43 R188: `bus_state` gates nothing: the same event from the same state with another `bus_state` has the same
outcome, but for `bus_state` itself where the event does not set it. -/
def Obligations.BusStateGatesNothing : Prop :=
  ∀ (s : State) (w : BitVec 10) (i : Instr) (x : BusState), s.Ready → s.cursor.toNat < s.params.total →
    decodeInstr (.ev w) = .ok i →
    ∃ t u, exec i s = .next t ∧ exec i { s with busState := x } = .next u ∧ u = { t with busState := u.busState }
      ∧ (t.fault = none → u.busState = t.busState)

/-- 43 R189, R180, 10 R35 (d), 45 R255: no bus event changes a byte of a read-only register, the store, the parameters
or what the main loop has to do. Which registers are read-only is what REGMAP declares (log entry 20). -/
def Obligations.BusEventsStayInTheBusDomain : Prop :=
  ∀ (s t : State) (w : BitVec 10) (rest : List PortInput), s.inbox = .word (.ev w) :: rest → step s = .next t →
    (∀ a, s.params.writableAt a = false → t.reg.read a = s.reg.read a)
    ∧ t.nv = s.nv ∧ t.wear = s.wear ∧ t.params = s.params ∧ t.job = s.job ∧ t.inbox = rest

/-- 60 R289: every event word has a next state (a fault being one with its marker set) in every state of a run that
has not stopped: no event hangs, is stuck or is refused. -/
def Obligations.EveryEventHasANextState : Prop :=
  ∀ (s : State) (w : BitVec 10) (rest : List PortInput), s.Inv → s.fault = none →
    s.inbox = .word (.ev w) :: rest → ∃ t, step s = .next t

/-- 30 R100: READ_AT and READ_AT_STOP give the same response and the same final cursor. -/
def Obligations.ReadAtAndReadAtStopAgree : Prop :=
  ∀ (s : State) (a n : Byte), s.Ready → a.toNat < s.params.total →
    ∃ t u as as',
      runTrace (Pseudo.expand s.params (.readAt a n)) s = some (t, as)
      ∧ runTrace (Pseudo.expand s.params (.readAtStop a n)) s = some (u, as')
      ∧ responses as = responses as' ∧ t.cursor = u.cursor

/-! ## ConfigPersistence (44) -/

/-- 44 R211, R212: CRC32 answers what the table-driven form computes; the two forms are equal on every input. -/
def Obligations.Crc32IsTheTableDrivenForm : Prop :=
  ∀ (s : State) (bs : List Byte), s.Ready →
    exec (.crc32 bs) s = .next { s with answer := { ret := some (.crc (crc32ByTable bs)) } }

/-- 44 R213: the persisted image: PLEN bytes, each persisted register's in the order of PERSIST, CONFIG under the mask.
Where PERSIST is in REGMAP's order that is R213's declaration order; for another list it is the model's choice (log entry
19). -/
def Obligations.ImageConcatenatesThePersistedRegisters : Prop :=
  ∀ s : State,
    s.persistImage.length = s.params.plen
    ∧ ∀ k n j, s.params.persist[k]? = some n → j < s.params.widthOf n →
      s.persistImage[s.params.idx k + j]?
        = some (if n = .config then s.reg.read (s.params.offOf n + j) &&& s.params.configMask
                else s.reg.read (s.params.offOf n + j))

/-- 44 R215: SAVE as one step: the image, its CRC right after it and the signature stand in the store, the enabled
optional blocks too, no other store byte changes, and of the register file only CONFIG_SAVED, which is set. -/
def Obligations.SaveStoresTheImage : Prop :=
  ∀ s : State, s.Ready → s.params.persistAtomic = true →
    ∃ t, exec .save s = .next t
      ∧ t = { s with reg := t.reg, nv := t.nv, wear := t.wear, answer := {} }
      ∧ t.storedData = s.persistImage
      ∧ (∀ j, j < 4 → t.nv.read (s.params.nvCrc + j) = (crc32 s.persistImage).extractLsb' (8 * j) 8)
      ∧ t.nv.read s.params.nvSig = s.params.signature
      ∧ (s.params.persistAddr = true → t.nv.read s.params.nvAblk = s.params.sigAddr
          ∧ t.nv.read (s.params.nvAblk + 1) = s.reg.read (s.params.offOf .deviceAddress))
      ∧ (s.params.persistModel = true → t.nv.read s.params.nvMblk = s.params.sigModel
          ∧ t.nv.read (s.params.nvMblk + 1) = s.reg.read (s.params.offOf .model))
      ∧ (∀ a, ¬ inMainBlock s.params a → ¬ inOptionalBlock s.params a → t.nv.read a = s.nv.read a)
      ∧ onlyStatusBit s t s.params.statusBits.configSaved true

/-- 44 R223: SAVE makes `w(r)` store writes for each persisted register whose stored bytes differ, and those of the CRC
and the signature, where no optional block is enabled. The count is the model's own field (log entry 11). -/
def Obligations.SaveWritesOnlyWhatDiffers : Prop :=
  ∀ s : State, s.Ready → s.params.persistAtomic = true → s.params.persistAddr = false → s.params.persistModel = false →
    ∃ t, exec .save s = .next t
      ∧ t.wear = s.wear
          + ((List.range s.params.persist.length).map fun k =>
              (s.params.persist[k]?.map fun n =>
                if s.nv.readN (s.params.nvData + s.params.idx k) (s.params.widthOf n) = s.fieldImage n then 0
                else s.params.widthOf n).getD 0).sum
          + 5

/-- 20 R71: repeating SAVE with unchanged registers leaves the store unchanged. -/
def Obligations.RepeatedSaveKeepsTheStore : Prop :=
  ∀ s : State, s.Inv → s.fault = none → s.params.persistAtomic = true → s.params.plainPersist →
    ∃ t u, exec .save s = .next t ∧ exec .save t = .next u ∧ u.nv = t.nv

/-- 44 R222: SAVE where the variant splits it changes nothing yet: it leaves its sub-steps to the main loop, S1 for each
register in PERSIST's order (log entry 19), then S2 to S5. -/
def Obligations.SplitSaveStartsItsSubSteps : Prop :=
  ∀ s : State, s.Ready → s.params.persistAtomic = false →
    exec .save s = .next { s with
      job := s.job ++ ((List.range s.params.persist.length).map .saveReg
        ++ [.saveCrc, .saveSig, .saveBlocks, .saveFlag]), answer := {} }
    ∧ exec .serviceTriggers s = .next { s with job := s.job ++ [.testWrite, .testReset], answer := {} }

/-- 44 R222, 45 R251: the split SAVE with nothing between its sub-steps ends where the one-step SAVE ends, and so does
the split SERVICE_TRIGGERS. -/
def Obligations.SplitOperationsRefineTheAtomicOnes : Prop :=
  ∀ s : State, s.Ready → s.inbox = [] →
    (s.job = saveMicros s.params →
      Host.Core.run Sys2Proof.core s.job.length s = .next { s.save with job := [], answer := {} })
    ∧ (s.job = serviceMicros →
      ∃ k, Host.Core.run Sys2Proof.core k s = .next { s.serveWrite.serveReset with job := [], answer := {} })

/-- 44 R222: S2 computes the CRC from the store, so that after it the stored CRC is that of the stored data, whatever
bus events fell between the sub-steps before it. Of the store it says the data and the CRC only. That an owed sub-step
runs when no input is next is the model's schedule (log entries 4 and 9). -/
def Obligations.StoredCrcMatchesTheStoredData : Prop :=
  ∀ (s : State) (rest : List Micro), s.Ready → s.inbox = [] → s.job = .saveCrc :: rest →
    ∃ t, step s = .next t ∧ t = { s with job := rest, nv := t.nv, wear := t.wear, answer := {} }
      ∧ t.storedData = s.storedData
      ∧ ∀ j, j < 4 → t.nv.read (s.params.nvCrc + j) = (crc32 t.storedData).extractLsb' (8 * j) 8

/-- 44 R216, 60 R275: RESTORE of a valid block copies every persisted register's bytes from the store, whole, sets
CONFIG_SAVED, answers true and changes no other byte; of any other block it answers false, clears CONFIG_SAVED and
changes nothing else; but for a byte that an optional block gives, which has its own statement. -/
def Obligations.RestoreIsAllOrNothing : Prop :=
  ∀ s : State, s.Ready →
    (validMainBlock s → s.params.plainPersist →
      ∃ t, exec .restore s = .next t
        ∧ t = { s with reg := t.reg, answer := { ret := some (.bool true) } }
        ∧ (∀ k n j, s.params.persist[k]? = some n → j < s.params.widthOf n →
            ¬ takenByOptionalBlock s (s.params.offOf n + j) →
            t.reg.read (s.params.offOf n + j) = s.nv.read (s.params.nvData + s.params.idx k + j))
        ∧ (∀ a, (∀ n ∈ s.params.persist, ¬ inSpan s.params (s.params.idOf n) a) → a ≠ s.params.offOf .status →
            ¬ takenByOptionalBlock s a → t.reg.read a = s.reg.read a)
        ∧ ∀ j, j < 8 → t.statusBit j = if j = s.params.statusBits.configSaved then true else s.statusBit j)
    ∧ (¬ validMainBlock s →
      ∃ t, exec .restore s = .next t
        ∧ t = { s with reg := t.reg, answer := { ret := some (.bool false), raised := some .storageCorruption } }
        ∧ (∀ a, a ≠ s.params.offOf .status → ¬ takenByOptionalBlock s a → t.reg.read a = s.reg.read a)
        ∧ ∀ j, j < 8 → t.statusBit j = if j = s.params.statusBits.configSaved then false else s.statusBit j)

/-- 44 R219, R220: an enabled optional block is restored on its own signature, whether or not the main block is valid,
and the return value and CONFIG_SAVED report the main block only. -/
def Obligations.OptionalBlocksAreIndependent : Prop :=
  ∀ s : State, s.Ready →
    ∃ t v, exec .restore s = .next t ∧ t.answer.ret = some (.bool v) ∧ (v = true ↔ validMainBlock s)
      ∧ t.statusBit s.params.statusBits.configSaved = v
      ∧ (s.params.persistAddr = true → s.nv.read s.params.nvAblk = s.params.sigAddr →
          t.reg.read (s.params.offOf .deviceAddress) = s.nv.read (s.params.nvAblk + 1))
      ∧ (s.params.persistModel = true → s.nv.read s.params.nvMblk = s.params.sigModel →
          t.reg.read (s.params.offOf .model) = s.nv.read (s.params.nvMblk + 1))
      ∧ t = { s with reg := t.reg, answer := t.answer }

/-- 44 R217, R220: RESETCONFIG zeroes the main block and the enabled optional blocks, clears CONFIG_SAVED, and changes
no other byte of either space. -/
def Obligations.ResetConfigErasesTheStore : Prop :=
  ∀ s : State, s.Ready →
    ∃ t, exec .resetConfig s = .next t
      ∧ t = { s with reg := t.reg, nv := t.nv, wear := t.wear, answer := {} }
      ∧ (∀ a, inMainBlock s.params a ∨ inOptionalBlock s.params a → t.nv.read a = 0x00)
      ∧ (∀ a, ¬ inMainBlock s.params a → ¬ inOptionalBlock s.params a → t.nv.read a = s.nv.read a)
      ∧ onlyStatusBit s t s.params.statusBits.configSaved false

/-- 44 R226, R217 (d): after RESETCONFIG, RESTORE answers false. -/
def Obligations.ErasedStoreIsAbsent : Prop :=
  ∀ s : State, s.Ready →
    ∃ t u, exec .resetConfig s = .next t ∧ exec .restore t = .next u ∧ u.answer.ret = some (.bool false)

/-- 44 R224 (a), 90 C7: SAVE, then a power cycle: every persisted register holds what it held, CONFIG up to the mask,
CONFIG_SAVED is 1, and the store is as SAVE left it. -/
def Obligations.SavedConfigurationSurvivesPowerCycle : Prop :=
  ∀ s : State, s.Ready → s.params.persistAtomic = true → s.params.plainPersist → s.job = [] →
    ∃ t u, exec .save s = .next t ∧ step { t with inbox := [.reset] } = .next u
      ∧ (∀ n ∈ s.params.persist, n ≠ .config →
          u.regBytes (s.params.idOf n) = s.regBytes (s.params.idOf n))
      ∧ (RegName.config ∈ s.params.persist →
          u.reg.read (s.params.offOf .config) = s.reg.read (s.params.offOf .config) &&& s.params.configMask)
      ∧ u.statusBit s.params.statusBits.configSaved = true
      ∧ u.nv = t.nv

/-- 44 R224 (b), R225: a valid main block with any one byte of it changed (any single-bit flip among them) is rejected
and CONFIG_SAVED cleared; without optional blocks every other byte of the register file is kept. -/
def Obligations.OneChangedByteIsRejected : Prop :=
  ∀ (s : State) (a : Nat) (b : Byte), s.Ready → validMainBlock s → inMainBlock s.params a → b ≠ s.nv.read a →
    ∃ t, exec .restore { s with nv := s.nv.write a b } = .next t
      ∧ t.answer.ret = some (.bool false)
      ∧ t.statusBit s.params.statusBits.configSaved = false
      ∧ (s.params.persistAddr = false → s.params.persistModel = false →
          onlyStatusBit s t s.params.statusBits.configSaved false)

/-! ## The main loop's services (45) -/

/-- 45 R251, one step: with neither trigger nothing changes; WRITE_CONFIG alone saves and is cleared; RESET_CONFIG
erases, whether or not WRITE_CONFIG was set too, and both are cleared; of STATUS only CONFIG_SAVED is written (44 R215,
R217). -/
def Obligations.ServiceTriggersActsAndClears : Prop :=
  ∀ s : State, s.Ready → s.params.persistAtomic = true →
    let w := s.params.configBits.writeConfig
    let e := s.params.configBits.resetConfig
    (s.configBit w = false → s.configBit e = false → exec .serviceTriggers s = .next { s with answer := {} })
    ∧ (s.configBit w = true → s.configBit e = false →
      ∃ t, exec .serviceTriggers s = .next t
        ∧ t = { s with reg := t.reg, nv := s.save.nv, wear := s.save.wear, answer := {} }
        ∧ (∀ j, j < 8 → t.statusBit j = if j = s.params.statusBits.configSaved then true else s.statusBit j)
        ∧ (∀ j, j < 8 → t.configBit j = if j = w then false else s.configBit j)
        ∧ ∀ a, a ≠ s.params.offOf .status → a ≠ s.params.offOf .config → t.reg.read a = s.reg.read a)
    ∧ (s.configBit e = true →
      ∃ t, exec .serviceTriggers s = .next t
        ∧ t = { s with reg := t.reg, nv := t.nv, wear := t.wear, answer := {} }
        ∧ (∀ a, inMainBlock s.params a ∨ inOptionalBlock s.params a → t.nv.read a = 0x00)
        ∧ (∀ a, ¬ inMainBlock s.params a → ¬ inOptionalBlock s.params a → t.nv.read a = s.nv.read a)
        ∧ (∀ j, j < 8 → t.statusBit j = if j = s.params.statusBits.configSaved then false else s.statusBit j)
        ∧ (∀ j, j < 8 → t.configBit j = if j = w ∨ j = e then false else s.configBit j)
        ∧ ∀ a, a ≠ s.params.offOf .status → a ≠ s.params.offOf .config → t.reg.read a = s.reg.read a)

/-- 45 R252, 60 R273: a reading writes TEMPERATURE and HUMIDITY and nothing else; a read error sets READ_ERROR and
keeps every other byte. -/
def Obligations.SensorUpdateWritesTheReading : Prop :=
  ∀ s : State, s.Ready →
    (∀ tp hm : Word32, ∃ t, exec (.sensorUpdate (.ok tp hm)) s = .next t
      ∧ t = { s with reg := t.reg, answer := {} }
      ∧ (∀ k, k < 4 → t.reg.read (s.params.offOf .temperature + k) = tp.extractLsb' (8 * k) 8)
      ∧ (∀ k, k < 4 → t.reg.read (s.params.offOf .humidity + k) = hm.extractLsb' (8 * k) 8)
      ∧ ∀ a, ¬ inSpan s.params (s.params.idOf .temperature) a → ¬ inSpan s.params (s.params.idOf .humidity) a →
          t.reg.read a = s.reg.read a)
    ∧ ∃ t, exec (.sensorUpdate .noReading) s = .next t
      ∧ t = { s with reg := t.reg, answer := { raised := some .sensorReadError } }
      ∧ onlyStatusBit s t s.params.statusBits.readError true

/-! ## Reset, faults, the whole machine (10, 60, 70) -/

/-- 70 R300: power-on reset leaves the cursor 0, Idle, no burst, no fault, and the store as it was. The register file
after it is the statement BootRestoresOrKeepsDefaults. That a running block takes the reset only with no sub-step owed,
and that a stopped block's owed sub-steps are dropped, is the model's choice (log entry 9). -/
def Obligations.PowerOnResetRestartsTheBlock : Prop :=
  ∀ (s : State) (rest : List PortInput), s.params.wf = true → s.inbox = .reset :: rest →
    (s.job = [] ∨ s.fault ≠ none) →
    ∃ t, step s = .next t
      ∧ t = { s with
          reg := t.reg, cursor := 0, busState := .idle, wrBurstOk := false, fault := none, job := [],
          inbox := rest, answer := t.answer }

/-- 70 R301: after the boot sequence either the store was valid, the persisted registers hold the stored values and
CONFIG_SAVED is 1, or it was not, every register holds REG_RESET and CONFIG_SAVED is 0; the other seven bits of STATUS are
those of REG_RESET either way (10 R34); a byte that an enabled optional block gives holds that block's value. The reset is
taken with nothing owed, or by a block that has stopped, whatever it owed (log entry 9). -/
def Obligations.BootRestoresOrKeepsDefaults : Prop :=
  ∀ (s : State) (rest : List PortInput), s.params.wf = true → s.inbox = .reset :: rest →
    (s.job = [] ∨ s.fault ≠ none) → s.params.plainPersist →
    ∃ t, step s = .next t
      ∧ (∀ j, j < 8 → j ≠ s.params.statusBits.configSaved →
          some (t.statusBit j) = s.params.regReset[s.params.offOf .status]?.map (·.getLsbD j))
      ∧ (∀ a, a < s.params.total → (∀ n ∈ s.params.persist, ¬ inSpan s.params (s.params.idOf n) a) →
          a ≠ s.params.offOf .status → ¬ takenByOptionalBlock s a → some (t.reg.read a) = s.params.regReset[a]?)
      ∧ (validMainBlock s → t.statusBit s.params.statusBits.configSaved = true
          ∧ ∀ k n j, s.params.persist[k]? = some n → j < s.params.widthOf n →
            ¬ takenByOptionalBlock s (s.params.offOf n + j) →
            t.reg.read (s.params.offOf n + j) = s.nv.read (s.params.nvData + s.params.idx k + j))
      ∧ (¬ validMainBlock s → t.statusBit s.params.statusBits.configSaved = false
          ∧ ∀ a, a < s.params.total → a ≠ s.params.offOf .status → ¬ takenByOptionalBlock s a →
            some (t.reg.read a) = s.params.regReset[a]?)
      ∧ (s.params.persistAddr = true → s.nv.read s.params.nvAblk = s.params.sigAddr →
          t.reg.read (s.params.offOf .deviceAddress) = s.nv.read (s.params.nvAblk + 1))
      ∧ (s.params.persistModel = true → s.nv.read s.params.nvMblk = s.params.sigModel →
          t.reg.read (s.params.offOf .model) = s.nv.read (s.params.nvMblk + 1))

/-- 10 R34, 95: `State.reset` is the state power-on reset leaves with an all-zero store. The store's content there is
the model's choice (log entry 3). -/
def Obligations.ResetStateIsWhatPowerOnLeaves : Prop :=
  step { State.reset with inbox := [.reset] } = .next State.reset

/-- 10 R30, 60 R283: once the marker is set nothing runs: every instruction, and every step but a power-on reset,
answers the marker's fault. -/
def Obligations.FaultIsStickyUntilReset : Prop :=
  ∀ (s : State) (c : Fault), s.params.wf = true → s.fault = some c →
    (∀ i : Instr, exec i s = .fault c)
    ∧ ((∀ rest, s.inbox ≠ .reset :: rest) → step s = .fault c)

/-- 60 R279: an instruction that is not well-formed is refused: a sequence of the wrong length, a bit index above 7, and,
by the model's inference (log entry 12), a value not of its type. So is a call that names a type outside 40 R120 (40
R127), a tag above 7 being one (log entry 5), and a step on any call the decoder refuses, with no sub-step owed (log entry
9). Under a parameter set that is not well-formed every instruction and every step is refused: a word, a reset, a sub-step
and waiting, before any other ground (log entry 14). Not well-formed is one that fails a condition of 00 R8, or one of
those the model infers from other rules (log entry 8). -/
def Obligations.IllFormedCallsAreRefused : Prop :=
  (∀ (i : Instr) (s : State), s.Ready → i.wf = false → ∃ e, exec i s = .refused e)
  ∧ (∀ (tag : Byte) (v : ScalarVal) (bs : List Byte) (r : Nat), 7 < tag.toNat →
      decodeInstr (.op 0x00 [.ty tag, .val v]) = .error (.notCodecType tag)
      ∧ decodeInstr (.op 0x01 [.ty tag, .bytes bs]) = .error (.notCodecType tag)
      ∧ decodeInstr (.op 0x22 [.ty tag, .reg r]) = .error (.notCodecType tag)
      ∧ decodeInstr (.op 0x23 [.ty tag, .reg r, .val v]) = .error (.notCodecType tag))
  ∧ (∀ (s : State) (p : PortWord) (e : DecodeError) (rest : List PortInput), s.Ready → s.job = [] →
      s.inbox = .word p :: rest → decodeInstr p = .error e → step s = .refused (.undecodable e))
  ∧ ∀ s : State, s.params.wf = false →
      (∀ i : Instr, exec i s = .refused .badParameters) ∧ step s = .refused .badParameters

/-- 41 R146, 10 R31: no step changes the parameters. -/
def Obligations.NoStepChangesTheParameters : Prop :=
  ∀ s t : State, step s = .next t → t.params = s.params

/-- 20 R60, 45 R256: only SAVE, RESETCONFIG and SERVICE_TRIGGERS write the store. -/
def Obligations.OnlyPersistenceWritesTheStore : Prop :=
  ∀ (i : Instr) (s t : State), exec i s = .next t → i ≠ .save → i ≠ .resetConfig → i ≠ .serviceTriggers →
    t.nv = s.nv ∧ t.wear = s.wear

/-- 46 R261: the cursor moves by ADDR, WR, RD, RESETCURSOR and ADVANCECURSOR only. -/
def Obligations.OnlyFiveInstructionsMoveTheCursor : Prop :=
  ∀ (i : Instr) (s t : State), exec i s = .next t → (∀ a, i ≠ .addr a) → (∀ b, i ≠ .wr b) → (∀ n, i ≠ .rd n) →
    i ≠ .resetCursor → i ≠ .advanceCursor → t.cursor = s.cursor

/-- 20 R71, 46 R262: reads, lookups, codec calls and cursor operations change no byte of the register file. -/
def Obligations.OnlyWritersChangeTheRegisterFile : Prop :=
  ∀ (i : Instr) (s t : State), exec i s = .next t →
    (∀ b, i ≠ .wr b) → (∀ a b, i ≠ .writeByte a b) → (∀ T r v, i ≠ .writeTyped T r v) → (∀ r k x, i ≠ .setBit r k x) →
    i ≠ .save → i ≠ .restore → i ≠ .resetConfig → i ≠ .serviceTriggers → (∀ res, i ≠ .sensorUpdate res) →
    t.reg = s.reg

/-- 10 R35 (a), (b): the invariant of a run holds at reset. -/
def Obligations.InvariantHoldsAtReset : Prop := State.reset.Inv

/-- 10 R35 (a), (b): every step keeps it: the parameters stay well-formed, the cursor below TOTAL, both spaces in
canonical form and inside their bounds. -/
def Obligations.EveryStepKeepsTheInvariant : Prop :=
  ∀ s t : State, s.Inv → step s = .next t → t.Inv
end

