-- ==== Sys2Proof/Laws/Bits.lean ====
section
/-! SUPPORT. The laws of GETBIT and SETBIT on a byte (42 R154, R155). -/

namespace Sys2Proof.Machine

/-- Bit `i` is the bit of weight `2^i` (00 R10). -/
theorem byteBit_eq (b : Byte) (i : Nat) : byteBit b i = b.getLsbD i := by
  unfold byteBit
  rw [Bool.eq_iff_iff, decide_eq_true_iff]
  constructor
  · intro h
    have := congrArg (fun x : Byte => x.getLsbD 0) h
    simpa using this
  · intro h
    ext j hj
    rcases Nat.eq_zero_or_pos j with rfl | hp
    · simpa [BitVec.getLsbD_eq_getElem] using h
    · have : (1#8)[j] = false := by rw [BitVec.getElem_one]; simp; omega
      simp [this]

/-- The bit written, and the seven kept. -/
theorem withBit_getLsbD (b : Byte) {i j : Nat} (hi : i ≤ 7) (hj : j < 8) (x : Bool) :
    (withBit b i x).getLsbD j = if j = i then x else b.getLsbD j := by
  have e1 : ((1 : Byte) <<< i).getLsbD j = decide (j = i) := by
    rw [show (1 : Byte) = 1#8 from rfl, BitVec.getLsbD_shiftLeft, BitVec.getLsbD_one]
    rcases Nat.lt_trichotomy j i with h | h | h
    · simp [h]; omega
    · subst h; simp [hj]
    · simp [hj, show ¬ j < i by omega]; omega
  have e2 : ((if x then 1 else 0 : Byte) <<< i).getLsbD j = (decide (j = i) && x) := by
    cases x
    · simp
    · rw [if_pos rfl, e1]; simp
  simp only [withBit, BitVec.getLsbD_or, BitVec.getLsbD_and, BitVec.getLsbD_not, hj, decide_true, Bool.true_and, e1, e2]
  by_cases h : j = i <;> simp [h]

theorem byteBit_withBit (b : Byte) {i j : Nat} (hi : i ≤ 7) (hj : j < 8) (x : Bool) :
    byteBit (withBit b i x) j = if j = i then x else byteBit b j := by
  rw [byteBit_eq, byteBit_eq, withBit_getLsbD b hi hj]

/-- Setting a bit to what it is changes nothing (42 R155). -/
theorem withBit_self (b : Byte) {i : Nat} (hi : i ≤ 7) : withBit b i (b.getLsbD i) = b := by
  apply BitVec.eq_of_getLsbD_eq
  intro j hj
  rw [withBit_getLsbD b hi hj]
  split
  · next h => rw [h]
  · rfl

end Sys2Proof.Machine
end

