-- ==== Sys2Proof/Laws/Codec.lean ====
section
/-! SUPPORT. ByteCodec's laws at the level of bytes and bits (40 R121, R122): the length of an encoding, its bytes, and
the bits of a decoded pattern. -/

namespace Sys2Proof

@[simp] theorem encodeLE_length (n : Nat) (p : BitVec 64) : (encodeLE n p).length = n := by
  induction n generalizing p with
  | zero => rfl
  | succ n ih => simp [encodeLE, ih]

/-- Byte `k` of an encoding is bits `8k+7 : 8k` of the pattern (40 R121). -/
theorem encodeLE_getElem? (n : Nat) (p : BitVec 64) {k : Nat} (h : k < n) :
    (encodeLE n p)[k]? = some (p.extractLsb' (8 * k) 8) := by
  induction n generalizing p k with
  | zero => omega
  | succ n ih =>
    cases k with
    | zero =>
      simp only [encodeLE, List.getElem?_cons_zero, Option.some.injEq]
      ext i hi
      simp
    | succ k =>
      simp only [encodeLE, List.getElem?_cons_succ, ih (p >>> 8) (show k < n by omega), Option.some.injEq]
      ext i hi
      simp only [BitVec.getElem_extractLsb', BitVec.getLsbD_ushiftRight]
      congr 1
      omega

/-- A bit of a decoded pattern is a bit of one of the bytes (40 R122). -/
theorem decodeLE_getLsbD (bs : List Byte) {i : Nat} (h : i < 64) :
    (decodeLE bs).getLsbD i = (bs[i / 8]?.getD 0).getLsbD (i % 8) := by
  induction bs generalizing i with
  | nil => simp [decodeLE]
  | cons b bs ih =>
    simp only [decodeLE, BitVec.getLsbD_or, BitVec.getLsbD_setWidth, BitVec.getLsbD_shiftLeft, h, decide_true,
      Bool.true_and]
    rcases Nat.lt_or_ge i 8 with hi | hi
    · simp [hi, Nat.div_eq_of_lt hi, Nat.mod_eq_of_lt hi]
    · have h1 : b.getLsbD i = false := BitVec.getLsbD_of_ge b i hi
      have h2 : i / 8 = (i - 8) / 8 + 1 := by omega
      have h3 : i % 8 = (i - 8) % 8 := by omega
      rw [h1, ih (show i - 8 < 64 by omega), h2, h3]
      simp [Nat.not_lt.mpr hi]

/-- Decoding an encoding keeps the low `n` bytes of the pattern. -/
theorem decodeLE_encodeLE (n : Nat) (p : BitVec 64) {i : Nat} (h : i < 64) :
    (decodeLE (encodeLE n p)).getLsbD i = (decide (i < 8 * n) && p.getLsbD i) := by
  rw [decodeLE_getLsbD _ h]
  by_cases hi : i / 8 < n
  · rw [encodeLE_getElem? n p hi]
    have : i < 8 * n := by omega
    simp only [Option.getD_some, BitVec.getLsbD_extractLsb', this, decide_true, Bool.true_and,
      show i % 8 < 8 from Nat.mod_lt _ (by omega)]
    congr 1
    omega
  · have : ¬ i < 8 * n := by omega
    rw [List.getElem?_eq_none (by simp; omega)]
    simp [this]

/-- Encoding what was decoded gives the bytes back. -/
theorem encodeLE_decodeLE {bs : List Byte} (h : bs.length ≤ 8) : encodeLE bs.length (decodeLE bs) = bs := by
  apply List.ext_getElem?
  intro k
  by_cases hk : k < bs.length
  · rw [encodeLE_getElem? _ _ hk, List.getElem?_eq_getElem hk]
    congr 1
    ext i hi
    rw [BitVec.getElem_extractLsb', decodeLE_getLsbD bs (by omega), show (8 * k + i) / 8 = k by omega,
      show (8 * k + i) % 8 = i by omega, List.getElem?_eq_getElem hk]
    simp [BitVec.getLsbD_eq_getElem hi]
  · rw [List.getElem?_eq_none (by simpa using hk), List.getElem?_eq_none (by omega)]

theorem ScalarType.width_le (T : ScalarType) : T.width ≤ 8 := by cases T <;> decide

@[simp] theorem ScalarVal.encode_length (v : ScalarVal) : v.encode.length = v.ty.width := by simp [ScalarVal.encode]

@[simp] theorem ScalarVal.ofPattern_ty (T : ScalarType) (p : BitVec 64) : (ScalarVal.ofPattern T p).ty = T := by
  cases T <;> rfl

@[simp] theorem ScalarType.decode_ty (T : ScalarType) (bs : List Byte) : (T.decode bs).ty = T := by
  simp [ScalarType.decode]

/-- A value of a type with a given pattern has that pattern, cut to the type's width. -/
theorem ScalarVal.pattern_ofPattern (T : ScalarType) (p : BitVec 64) {i : Nat} (h : i < 64) :
    (ScalarVal.ofPattern T p).pattern.getLsbD i = (decide (i < 8 * T.width) && p.getLsbD i) := by
  cases T <;> simp only [ScalarVal.ofPattern, ScalarVal.pattern, ScalarType.width, BitVec.getLsbD_setWidth, h,
    decide_true, Bool.true_and, Nat.reduceMul] <;> congr

/-- A value is its type with its pattern. -/
@[simp] theorem ScalarVal.ofPattern_pattern (v : ScalarVal) : ScalarVal.ofPattern v.ty v.pattern = v := by
  cases v <;> simp [ScalarVal.ofPattern, ScalarVal.pattern, ScalarVal.ty]

/-- The bits of a pattern lie within its type's width. -/
theorem ScalarVal.pattern_getLsbD_of_ge (v : ScalarVal) {i : Nat} (h : 8 * v.ty.width ≤ i) :
    v.pattern.getLsbD i = false := by
  cases v <;> simp only [ScalarVal.ty, ScalarType.width] at h <;>
    simp only [ScalarVal.pattern, BitVec.getLsbD_setWidth] <;>
    first
    | rw [BitVec.getLsbD_of_ge _ _ (by omega)]; simp
    | exact BitVec.getLsbD_of_ge _ _ (by omega)

end Sys2Proof
end

