-- ==== Sys2Proof/Laws/Crc.lean ====
section
/-! SUPPORT. The CRC's laws: each step is a bijection and linear, so that one changed byte is always seen (44 R225). -/

namespace Sys2Proof.Machine

theorem xor_cancel_right {c a b : Word32} (h : a ^^^ c = b ^^^ c) : a = b := by
  have := congrArg (· ^^^ c) h
  simpa [BitVec.xor_assoc] using this

/-- One bit step undone: the generator's top bit tells whether a 1 fell out. -/
def crcBitInv (c : Word32) : Word32 := if c.getLsbD 31 then ((c ^^^ 0xEDB88320) <<< 1) ||| 1 else c <<< 1

theorem crcBitInv_crcBit (c : Word32) : crcBitInv (crcBit c) = c := by
  unfold crcBit
  by_cases h : c.getLsbD 0
  · rw [if_pos h]
    have h31 : ((c >>> 1) ^^^ (0xEDB88320 : Word32)).getLsbD 31 = true := by
      rw [BitVec.getLsbD_xor, BitVec.getLsbD_ushiftRight, BitVec.getLsbD_of_ge c (1 + 31) (by omega)]
      decide
    rw [crcBitInv, if_pos h31, BitVec.xor_assoc, BitVec.xor_self, BitVec.xor_zero]
    ext i hi
    rcases Nat.eq_zero_or_pos i with rfl | hp
    · simpa [BitVec.getLsbD_eq_getElem] using h
    · simp [show ¬ i < 1 by omega, BitVec.getLsbD_eq_getElem, show 1 + (i - 1) = i by omega, hi, show i ≠ 0 by omega]
  · rw [if_neg h]
    have h31 : ¬ (c >>> 1).getLsbD 31 = true := by
      rw [BitVec.getLsbD_ushiftRight, BitVec.getLsbD_of_ge c (1 + 31) (by omega)]; simp
    rw [crcBitInv, if_neg h31]
    ext i hi
    rcases Nat.eq_zero_or_pos i with rfl | hp
    · simpa [BitVec.getLsbD_eq_getElem] using h
    · simp [show ¬ i < 1 by omega, BitVec.getLsbD_eq_getElem, show 1 + (i - 1) = i by omega, hi]

theorem crcBit_injective {c d : Word32} (h : crcBit c = crcBit d) : c = d := by
  rw [← crcBitInv_crcBit c, ← crcBitInv_crcBit d, h]

theorem crcBits_injective (n : Nat) {c d : Word32} (h : crcBits n c = crcBits n d) : c = d := by
  induction n generalizing c d with
  | zero => exact h
  | succ n ih => exact crcBit_injective (ih h)

/-- Taking a byte loses nothing of the register. -/
theorem crcByte_injective_left {c d : Word32} {b : Byte} (h : crcByte c b = crcByte d b) : c = d :=
  xor_cancel_right (crcBits_injective 8 h)

/-- Two different bytes leave different registers. -/
theorem crcByte_injective_right {c : Word32} {b b' : Byte} (h : crcByte c b = crcByte c b') : b = b' := by
  have h' := crcBits_injective 8 h
  rw [BitVec.xor_comm c, BitVec.xor_comm c] at h'
  replace h' := xor_cancel_right h'
  have := congrArg (BitVec.setWidth 8) h'
  simpa using this

theorem crcFrom_injective (bs : List Byte) {c d : Word32} (h : crcFrom c bs = crcFrom d bs) : c = d := by
  induction bs generalizing c d with
  | nil => exact h
  | cons b bs ih => exact crcByte_injective_left (ih h)

theorem crcFrom_append (c : Word32) (as bs : List Byte) : crcFrom c (as ++ bs) = crcFrom (crcFrom c as) bs := by
  simp [crcFrom]

/-- Two sequences that differ in one byte have different CRCs (44 R225). -/
theorem crc32_one_byte {as bs : List Byte} {b b' : Byte} (h : b ≠ b') :
    crc32 (as ++ b :: bs) ≠ crc32 (as ++ b' :: bs) := by
  intro hc
  have h1 := xor_cancel_right hc
  rw [crcFrom_append, crcFrom_append] at h1
  exact h (crcByte_injective_right (crcFrom_injective bs h1))

end Sys2Proof.Machine
end

