-- ==== Sys2Proof/Laws/Memory.lean ====
section
/-! SUPPORT. The laws of a byte-addressed space: what a read gives after a write, and that every operation keeps the
canonical form and the space's bound. -/

namespace Sys2Proof.Machine

@[simp] theorem Memory.read_nil (a : Nat) : Memory.read [] a = fillByte := rfl

theorem Memory.read_insert (a : Nat) (v : Byte) (m : Memory) (h : ∀ c ∈ m, c.1 ≠ a) (x : Nat) :
    (Memory.insert a v m).read x = if x = a then v else m.read x := by
  induction m with
  | nil => simp [Memory.insert, Memory.read]
  | cons c m ih =>
    obtain ⟨b, w⟩ := c
    have hb : b ≠ a := h _ (List.mem_cons_self ..)
    have hm := ih fun c hc => h c (List.mem_cons_of_mem _ hc)
    simp only [Memory.insert]
    split
    · simp only [Memory.read]
    · simp only [Memory.read, hm]
      by_cases hx : x = b
      · subst hx; simp [hb]
      · simp [hx]

theorem Memory.read_filter (a : Nat) (m : Memory) (x : Nat) :
    Memory.read (m.filter fun c => c.1 ≠ a) x = if x = a then fillByte else m.read x := by
  induction m with
  | nil => simp [Memory.read]
  | cons c m ih =>
    obtain ⟨b, w⟩ := c
    by_cases hb : b = a
    · subst hb
      simp only [ne_eq, not_true_eq_false, decide_false, Bool.false_eq_true, not_false_eq_true,
        List.filter_cons_of_neg]
      rw [show (fun c : Host.Cell => decide (¬c.1 = b)) = fun c => decide (c.1 ≠ b) from rfl, ih]
      by_cases hx : x = b <;> simp [Memory.read, hx]
    · simp only [ne_eq, hb, not_false_eq_true, decide_true, List.filter_cons_of_pos, Memory.read]
      rw [show (fun c : Host.Cell => decide (¬c.1 = a)) = fun c => decide (c.1 ≠ a) from rfl, ih]
      by_cases hx : x = b
      · subst hx; simp [hb]
      · simp [hx]

/-- A read after a write: the byte written at its address, what was there before at every other. -/
@[simp] theorem Memory.read_write (m : Memory) (a : Nat) (v : Byte) (x : Nat) :
    (m.write a v).read x = if x = a then v else m.read x := by
  unfold Memory.write
  simp only
  split
  · next h => rw [Memory.read_filter, h]
  · rw [Memory.read_insert a v _ (by simp), Memory.read_filter]
    by_cases hx : x = a <;> simp [hx]

theorem Memory.read_write_self (m : Memory) (a : Nat) (v : Byte) : (m.write a v).read a = v := by simp

theorem Memory.read_write_other (m : Memory) {a x : Nat} (v : Byte) (h : x ≠ a) :
    (m.write a v).read x = m.read x := by simp [h]

theorem Memory.insert_mem (a : Nat) (v : Byte) (m : Memory) (c : Host.Cell) :
    c ∈ Memory.insert a v m ↔ c = (a, v) ∨ c ∈ m := by
  induction m with
  | nil => simp [Memory.insert]
  | cons d m ih =>
    obtain ⟨b, w⟩ := d
    simp only [Memory.insert]
    split
    · simp
    · simp only [List.mem_cons, ih]; tauto

theorem Memory.insert_sorted (a : Nat) (v : Byte) (m : Memory) (hs : m.Pairwise fun c d => c.1 < d.1)
    (h : ∀ c ∈ m, c.1 ≠ a) : (Memory.insert a v m).Pairwise fun c d => c.1 < d.1 := by
  induction m with
  | nil => simp [Memory.insert]
  | cons d m ih =>
    obtain ⟨b, w⟩ := d
    have hs' := List.pairwise_cons.mp hs
    simp only [Memory.insert]
    split
    · next hab =>
      refine List.pairwise_cons.mpr ⟨fun c hc => ?_, hs⟩
      rcases List.mem_cons.mp hc with rfl | hc
      · exact hab
      · exact lt_trans hab (hs'.1 c hc)
    · next hab =>
      have hne : b ≠ a := h (b, w) (List.mem_cons_self ..)
      refine List.pairwise_cons.mpr ⟨fun c hc => ?_, ih hs'.2 fun c hc => h c (List.mem_cons_of_mem _ hc)⟩
      rcases (Memory.insert_mem a v m c).mp hc with rfl | hc
      · show b < a; omega
      · exact hs'.1 c hc

/-- A write keeps the canonical form. -/
theorem Memory.write_wf {m : Memory} (h : m.wf) (a : Nat) (v : Byte) : (m.write a v).wf := by
  have hf : Memory.wf (m.filter fun c => c.1 ≠ a) :=
    ⟨h.1.filter _, fun c hc => h.2 c (List.mem_filter.mp hc).1⟩
  unfold Memory.write
  simp only
  split
  · exact hf
  · next hv =>
    refine ⟨Memory.insert_sorted a v _ hf.1 (by simp), fun c hc => ?_⟩
    rcases (Memory.insert_mem a v _ c).mp hc with rfl | hc
    · exact hv
    · exact hf.2 c hc

/-- A write inside a space keeps it inside. -/
theorem Memory.write_below {m : Memory} {n : Nat} (h : m.below n) {a : Nat} (ha : a < n) (v : Byte) :
    (m.write a v).below n := by
  unfold Memory.write
  simp only
  split
  · exact fun c hc => h c (List.mem_filter.mp hc).1
  · intro c hc
    rcases (Memory.insert_mem a v _ c).mp hc with rfl | hc
    · exact ha
    · exact h c (List.mem_filter.mp hc).1

/-- A read past a space's bound gives the fill byte. -/
theorem Memory.read_of_le {m : Memory} {n : Nat} (h : m.below n) {a : Nat} (ha : n ≤ a) : m.read a = fillByte := by
  induction m with
  | nil => rfl
  | cons c m ih =>
    obtain ⟨b, w⟩ := c
    have hb : b < n := h (b, w) (List.mem_cons_self ..)
    have : a ≠ b := by omega
    simp only [Memory.read, this, if_false]
    exact ih fun c hc => h c (List.mem_cons_of_mem _ hc)

theorem Memory.read_of_lt_head {m : Memory} {a : Nat} (h : ∀ c ∈ m, a < c.1) : m.read a = fillByte := by
  induction m with
  | nil => rfl
  | cons c m ih =>
    obtain ⟨b, w⟩ := c
    have hb : a < b := h (b, w) (List.mem_cons_self ..)
    have : a ≠ b := by omega
    simp only [Memory.read, this, if_false]
    exact ih fun c hc => h c (List.mem_cons_of_mem _ hc)

/-- Two canonical spaces that read alike are the same list. -/
theorem Memory.ext_of_read : ∀ {m n : Memory}, m.wf → n.wf → (∀ a, m.read a = n.read a) → m = n := by
  intro m
  induction m with
  | nil =>
    intro n _ hn h
    cases n with
    | nil => rfl
    | cons c n =>
      obtain ⟨b, w⟩ := c
      have := h b
      simp only [Memory.read, if_true] at this
      exact absurd this.symm (hn.2 (b, w) (List.mem_cons_self ..))
  | cons c m ih =>
    intro n hm hn h
    obtain ⟨b, w⟩ := c
    have hmp := List.pairwise_cons.mp hm.1
    have hw : w ≠ fillByte := hm.2 (b, w) (List.mem_cons_self ..)
    cases n with
    | nil =>
      have := h b
      simp only [Memory.read, if_true] at this
      exact absurd this hw
    | cons d n =>
      obtain ⟨b', w'⟩ := d
      have hnp := List.pairwise_cons.mp hn.1
      have hw' : w' ≠ fillByte := hn.2 (b', w') (List.mem_cons_self ..)
      have hbb : b = b' := by
        rcases Nat.lt_trichotomy b b' with hlt | heq | hgt
        · have hr := h b
          rw [Memory.read_of_lt_head (m := (b', w') :: n)] at hr
          · simp only [Memory.read, if_true] at hr; exact absurd hr hw
          · intro c hc
            rcases List.mem_cons.mp hc with rfl | hc
            · exact hlt
            · exact lt_trans hlt (hnp.1 c hc)
        · exact heq
        · have hr := h b'
          rw [Memory.read_of_lt_head (m := (b, w) :: m)] at hr
          · simp only [Memory.read, if_true] at hr; exact absurd hr.symm hw'
          · intro c hc
            rcases List.mem_cons.mp hc with rfl | hc
            · exact hgt
            · exact lt_trans hgt (hmp.1 c hc)
      subst hbb
      have hww : w = w' := by have := h b; simpa [Memory.read] using this
      subst hww
      congr 1
      refine ih ⟨hmp.2, fun c hc => hm.2 c (List.mem_cons_of_mem _ hc)⟩
        ⟨hnp.2, fun c hc => hn.2 c (List.mem_cons_of_mem _ hc)⟩ fun a => ?_
      by_cases hab : a = b
      · subst hab
        rw [Memory.read_of_lt_head hmp.1, Memory.read_of_lt_head hnp.1]
      · simpa [Memory.read, hab] using h a

/-! Several bytes -/

@[simp] theorem Memory.readN_length (m : Memory) (a n : Nat) : (m.readN a n).length = n := by
  induction n generalizing a with
  | zero => rfl
  | succ n ih => simp [Memory.readN, ih]

theorem Memory.readN_getElem? (m : Memory) (a n k : Nat) (h : k < n) : (m.readN a n)[k]? = some (m.read (a + k)) := by
  induction n generalizing a k with
  | zero => omega
  | succ n ih =>
    cases k with
    | zero => simp [Memory.readN]
    | succ k => simp [Memory.readN, ih (a + 1) k (by omega), Nat.add_comm, Nat.add_left_comm]

theorem Memory.readN_add (m : Memory) (a j k : Nat) : m.readN a (j + k) = m.readN a j ++ m.readN (a + j) k := by
  induction j generalizing a with
  | zero => simp [Memory.readN]
  | succ j ih =>
    rw [Nat.succ_add]
    simp only [Memory.readN, ih, List.cons_append]
    rw [show a + (j + 1) = a + 1 + j by omega]

/-- `readN` sees only the bytes of its range. -/
theorem Memory.readN_congr {m m' : Memory} {a n : Nat} (h : ∀ x, a ≤ x → x < a + n → m.read x = m'.read x) :
    m.readN a n = m'.readN a n := by
  induction n generalizing a with
  | zero => rfl
  | succ n ih =>
    simp only [Memory.readN]
    rw [h a (le_refl _) (by omega), ih fun x h1 h2 => h x (by omega) (by omega)]

/-- A read after a sequence is stored: its byte inside the range, what was there before outside. -/
theorem Memory.read_writeN (m : Memory) (a : Nat) (bs : List Byte) (x : Nat) :
    (m.writeN a bs).read x = if a ≤ x then (bs[x - a]?).getD (m.read x) else m.read x := by
  induction bs generalizing m a with
  | nil => simp [Memory.writeN]
  | cons b bs ih =>
    simp only [Memory.writeN, ih, Memory.read_write]
    by_cases hx : x = a
    · subst hx; simp
    · by_cases hl : a ≤ x
      · obtain ⟨d, rfl⟩ : ∃ d, x = a + 1 + d := ⟨x - a - 1, by omega⟩
        simp [show a ≤ a + 1 + d by omega, show a + 1 + d - a = d + 1 by omega, show a + 1 + d ≠ a by omega]
      · simp [hl, hx, show ¬ a + 1 ≤ x by omega]

theorem Memory.read_writeN_outside (m : Memory) {a : Nat} {bs : List Byte} {x : Nat}
    (h : x < a ∨ a + bs.length ≤ x) : (m.writeN a bs).read x = m.read x := by
  rw [Memory.read_writeN]
  split
  · rw [List.getElem?_eq_none (by omega)]; rfl
  · rfl

theorem Memory.read_writeN_inside (m : Memory) {a : Nat} {bs : List Byte} {k : Nat} (h : k < bs.length) :
    (m.writeN a bs).read (a + k) = bs[k] := by
  rw [Memory.read_writeN]; simp [h]

/-- What was stored is read back. -/
theorem Memory.readN_writeN (m : Memory) (a : Nat) (bs : List Byte) : (m.writeN a bs).readN a bs.length = bs := by
  apply List.ext_getElem?
  intro k
  by_cases hk : k < bs.length
  · rw [Memory.readN_getElem? _ _ _ _ hk, Memory.read_writeN_inside m hk, List.getElem?_eq_getElem hk]
  · rw [List.getElem?_eq_none (by simpa using hk), List.getElem?_eq_none (by omega)]

/-- Storing elsewhere is not seen. -/
theorem Memory.readN_writeN_disjoint (m : Memory) {a b n : Nat} {bs : List Byte}
    (h : b + n ≤ a ∨ a + bs.length ≤ b) : (m.writeN a bs).readN b n = m.readN b n :=
  Memory.readN_congr fun _ h1 h2 => Memory.read_writeN_outside m (by omega)

theorem Memory.writeN_append (m : Memory) (a : Nat) (bs cs : List Byte) :
    m.writeN a (bs ++ cs) = (m.writeN a bs).writeN (a + bs.length) cs := by
  induction bs generalizing m a with
  | nil => rfl
  | cons b bs ih =>
    simp only [Memory.writeN, ih, List.cons_append, List.length_cons]
    rw [show a + (bs.length + 1) = a + 1 + bs.length by omega]

theorem Memory.writeN_wf {m : Memory} (h : m.wf) (a : Nat) (bs : List Byte) : (m.writeN a bs).wf := by
  induction bs generalizing m a with
  | nil => exact h
  | cons b bs ih => exact ih (Memory.write_wf h a b) (a + 1)

theorem Memory.writeN_below {m : Memory} {n : Nat} (h : m.below n) {a : Nat} {bs : List Byte}
    (ha : a + bs.length ≤ n) : (m.writeN a bs).below n := by
  induction bs generalizing m a with
  | nil => exact h
  | cons b bs ih =>
    simp only [List.length_cons] at ha
    exact ih (Memory.write_below h (by omega) b) (by omega)

theorem Memory.nil_wf : Memory.wf [] := ⟨List.Pairwise.nil, fun _ hc => nomatch hc⟩

theorem Memory.ofBytes_wf (bs : List Byte) : (Memory.ofBytes bs).wf := Memory.writeN_wf Memory.nil_wf 0 bs

theorem Memory.ofBytes_below (bs : List Byte) : (Memory.ofBytes bs).below bs.length :=
  Memory.writeN_below (fun c hc => absurd hc (by simp)) (by omega)

theorem Memory.read_ofBytes (bs : List Byte) (x : Nat) : (Memory.ofBytes bs).read x = (bs[x]?).getD fillByte := by
  simp [Memory.ofBytes, Memory.read_writeN]

end Sys2Proof.Machine
end

