-- ==== Sys2Proof/Laws/Outcome.lean ====
section
/-! SUPPORT. The shared endings of a step: what `admitted`, `finish`, `takeFault`, the typed and the bit call can answer,
and what a step does with each input. -/

namespace Sys2Proof.Machine

@[simp] theorem finish_eq (s : State) (ans : Answer) : finish s ans = .next { s with answer := ans } := rfl

@[simp] theorem takeFault_eq (c : Fault) (x : Cause) (s : State) :
    takeFault c x s = .next { s with fault := some c, answer := { raised := some x } } := rfl

/-- A block that may take a step takes it. -/
theorem admitted_ready {s : State} (h : s.Ready) (k : StepOutcome) : admitted s k = k := by
  simp [admitted, h.1, h.2]

/-- A stopped block answers its marker's fault (10 R30). -/
theorem admitted_stopped {s : State} (hw : s.params.wf = true) {c : Fault} (hf : s.fault = some c) (k : StepOutcome) :
    admitted s k = .fault c := by
  simp [admitted, hw, hf]

/-- A parameter set that is not well-formed is refused (00 R8). -/
theorem admitted_badParameters {s : State} (hw : s.params.wf = false) (k : StepOutcome) :
    admitted s k = .refused .badParameters := by
  simp [admitted, hw]

/-- A next state comes only from a block that may take a step. -/
theorem admitted_next {s t : State} {k : StepOutcome} (h : admitted s k = .next t) : s.Ready ∧ k = .next t := by
  unfold admitted at h
  split at h
  · next hw =>
    split at h
    · next hf => exact ⟨⟨hw, hf⟩, h⟩
    · cases h
  · cases h

theorem finish_next {s t : State} {ans : Answer} (h : finish s ans = .next t) : t = { s with answer := ans } := by
  simpa using h.symm

theorem typedCall_ok {T : ScalarType} {r : Nat} {s : State} (hr : r < s.params.regCount)
    (hw : T.width = s.params.width r) (k : StepOutcome) : typedCall T r s k = k := by
  simp [typedCall, hr, hw]

theorem typedCall_next {T : ScalarType} {r : Nat} {s t : State} {k : StepOutcome} (h : typedCall T r s k = .next t) :
    (r < s.params.regCount ∧ T.width = s.params.width r) ∧ k = .next t := by
  unfold typedCall at h
  split at h
  · next hr =>
    split at h
    · next hw => exact ⟨⟨hr, hw⟩, h⟩
    · cases h
  · cases h

theorem bitCall_ok {r i : Nat} {s : State} (hr : r < s.params.regCount) (hw : s.params.width r = 1) (hi : i ≤ 7)
    (k : StepOutcome) : bitCall r i s k = k := by
  simp [bitCall, hr, hw, hi]

theorem bitCall_next {r i : Nat} {s t : State} {k : StepOutcome} (h : bitCall r i s k = .next t) :
    (r < s.params.regCount ∧ s.params.width r = 1 ∧ i ≤ 7) ∧ k = .next t := by
  unfold bitCall at h
  split at h
  · next hr =>
    split at h
    · next hw =>
      split at h
      · next hi => exact ⟨⟨hr, hw, hi⟩, h⟩
      · cases h
    · cases h
  · cases h

/-- Everything a step can do that answers a next state: wait, take a sub-step, reset, or run the decoded instruction. -/
theorem step_next {s t : State} (h : step s = .next t) :
    (∃ u, fetch s = (.idle, u) ∧ u.Ready ∧ t = u) ∨ (∃ u, fetch s = (.micro, u) ∧ runMicro u = .next t)
      ∨ (∃ u, fetch s = (.reset, u) ∧ powerOnReset u = .next t)
      ∨ ∃ i u, fetch s = (.run i, u) ∧ exec i u = .next t := by
  unfold step at h
  split at h
  · next u hu =>
    obtain ⟨hr, hk⟩ := admitted_next h
    exact .inl ⟨u, hu, hr, by simpa using hk.symm⟩
  · next u hu => exact .inr (.inl ⟨u, hu, h⟩)
  · next u hu => exact .inr (.inr (.inl ⟨u, hu, h⟩))
  · next i u hu => exact .inr (.inr (.inr ⟨i, u, hu, h⟩))
  · exact absurd (admitted_next h).2 (by simp)

/-- Taking an input changes the inbox and nothing else. -/
theorem fetch_snd (s : State) : (fetch s).2 = s ∨ ∃ x rest, s.inbox = x :: rest ∧ (fetch s).2 = { s with inbox := rest } := by
  unfold fetch
  split
  · exact .inl rfl
  · next rest h => exact .inr ⟨_, rest, h, rfl⟩
  · next rest h =>
    split
    · exact .inr ⟨_, rest, h, rfl⟩
    · exact .inl rfl
  · next w rest h => exact .inr ⟨_, rest, h, rfl⟩
  · next n args rest h =>
    split
    · exact .inr ⟨_, rest, h, rfl⟩
    · exact .inl rfl

/-- The next sub-step, when one is left and the block may take it. -/
theorem runMicro_cons {s : State} (h : s.Ready) {m : Micro} {rest : List Micro} (hj : s.job = m :: rest) :
    runMicro s = .next { microEffect m { s with job := rest } with answer := {} } := by
  simp [runMicro, admitted_ready h, hj]

end Sys2Proof.Machine
end

