-- ==== Sys2Proof/Laws/PerInstr.lean ====
section
/-! SUPPORT. Statements made per instruction: every instruction's encoding is on the port and at the match value the
opcode table gives its row (30 R93, R96). -/

namespace Sys2Proof.Laws.OpcodeMatch

/-- The row of `opcode_table.json`: an EV row's match under the mask 0x300, or an OP row's match. -/
def row : Instr → Sum (BitVec 10) Byte
  | .endTx => .inl 0x000
  | .addr _ => .inl 0x100
  | .wr _ => .inl 0x200
  | .rd _ => .inl 0x300
  | .encode _ _ => .inr 0x00
  | .decode _ _ => .inr 0x01
  | .lookup _ => .inr 0x10
  | .totalSize => .inr 0x11
  | .classAt _ => .inr 0x12
  | .readByte _ => .inr 0x20
  | .writeByte _ _ => .inr 0x21
  | .readTyped _ _ => .inr 0x22
  | .writeTyped _ _ _ => .inr 0x23
  | .getBit _ _ => .inr 0x24
  | .setBit _ _ _ => .inr 0x25
  | .resetCursor => .inr 0x26
  | .advanceCursor => .inr 0x27
  | .cursor => .inr 0x28
  | .crc32 _ => .inr 0x30
  | .save => .inr 0x31
  | .restore => .inr 0x32
  | .resetConfig => .inr 0x33
  | .serviceTriggers => .inr 0x40
  | .sensorUpdate _ => .inr 0x41

/-- The encoded word carries its row's match value on its row's port. -/
def Statement (i : Instr) : Prop :=
  match encodeInstr i with
  | .ev w => row i = .inl (w &&& 0x300)
  | .op num _ => row i = .inr num

/-- An event word's kind survives the data beside it (30 R91). -/
theorem evWord_kind : ∀ (kind : BitVec 2) (data : Byte),
    evWord kind data &&& (0x300 : BitVec 10) = kind.setWidth 10 <<< (8 : Nat) := by
  decide +kernel

theorem endTx : Statement .endTx := by
  exact congrArg Sum.inl (evWord_kind 0 0).symm
theorem addr (a : Byte) : Statement (.addr a) := by
  exact congrArg Sum.inl (evWord_kind 1 a).symm
theorem wr (b : Byte) : Statement (.wr b) := by
  exact congrArg Sum.inl (evWord_kind 2 b).symm
theorem rd (n : Byte) : Statement (.rd n) := by
  exact congrArg Sum.inl (evWord_kind 3 n).symm
theorem encode (T : ScalarType) (v : ScalarVal) : Statement (.encode T v) := rfl
theorem decode (T : ScalarType) (bs : List Byte) : Statement (.decode T bs) := rfl
theorem lookup (r : Nat) : Statement (.lookup r) := rfl
theorem totalSize : Statement .totalSize := rfl
theorem classAt (a : Address) : Statement (.classAt a) := rfl
theorem readByte (a : Address) : Statement (.readByte a) := rfl
theorem writeByte (a : Address) (b : Byte) : Statement (.writeByte a b) := rfl
theorem readTyped (T : ScalarType) (r : Nat) : Statement (.readTyped T r) := rfl
theorem writeTyped (T : ScalarType) (r : Nat) (v : ScalarVal) : Statement (.writeTyped T r v) := rfl
theorem getBit (r i : Nat) : Statement (.getBit r i) := rfl
theorem setBit (r i : Nat) (x : Bool) : Statement (.setBit r i x) := rfl
theorem resetCursor : Statement .resetCursor := rfl
theorem advanceCursor : Statement .advanceCursor := rfl
theorem cursor : Statement .cursor := rfl
theorem crc32 (bs : List Byte) : Statement (.crc32 bs) := rfl
theorem save : Statement .save := rfl
theorem restore : Statement .restore := rfl
theorem resetConfig : Statement .resetConfig := rfl
theorem serviceTriggers : Statement .serviceTriggers := rfl
theorem sensorUpdate (res : SensorResult) : Statement (.sensorUpdate res) := rfl

end Sys2Proof.Laws.OpcodeMatch
end

