-- ==== Sys2Proof/Laws/RegisterMap.lean ====
section
/-! SUPPORT. RegisterMap's laws: the spans are consecutive, cover the file and do not meet (41 R140, R145), and what a
well-formed parameter set gives. -/

namespace Sys2Proof

theorem Params.off_zero (p : Params) : p.off 0 = 0 := by simp [Params.off]

/-- Each offset is the one before it plus that register's width (41 R140). -/
theorem Params.off_succ (p : Params) {r : Nat} (h : r < p.regCount) : p.off (r + 1) = p.off r + p.width r := by
  have h' : r < p.regmap.length := h
  unfold Params.off Params.width
  rw [List.take_add_one, List.getElem?_eq_getElem h']
  simp only [Option.toList_some, List.map_append, List.map_cons, List.map_nil, List.sum_append, List.sum_cons,
    List.sum_nil, Nat.add_zero, Option.map_some, Option.getD_some]

theorem Params.total_eq_off (p : Params) : p.total = p.off p.regCount := by
  simp [Params.total, Params.off, Params.regCount]

theorem Params.off_mono (p : Params) {r q : Nat} (h : r ≤ q) (hq : q ≤ p.regCount) : p.off r ≤ p.off q := by
  induction q, h using Nat.le_induction with
  | base => exact le_refl _
  | succ q hrq ih =>
    have := p.off_succ (r := q) (by omega)
    have := ih (by omega)
    omega

/-- A register's span ends within the file. -/
theorem Params.off_add_width_le_total (p : Params) {r : Nat} (h : r < p.regCount) : p.off r + p.width r ≤ p.total := by
  have h1 := p.off_succ h
  have h2 := p.off_mono (r := r + 1) (q := p.regCount) (by omega) (le_refl _)
  rw [p.total_eq_off]; omega

theorem Params.width_of_ge (p : Params) {r : Nat} (h : p.regCount ≤ r) : p.width r = 0 := by
  have h' : p.regmap.length ≤ r := h
  simp [Params.width, h']

/-- A register that has a byte is declared. -/
theorem Params.lt_regCount_of_width_pos (p : Params) {r : Nat} (h : 0 < p.width r) : r < p.regCount := by
  by_contra hc
  rw [p.width_of_ge (by omega)] at h
  omega

/-- Two registers' spans do not meet. -/
theorem Params.spans_disjoint (p : Params) {r q : Nat} (hr : r < p.regCount) (hq : q < p.regCount) (hne : r ≠ q) :
    p.off r + p.width r ≤ p.off q ∨ p.off q + p.width q ≤ p.off r := by
  have h1 := p.off_succ hr
  have h2 := p.off_succ hq
  rcases Nat.lt_or_gt_of_ne hne with h | h
  · left
    have := p.off_mono (r := r + 1) (q := q) (by omega) (by omega)
    omega
  · right
    have := p.off_mono (r := q + 1) (q := r) (by omega) (by omega)
    omega

theorem spanOf_eq_some {ds : List RegDecl} {a r : Nat} :
    spanOf ds a = some r ↔
      r < ds.length ∧ ((ds.take r).map RegDecl.width).sum ≤ a
        ∧ a < ((ds.take r).map RegDecl.width).sum + (ds[r]?.map RegDecl.width).getD 0 := by
  induction ds generalizing a r with
  | nil => simp [spanOf]
  | cons d ds ih =>
    simp only [spanOf]
    split
    · next h =>
      constructor
      · rintro ⟨⟩; simp [h]
      · rintro ⟨h1, h2, h3⟩
        cases r with
        | zero => rfl
        | succ r => simp at h2; omega
    · next h =>
      cases r with
      | zero => simp; omega
      | succ r =>
        simp only [Option.map_eq_some_iff, Nat.add_right_cancel_iff, exists_eq_right, ih, List.length_cons,
          List.take_succ_cons, List.map_cons, List.sum_cons, List.getElem?_cons_succ]
        omega

/-- `reg_at(a)` is the declared register whose span contains `a` (41 R144). -/
theorem Params.regAt_eq_some {p : Params} {a r : Nat} :
    p.regAt a = some r ↔ r < p.regCount ∧ p.off r ≤ a ∧ a < p.off r + p.width r := spanOf_eq_some

/-- Every address of the file is in some register's span. -/
theorem Params.exists_regAt (p : Params) {a : Nat} (h : a < p.total) : ∃ r, p.regAt a = some r := by
  have key : ∀ n, n ≤ p.regCount → a < p.off n → ∃ r, p.regAt a = some r := by
    intro n
    induction n with
    | zero => intro _ h; rw [p.off_zero] at h; omega
    | succ n ih =>
      intro hn ha
      rcases Nat.lt_or_ge a (p.off n) with hlt | hge
      · exact ih (by omega) hlt
      · exact ⟨n, Params.regAt_eq_some.mpr ⟨by omega, hge, by rw [← p.off_succ (by omega)]; exact ha⟩⟩
  exact key _ (le_refl _) (by rw [← p.total_eq_off]; exact h)

theorem Params.regAt_of_total_le (p : Params) {a : Nat} (h : p.total ≤ a) : p.regAt a = none := by
  cases hr : p.regAt a with
  | none => rfl
  | some r =>
    obtain ⟨h1, h2, h3⟩ := Params.regAt_eq_some.mp hr
    have := p.off_add_width_le_total h1
    omega

/-- The class of an address from its register (41 R143). -/
theorem Params.classAt_of_regAt {p : Params} {a r : Nat} (h : p.regAt a = some r) :
    p.classAt a = some
      (if a = p.off r then if p.writable r then .writableAligned else .readOnlyAligned
       else if p.writable r then .writableContinuation else .readOnlyContinuation) := by
  simp [Params.classAt, h]

theorem Params.classAt_eq_none_iff {p : Params} {a : Nat} : p.classAt a = none ↔ p.total ≤ a := by
  constructor
  · intro h
    by_contra hc
    obtain ⟨r, hr⟩ := p.exists_regAt (a := a) (by omega)
    simp [Params.classAt, hr] at h
  · intro h; simp [Params.classAt, p.regAt_of_total_le h]

theorem Params.aligned_of_regAt {p : Params} {a r : Nat} (h : p.regAt a = some r) :
    p.aligned a = decide (a = p.off r) := by
  rw [Params.aligned, Params.classAt_of_regAt h]
  by_cases ha : a = p.off r <;> cases p.writable r <;> simp [ha, PClass.aligned]

theorem Params.writableAt_of_regAt {p : Params} {a r : Nat} (h : p.regAt a = some r) :
    p.writableAt a = p.writable r := by
  rw [Params.writableAt, Params.classAt_of_regAt h]
  by_cases ha : a = p.off r <;> cases p.writable r <;> simp [ha, PClass.writable]

/-! Named registers -/

theorem Params.lt_regCount_of_idOf (p : Params) {n : RegName} (h : 0 < p.widthOf n) : p.idOf n < p.regCount :=
  p.lt_regCount_of_width_pos h

theorem Params.idOf_inj (p : Params) {n m : RegName} (hn : p.idOf n < p.regCount) (h : p.idOf n = p.idOf m) : n = m := by
  have hn' : p.regmap.findIdx (fun d => decide (d.name = n)) < p.regmap.length := hn
  have hm' : p.regmap.findIdx (fun d => decide (d.name = m)) < p.regmap.length := by
    have : p.idOf m < p.regCount := h ▸ hn
    exact this
  have h1 := List.findIdx_getElem (w := hn')
  have h2 := List.findIdx_getElem (w := hm')
  have h' : p.regmap.findIdx (fun d => decide (d.name = n)) = p.regmap.findIdx (fun d => decide (d.name = m)) := h
  simp only [h', decide_eq_true_eq] at h1 h2
  exact h1.symm.trans h2

/-! What well-formedness gives (00 R8) -/

structure Params.Wf (p : Params) : Prop where
  widths : ∀ d ∈ p.regmap, d.width = 1 ∨ d.width = 4
  one_le_total : 1 ≤ p.total
  total_le : p.total ≤ 255
  regReset_length : p.regReset.length = p.total
  statusBits_nodup : p.statusBits.toList.Nodup
  statusBits_le : ∀ i ∈ p.statusBits.toList, i ≤ 7
  configBits_nodup : p.configBits.toList.Nodup
  configBits_le : ∀ i ∈ p.configBits.toList, i ≤ 7
  status_width : p.widthOf .status = 1
  config_width : p.widthOf .config = 1
  persist_declared : ∀ n ∈ p.persist, p.idOf n < p.regCount
  signature_ne : p.signature ≠ 0x00
  nv_disjoint : p.nvRanges.Pairwise fun x y => disjoint x y = true
  nvCrc_eq : p.nvCrc = p.nvData + p.plen
  nvSig_lt : p.nvSig < p.nvData
  nvUsed_le : p.nvUsed ≤ p.nvSize
  sigAddr_ne : p.sigAddr ≠ 0x00
  sigModel_ne : p.sigModel ≠ 0x00
  temperature_width : p.widthOf .temperature = 4
  humidity_width : p.widthOf .humidity = 4
  deviceAddress_width : p.widthOf .deviceAddress = 1
  model_width : p.widthOf .model = 1

theorem Params.wf_spec {p : Params} (h : p.wf = true) : p.Wf := by
  simp only [Params.wf, Params.wfListed, Params.wfImplied, bitPositionsOk, Bool.and_eq_true, List.all_eq_true,
    Bool.or_eq_true, decide_eq_true_eq, bne_iff_ne] at h
  obtain ⟨⟨⟨⟨⟨⟨⟨⟨⟨⟨⟨⟨⟨⟨a, b⟩, c⟩, d⟩, e1, e2⟩, f1, f2⟩, g⟩, i⟩, j⟩, k⟩, l⟩, m⟩, n⟩, o⟩, ⟨⟨⟨⟨⟨⟨_, q⟩, r⟩, t⟩, u⟩, v⟩, w⟩⟩ := h
  exact ⟨a, b, c, d, e1, e2, f1, f2, g, i, j, k, l, m, n, o, q, r, t, u, v, w⟩

theorem Params.width_pos {p : Params} (h : p.wf = true) {r : Nat} (hr : r < p.regCount) : 0 < p.width r := by
  have hr' : r < p.regmap.length := hr
  have := (Params.wf_spec h).widths p.regmap[r] (List.getElem_mem hr')
  simp only [Params.width, List.getElem?_eq_getElem hr', Option.map_some, Option.getD_some]
  omega

/-- An address is aligned exactly when it is some register's offset (20 R64). -/
theorem Params.aligned_iff {p : Params} (h : p.wf = true) {a : Nat} :
    p.aligned a = true ↔ ∃ r, r < p.regCount ∧ a = p.off r := by
  constructor
  · intro ha
    cases hr : p.regAt a with
    | none => simp [Params.aligned, Params.classAt, hr] at ha
    | some r =>
      rw [Params.aligned_of_regAt hr] at ha
      exact ⟨r, (Params.regAt_eq_some.mp hr).1, by simpa using ha⟩
  · rintro ⟨r, hr, rfl⟩
    have := p.width_pos h hr
    rw [Params.aligned_of_regAt (Params.regAt_eq_some.mpr ⟨hr, le_refl _, by omega⟩)]
    simp

theorem Params.idx_zero (p : Params) : p.idx 0 = 0 := by simp [Params.idx]

theorem Params.idx_succ (p : Params) {k : Nat} {n : RegName} (h : p.persist[k]? = some n) :
    p.idx (k + 1) = p.idx k + p.widthOf n := by
  simp [Params.idx, List.take_add_one, h]

theorem Params.idx_length (p : Params) : p.idx p.persist.length = p.plen := by simp [Params.idx, Params.plen]

theorem Params.idx_add_le_plen (p : Params) {k : Nat} {n : RegName} (h : p.persist[k]? = some n) :
    p.idx k + p.widthOf n ≤ p.plen := by
  rw [← p.idx_succ h]
  have hk : k < p.persist.length := by
    by_contra hc
    rw [List.getElem?_eq_none (by omega)] at h
    cases h
  unfold Params.idx Params.plen
  conv_rhs => rw [← List.take_append_drop (k + 1) p.persist, List.map_append, List.sum_append]
  omega

end Sys2Proof
end

