-- ==== Sys2Proof/Laws/State.lean ====
section
/-! SUPPORT. One lemma per field of State for each update of it that the operations are written with: what the update
does to that field. Later proofs rewrite with these and unfold no record update. -/

namespace Sys2Proof.Machine

/-! `State.advance` -/

@[simp] theorem State.advance_params (s : State) (k : Nat) : (s.advance k).params = s.params := rfl
@[simp] theorem State.advance_reg (s : State) (k : Nat) : (s.advance k).reg = s.reg := rfl
@[simp] theorem State.advance_cursor (s : State) (k : Nat) :
    (s.advance k).cursor = BitVec.ofNat 16 ((s.cursor.toNat + k) % s.params.total) := rfl
@[simp] theorem State.advance_busState (s : State) (k : Nat) : (s.advance k).busState = s.busState := rfl
@[simp] theorem State.advance_wrBurstOk (s : State) (k : Nat) : (s.advance k).wrBurstOk = s.wrBurstOk := rfl
@[simp] theorem State.advance_nv (s : State) (k : Nat) : (s.advance k).nv = s.nv := rfl
@[simp] theorem State.advance_fault (s : State) (k : Nat) : (s.advance k).fault = s.fault := rfl
@[simp] theorem State.advance_wear (s : State) (k : Nat) : (s.advance k).wear = s.wear := rfl
@[simp] theorem State.advance_job (s : State) (k : Nat) : (s.advance k).job = s.job := rfl
@[simp] theorem State.advance_inbox (s : State) (k : Nat) : (s.advance k).inbox = s.inbox := rfl
@[simp] theorem State.advance_answer (s : State) (k : Nat) : (s.advance k).answer = s.answer := rfl

/-! `State.putBytes` -/

@[simp] theorem State.putBytes_params (s : State) (r : Nat) (bs : List Byte) :
    (s.putBytes r bs).params = s.params := rfl
@[simp] theorem State.putBytes_reg (s : State) (r : Nat) (bs : List Byte) :
    (s.putBytes r bs).reg = s.reg.writeN (s.params.off r) bs := rfl
@[simp] theorem State.putBytes_cursor (s : State) (r : Nat) (bs : List Byte) :
    (s.putBytes r bs).cursor = s.cursor := rfl
@[simp] theorem State.putBytes_busState (s : State) (r : Nat) (bs : List Byte) :
    (s.putBytes r bs).busState = s.busState := rfl
@[simp] theorem State.putBytes_wrBurstOk (s : State) (r : Nat) (bs : List Byte) :
    (s.putBytes r bs).wrBurstOk = s.wrBurstOk := rfl
@[simp] theorem State.putBytes_nv (s : State) (r : Nat) (bs : List Byte) : (s.putBytes r bs).nv = s.nv := rfl
@[simp] theorem State.putBytes_fault (s : State) (r : Nat) (bs : List Byte) : (s.putBytes r bs).fault = s.fault := rfl
@[simp] theorem State.putBytes_wear (s : State) (r : Nat) (bs : List Byte) : (s.putBytes r bs).wear = s.wear := rfl
@[simp] theorem State.putBytes_job (s : State) (r : Nat) (bs : List Byte) : (s.putBytes r bs).job = s.job := rfl
@[simp] theorem State.putBytes_inbox (s : State) (r : Nat) (bs : List Byte) : (s.putBytes r bs).inbox = s.inbox := rfl
@[simp] theorem State.putBytes_answer (s : State) (r : Nat) (bs : List Byte) :
    (s.putBytes r bs).answer = s.answer := rfl

/-! `State.nvWrite` -/

@[simp] theorem State.nvWrite_params (s : State) (a : Nat) (b : Byte) : (s.nvWrite a b).params = s.params := rfl
@[simp] theorem State.nvWrite_reg (s : State) (a : Nat) (b : Byte) : (s.nvWrite a b).reg = s.reg := rfl
@[simp] theorem State.nvWrite_cursor (s : State) (a : Nat) (b : Byte) : (s.nvWrite a b).cursor = s.cursor := rfl
@[simp] theorem State.nvWrite_busState (s : State) (a : Nat) (b : Byte) : (s.nvWrite a b).busState = s.busState := rfl
@[simp] theorem State.nvWrite_wrBurstOk (s : State) (a : Nat) (b : Byte) :
    (s.nvWrite a b).wrBurstOk = s.wrBurstOk := rfl
@[simp] theorem State.nvWrite_nv (s : State) (a : Nat) (b : Byte) : (s.nvWrite a b).nv = s.nv.write a b := rfl
@[simp] theorem State.nvWrite_fault (s : State) (a : Nat) (b : Byte) : (s.nvWrite a b).fault = s.fault := rfl
@[simp] theorem State.nvWrite_wear (s : State) (a : Nat) (b : Byte) : (s.nvWrite a b).wear = s.wear + 1 := rfl
@[simp] theorem State.nvWrite_job (s : State) (a : Nat) (b : Byte) : (s.nvWrite a b).job = s.job := rfl
@[simp] theorem State.nvWrite_inbox (s : State) (a : Nat) (b : Byte) : (s.nvWrite a b).inbox = s.inbox := rfl
@[simp] theorem State.nvWrite_answer (s : State) (a : Nat) (b : Byte) : (s.nvWrite a b).answer = s.answer := rfl

/-! `State.putBit` -/

@[simp] theorem State.putBit_params (s : State) (r i : Nat) (x : Bool) : (s.putBit r i x).params = s.params := rfl
@[simp] theorem State.putBit_reg (s : State) (r i : Nat) (x : Bool) :
    (s.putBit r i x).reg = s.reg.write (s.params.off r) (withBit (s.reg.read (s.params.off r)) i x) := rfl
@[simp] theorem State.putBit_cursor (s : State) (r i : Nat) (x : Bool) : (s.putBit r i x).cursor = s.cursor := rfl
@[simp] theorem State.putBit_busState (s : State) (r i : Nat) (x : Bool) : (s.putBit r i x).busState = s.busState := rfl
@[simp] theorem State.putBit_wrBurstOk (s : State) (r i : Nat) (x : Bool) :
    (s.putBit r i x).wrBurstOk = s.wrBurstOk := rfl
@[simp] theorem State.putBit_nv (s : State) (r i : Nat) (x : Bool) : (s.putBit r i x).nv = s.nv := rfl
@[simp] theorem State.putBit_fault (s : State) (r i : Nat) (x : Bool) : (s.putBit r i x).fault = s.fault := rfl
@[simp] theorem State.putBit_wear (s : State) (r i : Nat) (x : Bool) : (s.putBit r i x).wear = s.wear := rfl
@[simp] theorem State.putBit_job (s : State) (r i : Nat) (x : Bool) : (s.putBit r i x).job = s.job := rfl
@[simp] theorem State.putBit_inbox (s : State) (r i : Nat) (x : Bool) : (s.putBit r i x).inbox = s.inbox := rfl
@[simp] theorem State.putBit_answer (s : State) (r i : Nat) (x : Bool) : (s.putBit r i x).answer = s.answer := rfl

/-! `State.putStatus` -/

@[simp] theorem State.putStatus_params (s : State) (i : Nat) (x : Bool) : (s.putStatus i x).params = s.params := rfl
@[simp] theorem State.putStatus_reg (s : State) (i : Nat) (x : Bool) :
    (s.putStatus i x).reg = s.reg.write (s.params.offOf .status) (withBit (s.reg.read (s.params.offOf .status)) i x) := rfl
@[simp] theorem State.putStatus_cursor (s : State) (i : Nat) (x : Bool) : (s.putStatus i x).cursor = s.cursor := rfl
@[simp] theorem State.putStatus_busState (s : State) (i : Nat) (x : Bool) :
    (s.putStatus i x).busState = s.busState := rfl
@[simp] theorem State.putStatus_wrBurstOk (s : State) (i : Nat) (x : Bool) :
    (s.putStatus i x).wrBurstOk = s.wrBurstOk := rfl
@[simp] theorem State.putStatus_nv (s : State) (i : Nat) (x : Bool) : (s.putStatus i x).nv = s.nv := rfl
@[simp] theorem State.putStatus_fault (s : State) (i : Nat) (x : Bool) : (s.putStatus i x).fault = s.fault := rfl
@[simp] theorem State.putStatus_wear (s : State) (i : Nat) (x : Bool) : (s.putStatus i x).wear = s.wear := rfl
@[simp] theorem State.putStatus_job (s : State) (i : Nat) (x : Bool) : (s.putStatus i x).job = s.job := rfl
@[simp] theorem State.putStatus_inbox (s : State) (i : Nat) (x : Bool) : (s.putStatus i x).inbox = s.inbox := rfl
@[simp] theorem State.putStatus_answer (s : State) (i : Nat) (x : Bool) : (s.putStatus i x).answer = s.answer := rfl

/-! `State.putConfig` -/

@[simp] theorem State.putConfig_params (s : State) (i : Nat) (x : Bool) : (s.putConfig i x).params = s.params := rfl
@[simp] theorem State.putConfig_reg (s : State) (i : Nat) (x : Bool) :
    (s.putConfig i x).reg = s.reg.write (s.params.offOf .config) (withBit (s.reg.read (s.params.offOf .config)) i x) := rfl
@[simp] theorem State.putConfig_cursor (s : State) (i : Nat) (x : Bool) : (s.putConfig i x).cursor = s.cursor := rfl
@[simp] theorem State.putConfig_busState (s : State) (i : Nat) (x : Bool) :
    (s.putConfig i x).busState = s.busState := rfl
@[simp] theorem State.putConfig_wrBurstOk (s : State) (i : Nat) (x : Bool) :
    (s.putConfig i x).wrBurstOk = s.wrBurstOk := rfl
@[simp] theorem State.putConfig_nv (s : State) (i : Nat) (x : Bool) : (s.putConfig i x).nv = s.nv := rfl
@[simp] theorem State.putConfig_fault (s : State) (i : Nat) (x : Bool) : (s.putConfig i x).fault = s.fault := rfl
@[simp] theorem State.putConfig_wear (s : State) (i : Nat) (x : Bool) : (s.putConfig i x).wear = s.wear := rfl
@[simp] theorem State.putConfig_job (s : State) (i : Nat) (x : Bool) : (s.putConfig i x).job = s.job := rfl
@[simp] theorem State.putConfig_inbox (s : State) (i : Nat) (x : Bool) : (s.putConfig i x).inbox = s.inbox := rfl
@[simp] theorem State.putConfig_answer (s : State) (i : Nat) (x : Bool) : (s.putConfig i x).answer = s.answer := rfl

/-! `State.putConfigSaved` -/

@[simp] theorem State.putConfigSaved_params (s : State) (x : Bool) : (s.putConfigSaved x).params = s.params := rfl
@[simp] theorem State.putConfigSaved_reg (s : State) (x : Bool) :
    (s.putConfigSaved x).reg = s.reg.write (s.params.offOf .status)
      (withBit (s.reg.read (s.params.offOf .status)) s.params.statusBits.configSaved x) := rfl
@[simp] theorem State.putConfigSaved_cursor (s : State) (x : Bool) : (s.putConfigSaved x).cursor = s.cursor := rfl
@[simp] theorem State.putConfigSaved_busState (s : State) (x : Bool) : (s.putConfigSaved x).busState = s.busState := rfl
@[simp] theorem State.putConfigSaved_wrBurstOk (s : State) (x : Bool) :
    (s.putConfigSaved x).wrBurstOk = s.wrBurstOk := rfl
@[simp] theorem State.putConfigSaved_nv (s : State) (x : Bool) : (s.putConfigSaved x).nv = s.nv := rfl
@[simp] theorem State.putConfigSaved_fault (s : State) (x : Bool) : (s.putConfigSaved x).fault = s.fault := rfl
@[simp] theorem State.putConfigSaved_wear (s : State) (x : Bool) : (s.putConfigSaved x).wear = s.wear := rfl
@[simp] theorem State.putConfigSaved_job (s : State) (x : Bool) : (s.putConfigSaved x).job = s.job := rfl
@[simp] theorem State.putConfigSaved_inbox (s : State) (x : Bool) : (s.putConfigSaved x).inbox = s.inbox := rfl
@[simp] theorem State.putConfigSaved_answer (s : State) (x : Bool) : (s.putConfigSaved x).answer = s.answer := rfl

/-! `State.startJob` -/

@[simp] theorem State.startJob_params (s : State) (ms : List Micro) : (s.startJob ms).params = s.params := rfl
@[simp] theorem State.startJob_reg (s : State) (ms : List Micro) : (s.startJob ms).reg = s.reg := rfl
@[simp] theorem State.startJob_cursor (s : State) (ms : List Micro) : (s.startJob ms).cursor = s.cursor := rfl
@[simp] theorem State.startJob_busState (s : State) (ms : List Micro) : (s.startJob ms).busState = s.busState := rfl
@[simp] theorem State.startJob_wrBurstOk (s : State) (ms : List Micro) : (s.startJob ms).wrBurstOk = s.wrBurstOk := rfl
@[simp] theorem State.startJob_nv (s : State) (ms : List Micro) : (s.startJob ms).nv = s.nv := rfl
@[simp] theorem State.startJob_fault (s : State) (ms : List Micro) : (s.startJob ms).fault = s.fault := rfl
@[simp] theorem State.startJob_wear (s : State) (ms : List Micro) : (s.startJob ms).wear = s.wear := rfl
@[simp] theorem State.startJob_job (s : State) (ms : List Micro) : (s.startJob ms).job = s.job ++ ms := rfl
@[simp] theorem State.startJob_inbox (s : State) (ms : List Micro) : (s.startJob ms).inbox = s.inbox := rfl
@[simp] theorem State.startJob_answer (s : State) (ms : List Micro) : (s.startJob ms).answer = s.answer := rfl

/-! `State.powerOn` -/

@[simp] theorem State.powerOn_params (s : State) : (s.powerOn).params = s.params := rfl
@[simp] theorem State.powerOn_reg (s : State) : (s.powerOn).reg = Memory.ofBytes s.params.regReset := rfl
@[simp] theorem State.powerOn_cursor (s : State) : (s.powerOn).cursor = 0 := rfl
@[simp] theorem State.powerOn_busState (s : State) : (s.powerOn).busState = .idle := rfl
@[simp] theorem State.powerOn_wrBurstOk (s : State) : (s.powerOn).wrBurstOk = false := rfl
@[simp] theorem State.powerOn_nv (s : State) : (s.powerOn).nv = s.nv := rfl
@[simp] theorem State.powerOn_fault (s : State) : (s.powerOn).fault = none := rfl
@[simp] theorem State.powerOn_wear (s : State) : (s.powerOn).wear = s.wear := rfl
@[simp] theorem State.powerOn_job (s : State) : (s.powerOn).job = [] := rfl
@[simp] theorem State.powerOn_inbox (s : State) : (s.powerOn).inbox = s.inbox := rfl
@[simp] theorem State.powerOn_answer (s : State) : (s.powerOn).answer = s.answer := rfl

/-! The store primitives made of several writes (20 R70). -/

/-- writeBlock changes the store and the count of its writes, nothing else. -/
theorem State.nvWriteN_eq (s : State) (a : Nat) (bs : List Byte) :
    s.nvWriteN a bs = { s with nv := s.nv.writeN a bs, wear := s.wear + bs.length } := by
  induction bs generalizing s a with
  | nil => rfl
  | cons b bs ih =>
    simp only [State.nvWriteN, ih, Memory.writeN, State.nvWrite, List.length_cons]
    simp only [State.mk.injEq, true_and, and_true]
    omega

@[simp] theorem State.nvWriteN_params (s : State) (a : Nat) (bs : List Byte) :
    (s.nvWriteN a bs).params = s.params := by rw [State.nvWriteN_eq]
@[simp] theorem State.nvWriteN_reg (s : State) (a : Nat) (bs : List Byte) :
    (s.nvWriteN a bs).reg = s.reg := by rw [State.nvWriteN_eq]
@[simp] theorem State.nvWriteN_cursor (s : State) (a : Nat) (bs : List Byte) :
    (s.nvWriteN a bs).cursor = s.cursor := by rw [State.nvWriteN_eq]
@[simp] theorem State.nvWriteN_busState (s : State) (a : Nat) (bs : List Byte) :
    (s.nvWriteN a bs).busState = s.busState := by rw [State.nvWriteN_eq]
@[simp] theorem State.nvWriteN_wrBurstOk (s : State) (a : Nat) (bs : List Byte) :
    (s.nvWriteN a bs).wrBurstOk = s.wrBurstOk := by rw [State.nvWriteN_eq]
@[simp] theorem State.nvWriteN_nv (s : State) (a : Nat) (bs : List Byte) :
    (s.nvWriteN a bs).nv = s.nv.writeN a bs := by rw [State.nvWriteN_eq]
@[simp] theorem State.nvWriteN_fault (s : State) (a : Nat) (bs : List Byte) :
    (s.nvWriteN a bs).fault = s.fault := by rw [State.nvWriteN_eq]
@[simp] theorem State.nvWriteN_wear (s : State) (a : Nat) (bs : List Byte) :
    (s.nvWriteN a bs).wear = s.wear + bs.length := by rw [State.nvWriteN_eq]
@[simp] theorem State.nvWriteN_job (s : State) (a : Nat) (bs : List Byte) :
    (s.nvWriteN a bs).job = s.job := by rw [State.nvWriteN_eq]
@[simp] theorem State.nvWriteN_inbox (s : State) (a : Nat) (bs : List Byte) :
    (s.nvWriteN a bs).inbox = s.inbox := by rw [State.nvWriteN_eq]
@[simp] theorem State.nvWriteN_answer (s : State) (a : Nat) (bs : List Byte) :
    (s.nvWriteN a bs).answer = s.answer := by rw [State.nvWriteN_eq]

@[simp] theorem State.nvUpdate_params (s : State) (a : Nat) (b : Byte) : (s.nvUpdate a b).params = s.params := by
  unfold State.nvUpdate; split <;> rfl
@[simp] theorem State.nvUpdate_reg (s : State) (a : Nat) (b : Byte) : (s.nvUpdate a b).reg = s.reg := by
  unfold State.nvUpdate; split <;> rfl
@[simp] theorem State.nvUpdate_cursor (s : State) (a : Nat) (b : Byte) : (s.nvUpdate a b).cursor = s.cursor := by
  unfold State.nvUpdate; split <;> rfl
@[simp] theorem State.nvUpdate_busState (s : State) (a : Nat) (b : Byte) : (s.nvUpdate a b).busState = s.busState := by
  unfold State.nvUpdate; split <;> rfl
@[simp] theorem State.nvUpdate_wrBurstOk (s : State) (a : Nat) (b : Byte) : (s.nvUpdate a b).wrBurstOk = s.wrBurstOk := by
  unfold State.nvUpdate; split <;> rfl
@[simp] theorem State.nvUpdate_fault (s : State) (a : Nat) (b : Byte) : (s.nvUpdate a b).fault = s.fault := by
  unfold State.nvUpdate; split <;> rfl
@[simp] theorem State.nvUpdate_job (s : State) (a : Nat) (b : Byte) : (s.nvUpdate a b).job = s.job := by
  unfold State.nvUpdate; split <;> rfl
@[simp] theorem State.nvUpdate_inbox (s : State) (a : Nat) (b : Byte) : (s.nvUpdate a b).inbox = s.inbox := by
  unfold State.nvUpdate; split <;> rfl
@[simp] theorem State.nvUpdate_answer (s : State) (a : Nat) (b : Byte) : (s.nvUpdate a b).answer = s.answer := by
  unfold State.nvUpdate; split <;> rfl

end Sys2Proof.Machine
end

