-- ==== Sys2Proof/Laws/Persistence.lean ====
section
/-! SUPPORT. What the parts of ConfigPersistence change (44): one frame and one reading of the store for each. -/

namespace Sys2Proof.Machine

/-! The image (44 R213) -/

@[simp] theorem State.regBytes_length (s : State) (r : Nat) : (s.regBytes r).length = s.params.width r := by
  simp [State.regBytes]

@[simp] theorem State.fieldImage_length (s : State) (n : RegName) :
    (s.fieldImage n).length = s.params.widthOf n := by
  unfold State.fieldImage
  split <;> simp [Params.widthOf]

theorem State.fieldImage_congr {s t : State} (hp : t.params = s.params) (hr : t.reg = s.reg) :
    t.fieldImage = s.fieldImage := by
  funext n; simp [State.fieldImage, State.regBytes, hp, hr]

/-- The image of the first `k` registers is `idx k` bytes long. -/
theorem State.imageTake_length (s : State) (k : Nat) :
    ((s.params.persist.take k).flatMap s.fieldImage).length = s.params.idx k := by
  simp [List.length_flatMap, Params.idx]

theorem State.persistImage_length (s : State) : s.persistImage.length = s.params.plen := by
  simp [State.persistImage, List.length_flatMap, Params.plen]

/-- The image up to and including the `k`-th register. -/
theorem State.imageTake_succ (s : State) {k : Nat} {n : RegName} (h : s.params.persist[k]? = some n) :
    (s.params.persist.take (k + 1)).flatMap s.fieldImage
      = (s.params.persist.take k).flatMap s.fieldImage ++ s.fieldImage n := by
  rw [List.take_add_one, h]
  simp [List.flatMap_append]

/-- Byte `j` of the `k`-th register stands at `idx k + j` of the image. -/
theorem State.persistImage_getElem? (s : State) {k : Nat} {n : RegName} (h : s.params.persist[k]? = some n) {j : Nat}
    (hj : j < s.params.widthOf n) : s.persistImage[s.params.idx k + j]? = (s.fieldImage n)[j]? := by
  have hsplit : s.persistImage
      = (s.params.persist.take k).flatMap s.fieldImage ++ s.fieldImage n
        ++ (s.params.persist.drop (k + 1)).flatMap s.fieldImage := by
    rw [← s.imageTake_succ h, ← List.flatMap_append, List.take_append_drop]; rfl
  rw [hsplit, List.append_assoc, List.getElem?_append_right (by rw [s.imageTake_length]; omega), s.imageTake_length,
    Nat.add_sub_cancel_left, List.getElem?_append_left (by simpa using hj)]

/-! SAVE -/

/-- S1 changes the store and its count only. -/
theorem State.saveReg_eq (s : State) (k : Nat) :
    s.saveReg k = { s with nv := (s.saveReg k).nv, wear := (s.saveReg k).wear } := by
  unfold State.saveReg
  split
  · rfl
  · simp only
    split
    · rfl
    · rw [State.nvWriteN_eq]

@[simp] theorem State.saveReg_params (s : State) (k : Nat) : (s.saveReg k).params = s.params := by rw [State.saveReg_eq]
@[simp] theorem State.saveReg_reg (s : State) (k : Nat) : (s.saveReg k).reg = s.reg := by rw [State.saveReg_eq]

/-- After S1 the store reads as if the register's image had been written, whether or not it was. -/
theorem State.saveReg_read (s : State) {k : Nat} {n : RegName} (h : s.params.persist[k]? = some n) (x : Nat) :
    (s.saveReg k).nv.read x = (s.nv.writeN (s.params.nvData + s.params.idx k) (s.fieldImage n)).read x := by
  simp only [State.saveReg, h]
  split
  · next heq =>
    rw [Memory.read_writeN]
    split
    · next hle =>
      by_cases hlt : x - (s.params.nvData + s.params.idx k) < (s.fieldImage n).length
      · rw [← heq, Memory.readN_getElem? _ _ _ _ hlt]
        simp only [Option.getD_some]
        congr 1; omega
      · rw [List.getElem?_eq_none (by omega)]; rfl
    · rfl
  · simp

/-- S1 for the first `m` registers. -/
def State.saveRegs (m : Nat) (s : State) : State := (List.range m).foldl (fun t k => t.saveReg k) s

theorem State.saveRegs_succ (s : State) (m : Nat) : s.saveRegs (m + 1) = (s.saveRegs m).saveReg m := by
  simp [State.saveRegs, List.range_succ]

theorem State.saveRegs_eq (s : State) (m : Nat) :
    s.saveRegs m = { s with nv := (s.saveRegs m).nv, wear := (s.saveRegs m).wear } := by
  induction m with
  | zero => rfl
  | succ m ih => rw [State.saveRegs_succ, State.saveReg_eq, ih]

theorem State.saveRegs_read (s : State) {m : Nat} (hm : m ≤ s.params.persist.length) (x : Nat) :
    (s.saveRegs m).nv.read x
      = (s.nv.writeN s.params.nvData ((s.params.persist.take m).flatMap s.fieldImage)).read x := by
  induction m generalizing x with
  | zero => simp [State.saveRegs, Memory.writeN]
  | succ m ih =>
    have hk : s.params.persist[m]? = some s.params.persist[m] := List.getElem?_eq_getElem (by omega)
    have hp : (s.saveRegs m).params = s.params := by rw [State.saveRegs_eq]
    have hr : (s.saveRegs m).reg = s.reg := by rw [State.saveRegs_eq]
    rw [State.saveRegs_succ, State.saveReg_read _ (by rw [hp]; exact hk), s.imageTake_succ hk, Memory.writeN_append,
      s.imageTake_length, hp, State.fieldImage_congr hp hr, Memory.read_writeN, Memory.read_writeN, ih (by omega)]

/-- SAVE is S1 to S5. -/
theorem State.save_eq (s : State) :
    s.save = (((s.saveRegs s.params.persist.length).saveCrc.nvWrite s.params.nvSig s.params.signature).saveBlocks
      ).putConfigSaved true := by
  have h : s.save = (microEffect .saveFlag (microEffect .saveBlocks (microEffect .saveSig
      (microEffect .saveCrc (s.saveRegs s.params.persist.length))))) := by
    simp [State.save, saveMicros, List.foldl_append, List.foldl_map, State.saveRegs, microEffect]
  rw [h]
  have hp : ((s.saveRegs s.params.persist.length).saveCrc).params = s.params := by
    rw [State.saveCrc, State.nvWriteN_params, State.saveRegs_eq]
  simp only [microEffect, hp]

@[simp] theorem State.saveCrc_params (s : State) : s.saveCrc.params = s.params := by simp [State.saveCrc]
@[simp] theorem State.saveCrc_reg (s : State) : s.saveCrc.reg = s.reg := by simp [State.saveCrc]

theorem State.nvUpdate_eq (s : State) (a : Nat) (b : Byte) :
    s.nvUpdate a b = { s with nv := (s.nvUpdate a b).nv, wear := (s.nvUpdate a b).wear } := by
  unfold State.nvUpdate; split <;> rfl

/-- NvUpdate's effect on the store equals NvWrite's (20 R70). -/
@[simp] theorem State.nvUpdate_read (s : State) (a : Nat) (b : Byte) (x : Nat) :
    (s.nvUpdate a b).nv.read x = if x = a then b else s.nv.read x := by
  unfold State.nvUpdate
  split
  · next h => split
              · next hx => rw [hx, h]
              · rfl
  · simp

theorem State.saveBlock_eq (s : State) (base : Nat) (sig : Byte) (n : RegName) :
    s.saveBlock base sig n
      = { s with nv := (s.saveBlock base sig n).nv, wear := (s.saveBlock base sig n).wear } := by
  rw [State.saveBlock, State.nvUpdate_eq]; rfl

theorem onVariant_eq (on : Bool) (f : State → State) (s : State)
    (h : ∀ t : State, f t = { t with nv := (f t).nv, wear := (f t).wear }) :
    onVariant on f s = { s with nv := (onVariant on f s).nv, wear := (onVariant on f s).wear } := by
  unfold onVariant; split
  · exact h s
  · rfl

theorem State.saveBlocks_eq (s : State) :
    s.saveBlocks = { s with nv := s.saveBlocks.nv, wear := s.saveBlocks.wear } := by
  unfold State.saveBlocks
  rw [onVariant_eq _ _ _ fun t => t.saveBlock_eq _ _ _, onVariant_eq _ _ s fun t => t.saveBlock_eq _ _ _]

/-- SAVE changes the store, its count and the STATUS byte (44 R215). -/
theorem State.save_frame (s : State) :
    s.save = { s.putConfigSaved true with nv := s.save.nv, wear := s.save.wear } := by
  rw [State.save_eq, State.saveBlocks_eq]
  generalize hX : State.nv _ = X
  generalize hY : State.wear _ = Y
  rw [State.saveCrc, State.nvWriteN_eq, State.saveRegs_eq]
  rfl

/-- The part of the store SAVE wrote before its optional blocks. -/
theorem State.saveMain_read (s : State) (x : Nat) :
    ((s.saveRegs s.params.persist.length).saveCrc.nvWrite s.params.nvSig s.params.signature).nv.read x
      = if x = s.params.nvSig then s.params.signature
        else ((s.nv.writeN s.params.nvData s.persistImage).writeN s.params.nvCrc
          (crcBytes (crc32 s.persistImage))).read x := by
  have hp : (s.saveRegs s.params.persist.length).params = s.params := by rw [State.saveRegs_eq]
  have hread : ∀ y, (s.saveRegs s.params.persist.length).nv.read y = (s.nv.writeN s.params.nvData s.persistImage).read y := by
    intro y
    rw [State.saveRegs_read _ (le_refl _), List.take_length]; rfl
  have hdata : (s.saveRegs s.params.persist.length).storedData = s.persistImage := by
    rw [State.storedData, hp, Memory.readN_congr fun y _ _ => hread y, ← s.persistImage_length, Memory.readN_writeN]
  simp only [State.nvWrite_nv, Memory.read_write, State.saveCrc, State.nvWriteN_nv, hp, hdata]
  split
  · rfl
  · rw [Memory.read_writeN, Memory.read_writeN, hread]

/-- What `save_block` leaves in the store (44 R218). -/
theorem State.saveBlock_read (s : State) (base : Nat) (sig : Byte) (n : RegName) (x : Nat) :
    (s.saveBlock base sig n).nv.read x
      = if x = base then sig else if x = base + 1 then s.reg.read (s.params.offOf n) else s.nv.read x := by
  simp [State.saveBlock]

end Sys2Proof.Machine
end

