-- ==== Sys2Proof/Laws/Restore.lean ====
section
/-! SUPPORT. What RESTORE, RESETCONFIG, SAVE's blocks and the sub-steps change (44 R215 to R220): a frame and a reading of
each space. -/

namespace Sys2Proof

/-- The store's ranges do not meet, as inequalities (00 R8). -/
theorem Params.store_layout {p : Params} (h : p.wf = true) :
    (p.nvSig < p.nvData ∧ p.nvCrc = p.nvData + p.plen)
    ∧ (p.nvSig + 1 ≤ p.nvAblk ∨ p.nvAblk + 2 ≤ p.nvSig) ∧ (p.nvSig + 1 ≤ p.nvMblk ∨ p.nvMblk + 2 ≤ p.nvSig)
    ∧ (p.nvData + p.plen ≤ p.nvAblk ∨ p.nvAblk + 2 ≤ p.nvData)
    ∧ (p.nvData + p.plen ≤ p.nvMblk ∨ p.nvMblk + 2 ≤ p.nvData)
    ∧ (p.nvCrc + 4 ≤ p.nvAblk ∨ p.nvAblk + 2 ≤ p.nvCrc) ∧ (p.nvCrc + 4 ≤ p.nvMblk ∨ p.nvMblk + 2 ≤ p.nvCrc)
    ∧ (p.nvAblk + 2 ≤ p.nvMblk ∨ p.nvMblk + 2 ≤ p.nvAblk) := by
  have hw := Params.wf_spec h
  have hd := hw.nv_disjoint
  simp [Params.nvRanges, disjoint] at hd
  exact ⟨⟨hw.nvSig_lt, hw.nvCrc_eq⟩, hd.1.2.2.1, hd.1.2.2.2, hd.2.1.2.1, hd.2.1.2.2, hd.2.2.1.1, hd.2.2.1.2, hd.2.2.2⟩

/-- Two registers of different names, both declared, have spans that do not meet. -/
theorem Params.named_disjoint (p : Params) {n m : RegName} (hn : p.idOf n < p.regCount) (hm : p.idOf m < p.regCount)
    (h : n ≠ m) : p.offOf n + p.widthOf n ≤ p.offOf m ∨ p.offOf m + p.widthOf m ≤ p.offOf n :=
  p.spans_disjoint hn hm fun he => h (p.idOf_inj hn he)

/-- A register of width one, as its address. -/
theorem Params.declared_of_width_one (p : Params) {n : RegName} (h : p.widthOf n = 1) : p.idOf n < p.regCount :=
  p.lt_regCount_of_idOf (by omega)

end Sys2Proof

namespace Sys2Proof.Machine

/-! RESTORE (44 R216) -/

theorem crcBytes_length (c : Word32) : (crcBytes c).length = 4 := by simp [crcBytes, ScalarVal.ty, ScalarType.width]

/-- Byte `j` of an encoded CRC. -/
theorem crcBytes_getElem? (c : Word32) {j : Nat} (h : j < 4) : (crcBytes c)[j]? = some (c.extractLsb' (8 * j) 8) := by
  have := encodeLE_getElem? 4 (c.setWidth 64) h
  rw [show crcBytes c = encodeLE 4 (c.setWidth 64) from rfl, this, Option.some.injEq]
  ext i hi
  simp [show 8 * j + i < 64 by omega]

/-- Four bytes join to a CRC exactly when they are its encoding. -/
theorem decodeLE_eq_crc {bs : List Byte} (hl : bs.length = 4) (c : Word32) :
    decodeLE bs = c.setWidth 64 ↔ bs = crcBytes c := by
  constructor
  · intro h
    rw [← encodeLE_decodeLE (bs := bs) (by omega), h, hl]; rfl
  · rintro rfl
    apply BitVec.eq_of_getLsbD_eq
    intro i hi
    rw [show crcBytes c = encodeLE 4 (c.setWidth 64) from rfl, decodeLE_encodeLE _ _ hi]
    by_cases h : i < 8 * 4
    · simp [h]
    · simp [BitVec.getLsbD_of_ge c i (by omega)]

/-- The check of RESTORE is the validity claims speak of (44 R216). -/
theorem State.mainValid_iff (s : State) : s.mainValid = true ↔ validMainBlock s := by
  unfold State.mainValid validMainBlock
  rw [Bool.and_eq_true, decide_eq_true_iff, decide_eq_true_iff, decodeLE_eq_crc (by simp)]
  refine and_congr_right fun _ => ⟨fun h j hj => ?_, fun h => ?_⟩
  · have := Memory.readN_getElem? s.nv s.params.nvCrc 4 j hj
    rw [h, crcBytes_getElem? _ hj] at this
    exact (Option.some.inj this).symm
  · apply List.ext_getElem?
    intro k
    by_cases hk : k < 4
    · rw [Memory.readN_getElem? _ _ _ _ hk, crcBytes_getElem? _ hk, h k hk]
    · rw [List.getElem?_eq_none (by simp; omega), List.getElem?_eq_none (by rw [crcBytes_length]; omega)]

theorem State.restoreReg_eq (s : State) (k : Nat) : s.restoreReg k = { s with reg := (s.restoreReg k).reg } := by
  unfold State.restoreReg; split <;> rfl

/-- The copy of the first `m` persisted registers. -/
def State.restoreTo (m : Nat) (s : State) : State := (List.range m).foldl (fun t k => t.restoreReg k) s

theorem State.restoreTo_succ (s : State) (m : Nat) : s.restoreTo (m + 1) = (s.restoreTo m).restoreReg m := by
  simp [State.restoreTo, List.range_succ]

theorem State.restoreTo_eq (s : State) (m : Nat) : s.restoreTo m = { s with reg := (s.restoreTo m).reg } := by
  induction m with
  | zero => rfl
  | succ m ih => rw [State.restoreTo_succ, State.restoreReg_eq, ih]

/-- What copying one more register does to a byte. -/
theorem State.restoreTo_succ_read (s : State) {m : Nat} {n : RegName} (h : s.params.persist[m]? = some n) (x : Nat) :
    (s.restoreTo (m + 1)).reg.read x
      = if s.params.offOf n ≤ x ∧ x < s.params.offOf n + s.params.widthOf n
        then s.nv.read (s.params.nvData + s.params.idx m + (x - s.params.offOf n)) else (s.restoreTo m).reg.read x := by
  have hp : (s.restoreTo m).params = s.params := by rw [State.restoreTo_eq]
  have hn : (s.restoreTo m).nv = s.nv := by rw [State.restoreTo_eq]
  simp only [State.restoreTo_succ, State.restoreReg, hp, hn, h, State.putBytes, Memory.read_writeN]
  rw [show s.params.off (s.params.idOf n) = s.params.offOf n from rfl]
  by_cases h1 : s.params.offOf n ≤ x
  · by_cases h2 : x < s.params.offOf n + s.params.widthOf n
    · rw [if_pos h1, if_pos ⟨h1, h2⟩, Memory.readN_getElem? _ _ _ _ (by omega)]; rfl
    · rw [if_pos h1, if_neg (by omega), List.getElem?_eq_none (by simp; omega)]; rfl
  · rw [if_neg h1, if_neg (by omega)]

theorem State.restoreRegs_eq_restoreTo (s : State) : s.restoreRegs = s.restoreTo s.params.persist.length := rfl

theorem State.restoreRegs_eq (s : State) : s.restoreRegs = { s with reg := s.restoreRegs.reg } := by
  rw [State.restoreRegs_eq_restoreTo, State.restoreTo_eq]

/-- RESTORE's copy leaves every byte outside the persisted registers. -/
theorem State.restoreRegs_read_outside (s : State) {x : Nat}
    (h : ∀ n ∈ s.params.persist, ¬ inSpan s.params (s.params.idOf n) x) : s.restoreRegs.reg.read x = s.reg.read x := by
  rw [State.restoreRegs_eq_restoreTo]
  have key : ∀ m, m ≤ s.params.persist.length → (s.restoreTo m).reg.read x = s.reg.read x := by
    intro m
    induction m with
    | zero => intro _; rfl
    | succ m ih =>
      intro hm
      have hx : ¬ (s.params.offOf s.params.persist[m] ≤ x
          ∧ x < s.params.offOf s.params.persist[m] + s.params.widthOf s.params.persist[m]) := h _ (List.getElem_mem ..)
      rw [s.restoreTo_succ_read (List.getElem?_eq_getElem (by omega)), if_neg hx, ih (by omega)]
  exact key _ (le_refl _)

/-- RESTORE's copy of a persisted register, where PERSIST names it once. -/
theorem State.restoreRegs_read_inside {s : State} (hw : s.params.wf = true) (hp : s.params.persist.Nodup) {k j : Nat}
    {n : RegName} (h : s.params.persist[k]? = some n) (hj : j < s.params.widthOf n) :
    s.restoreRegs.reg.read (s.params.offOf n + j) = s.nv.read (s.params.nvData + s.params.idx k + j) := by
  rw [State.restoreRegs_eq_restoreTo]
  obtain ⟨hk, rfl⟩ := List.getElem?_eq_some_iff.mp h
  have key : ∀ m, m ≤ s.params.persist.length → k < m →
      (s.restoreTo m).reg.read (s.params.offOf s.params.persist[k] + j)
        = s.nv.read (s.params.nvData + s.params.idx k + j) := by
    intro m
    induction m with
    | zero => intro _ h; omega
    | succ m ih =>
      intro hm hkm
      rw [s.restoreTo_succ_read (List.getElem?_eq_getElem (by omega))]
      rcases Nat.lt_or_ge k m with hlt | hge
      · rw [if_neg, ih (by omega) hlt]
        have hne : s.params.persist[k] ≠ s.params.persist[m] := fun he =>
          absurd ((List.Nodup.getElem_inj_iff hp).mp he) (by omega)
        have hd := s.params.named_disjoint ((Params.wf_spec hw).persist_declared _ (List.getElem_mem hk))
          ((Params.wf_spec hw).persist_declared _ (List.getElem_mem (show m < s.params.persist.length by omega))) hne
        omega
      · obtain rfl : m = k := by omega
        rw [if_pos (by omega)]
        congr 1; omega
  exact key _ (le_refl _) hk

theorem State.restoreBlock_eq (s : State) (base : Nat) (sig : Byte) (n : RegName) :
    s.restoreBlock base sig n = { s with reg := (s.restoreBlock base sig n).reg } := by
  unfold State.restoreBlock; split <;> rfl

/-- What `restore_block` does to a byte (44 R219). -/
theorem State.onVariant_restoreBlock_read (s : State) (on : Bool) (base : Nat) (sig : Byte) (n : RegName) (x : Nat) :
    (onVariant on (State.restoreBlock base sig n) s).reg.read x
      = if x = s.params.offOf n ∧ on = true ∧ s.nv.read base = sig then s.nv.read (base + 1) else s.reg.read x := by
  unfold onVariant State.restoreBlock
  cases on
  · simp
  · by_cases h : s.nv.read base = sig <;> by_cases hx : x = s.params.offOf n <;> simp [h, hx]

theorem onVariant_reg_eq (on : Bool) (f : State → State) (s : State) (h : ∀ t : State, f t = { t with reg := (f t).reg }) :
    onVariant on f s = { s with reg := (onVariant on f s).reg } := by
  unfold onVariant; split
  · exact h s
  · rfl

/-- RESTORE up to its optional blocks. -/
def State.restoreMain (s : State) : State :=
  if s.mainValid then s.restoreRegs.putConfigSaved true else s.putConfigSaved false

theorem State.restoreMain_eq (s : State) : s.restoreMain = { s with reg := s.restoreMain.reg } := by
  unfold State.restoreMain
  split
  · rw [State.restoreRegs_eq]; rfl
  · rfl

theorem State.restore_eq_blocks (s : State) :
    s.restore = onVariant s.params.persistModel (State.restoreBlock s.params.nvMblk s.params.sigModel .model)
      (onVariant s.params.persistAddr (State.restoreBlock s.params.nvAblk s.params.sigAddr .deviceAddress)
        s.restoreMain) := rfl

/-- RESTORE changes the register file and nothing else. -/
theorem State.restore_frame (s : State) : s.restore = { s with reg := s.restore.reg } := by
  rw [State.restore_eq_blocks, onVariant_reg_eq _ _ _ fun t => t.restoreBlock_eq _ _ _,
    onVariant_reg_eq _ _ s.restoreMain fun t => t.restoreBlock_eq _ _ _, State.restoreMain_eq]

/-- A byte after RESTORE: an enabled, signed optional block's register, else what the main block left. -/
theorem State.restore_read (s : State) (x : Nat) :
    s.restore.reg.read x
      = if x = s.params.offOf .model ∧ s.params.persistModel = true ∧ s.nv.read s.params.nvMblk = s.params.sigModel
        then s.nv.read (s.params.nvMblk + 1)
        else if x = s.params.offOf .deviceAddress ∧ s.params.persistAddr = true
            ∧ s.nv.read s.params.nvAblk = s.params.sigAddr
        then s.nv.read (s.params.nvAblk + 1) else s.restoreMain.reg.read x := by
  have h1 : s.restoreMain.params = s.params ∧ s.restoreMain.nv = s.nv := by rw [State.restoreMain_eq]; exact ⟨rfl, rfl⟩
  rw [State.restore_eq_blocks, State.onVariant_restoreBlock_read, State.onVariant_restoreBlock_read,
    onVariant_reg_eq _ _ s.restoreMain fun t => t.restoreBlock_eq _ _ _]
  simp only [h1.1, h1.2]

/-- A byte that no optional block gives is what the main block left. -/
theorem State.restore_read_main (s : State) {x : Nat} (h : ¬ takenByOptionalBlock s x) :
    s.restore.reg.read x = s.restoreMain.reg.read x := by
  unfold takenByOptionalBlock at h
  rw [not_or] at h
  rw [State.restore_read, if_neg h.2, if_neg h.1]

/-! SETBIT on STATUS and CONFIG -/

/-- A byte after CONFIG_SAVED is written. -/
theorem State.putConfigSaved_read (s : State) (x : Bool) (a : Nat) :
    (s.putConfigSaved x).reg.read a
      = if a = s.params.offOf .status then withBit (s.reg.read a) s.params.statusBits.configSaved x else s.reg.read a := by
  simp only [State.putConfigSaved, State.putStatus, State.putBit, Memory.read_write]
  rw [show s.params.off (s.params.idOf .status) = s.params.offOf .status from rfl]
  split
  · next h => rw [h]
  · rfl

/-- CONFIG_SAVED's position is a bit of a byte. -/
theorem Params.configSaved_le {p : Params} (h : p.wf = true) : p.statusBits.configSaved ≤ 7 :=
  (Params.wf_spec h).statusBits_le _ (by simp [StatusBits.toList])

/-- Writing CONFIG_SAVED changes that one bit of the register file. -/
theorem State.putConfigSaved_only {s : State} (h : s.params.wf = true) (x : Bool) :
    onlyStatusBit s (s.putConfigSaved x) s.params.statusBits.configSaved x := by
  refine ⟨fun a ha => by rw [State.putConfigSaved_read, if_neg ha], fun j hj => ?_⟩
  unfold State.statusBit State.bit
  rw [show (s.putConfigSaved x).params = s.params from rfl, State.putConfigSaved_read,
    if_pos (show s.params.off (s.params.idOf .status) = s.params.offOf .status from rfl),
    byteBit_withBit _ (Params.configSaved_le h) hj]

/-! RESETCONFIG (44 R217) -/

/-- The store as RESETCONFIG leaves it. -/
def State.erased (s : State) : Memory :=
  let main := ((s.nv.write s.params.nvSig 0).writeN s.params.nvData (List.replicate s.params.plen 0)).writeN
    s.params.nvCrc (List.replicate 4 0)
  let addr := if s.params.persistAddr then main.writeN s.params.nvAblk [0, 0] else main
  if s.params.persistModel then addr.writeN s.params.nvMblk [0, 0] else addr

theorem State.eraseConfig_nv (s : State) : s.eraseConfig.nv = s.erased := by
  unfold State.eraseConfig State.erased onVariant
  rcases Bool.eq_false_or_eq_true s.params.persistAddr with hA | hA <;>
    rcases Bool.eq_false_or_eq_true s.params.persistModel with hM | hM <;> simp [hA, hM]

theorem State.nvWriteN_onVariant_eq (s : State) (on : Bool) (a : Nat) (bs : List Byte) :
    onVariant on (State.nvWriteN a bs) s
      = { s with nv := (onVariant on (State.nvWriteN a bs) s).nv, wear := (onVariant on (State.nvWriteN a bs) s).wear } :=
  onVariant_eq _ _ _ fun t => by rw [State.nvWriteN_eq]

/-- RESETCONFIG changes the store, its count and CONFIG_SAVED. -/
theorem State.eraseConfig_frame (s : State) :
    s.eraseConfig = { s.putConfigSaved false with nv := s.erased, wear := s.eraseConfig.wear } := by
  rw [← State.eraseConfig_nv]
  unfold State.eraseConfig
  simp only
  rw [State.nvWriteN_onVariant_eq]
  generalize hX : State.nv _ = X
  generalize hY : State.wear _ = Y
  rw [State.nvWriteN_onVariant_eq, State.nvWriteN_eq, State.nvWriteN_eq]
  rfl

theorem Memory.read_writeN_zeros (m : Memory) (a n x : Nat) :
    (m.writeN a (List.replicate n 0)).read x = if a ≤ x ∧ x < a + n then 0 else m.read x := by
  rw [Memory.read_writeN]
  by_cases h1 : a ≤ x
  · by_cases h2 : x < a + n
    · rw [if_pos h1, if_pos ⟨h1, h2⟩, List.getElem?_replicate, if_pos (by omega)]; rfl
    · rw [if_pos h1, if_neg (by omega), List.getElem?_eq_none (by simp; omega)]; rfl
  · rw [if_neg h1, if_neg (by omega)]

/-- RESETCONFIG zeroes the main block and the enabled optional blocks and no other byte of the store. -/
theorem State.erased_read (s : State) (x : Nat) :
    s.erased.read x = if inMainBlock s.params x ∨ inOptionalBlock s.params x then 0 else s.nv.read x := by
  have h2 : ∀ (m : Memory) (a : Nat), (m.writeN a [0, 0]).read x = if x = a ∨ x = a + 1 then 0 else m.read x := by
    intro m a
    rw [show ([0, 0] : List Byte) = List.replicate 2 0 from rfl, Memory.read_writeN_zeros]
    congr 1
    simp only [eq_iff_iff]; omega
  unfold State.erased
  simp only
  rcases Bool.eq_false_or_eq_true s.params.persistAddr with hA | hA <;>
    rcases Bool.eq_false_or_eq_true s.params.persistModel with hM | hM <;>
    simp only [if_true, if_false, Bool.false_eq_true, h2, Memory.read_writeN_zeros, Memory.read_write, inMainBlock,
      inOptionalBlock, hA, hM, false_and, true_and, or_false, false_or] <;>
    (repeat' split) <;> first | rfl | (exfalso; simp only [not_or, not_and] at *; omega)

/-! SAVE (44 R215) -/

/-- The store after SAVE, byte by byte. -/
theorem State.save_read (s : State) (x : Nat) :
    s.save.nv.read x
      = if s.params.persistModel = true ∧ x = s.params.nvMblk then s.params.sigModel
        else if s.params.persistModel = true ∧ x = s.params.nvMblk + 1 then s.reg.read (s.params.offOf .model)
        else if s.params.persistAddr = true ∧ x = s.params.nvAblk then s.params.sigAddr
        else if s.params.persistAddr = true ∧ x = s.params.nvAblk + 1 then s.reg.read (s.params.offOf .deviceAddress)
        else if x = s.params.nvSig then s.params.signature
        else ((s.nv.writeN s.params.nvData s.persistImage).writeN s.params.nvCrc
          (crcBytes (crc32 s.persistImage))).read x := by
  rw [State.save_eq]
  simp only [State.putConfigSaved_nv, State.saveBlocks]
  rw [← s.saveMain_read]
  generalize hu : (s.saveRegs s.params.persist.length).saveCrc.nvWrite s.params.nvSig s.params.signature = u
  have hp : u.params = s.params := by rw [← hu, State.nvWrite_params, State.saveCrc_params, State.saveRegs_eq]
  have hr : u.reg = s.reg := by rw [← hu, State.nvWrite_reg, State.saveCrc_reg, State.saveRegs_eq]
  rw [hp]
  unfold onVariant
  cases s.params.persistModel <;> cases s.params.persistAddr <;> simp [State.saveBlock_read, hp, hr]
  rw [State.saveBlock_eq]; simp [hr, hp]

end Sys2Proof.Machine
end

