-- ==== Sys2Proof/Laws/Steps.lean ====
section
/-! SUPPORT. What a sub-step, a service and power-on reset change (44 R222, 45 R251, R252, 70 R300): their frames. -/

namespace Sys2Proof.Machine

/-- A sub-step changes the register file, the store, its count and what is left of the job, and nothing else. -/
theorem microEffect_frame (m : Micro) (s : State) :
    microEffect m s
      = { s with
          reg := (microEffect m s).reg, nv := (microEffect m s).nv, wear := (microEffect m s).wear
          job := (microEffect m s).job } := by
  cases m
  case saveReg k => show s.saveReg k = _; rw [microEffect, State.saveReg_eq]
  case saveCrc => simp [microEffect, State.saveCrc, State.nvWriteN_eq]
  case saveSig => rfl
  case saveBlocks => show s.saveBlocks = _; rw [microEffect, State.saveBlocks_eq]
  case saveFlag => rfl
  case testWrite => unfold microEffect; simp only; split <;> rfl
  case clearWrite => rfl
  case testReset => unfold microEffect; simp only; split <;> rfl
  case eraseConfig => show s.eraseConfig = _; rw [microEffect, State.eraseConfig_frame]; rfl
  case clearReset => rfl

@[simp] theorem microEffect_params (m : Micro) (s : State) : (microEffect m s).params = s.params := by
  rw [microEffect_frame]

/-- A service leaves the parameters, the cursor, the bus label, the burst flag, the marker, the job and the inbox. -/
theorem State.serveWrite_frame (s : State) :
    s.serveWrite = { s with reg := s.serveWrite.reg, nv := s.serveWrite.nv, wear := s.serveWrite.wear } := by
  unfold State.serveWrite
  split
  · rw [State.save_frame]; rfl
  · rfl

theorem State.serveReset_frame (s : State) :
    s.serveReset = { s with reg := s.serveReset.reg, nv := s.serveReset.nv, wear := s.serveReset.wear } := by
  unfold State.serveReset
  split
  · rw [State.eraseConfig_frame]; rfl
  · rfl

/-- A byte after a bit of CONFIG is written. -/
theorem State.putConfig_read (s : State) (i : Nat) (x : Bool) (a : Nat) :
    (s.putConfig i x).reg.read a
      = if a = s.params.offOf .config then withBit (s.reg.read a) i x else s.reg.read a := by
  simp only [State.putConfig, State.putBit, Memory.read_write]
  rw [show s.params.off (s.params.idOf .config) = s.params.offOf .config from rfl]
  split
  · next h => rw [h]
  · rfl

/-- A bit of CONFIG after a bit of it is written. -/
theorem State.putConfig_configBit (s : State) {i j : Nat} (hi : i ≤ 7) (hj : j < 8) (x : Bool) :
    (s.putConfig i x).configBit j = if j = i then x else s.configBit j := by
  unfold State.configBit State.bit
  rw [show (s.putConfig i x).params = s.params from rfl, State.putConfig_read,
    if_pos (show s.params.off (s.params.idOf .config) = s.params.offOf .config from rfl), byteBit_withBit _ hi hj]

/-- Power-on reset writes the register file and the volatile fields; the store and its count are kept (70 R300). -/
theorem powerOnReset_eq {s : State} (h : s.params.wf = true) :
    powerOnReset s = .next { s with
      reg := s.powerOn.restore.reg, cursor := 0, busState := .idle, wrBurstOk := false, fault := none, job := [],
      answer := { raised := s.powerOn.restoreRaised } } := by
  unfold powerOnReset
  rw [if_pos h, finish_eq, State.restore_frame]
  rfl

end Sys2Proof.Machine
end

