-- ==== Sys2Proof/Tests/Slice0.lean ====
section
/-! SUPPORT. Tests. Expected values come from the spec: the vectors of 95 (V1 to V63, P1 to P5), the tables of 10, 30, 40,
41 and 44. The last part holds a witness for the hypotheses of each statement. -/

namespace Sys2Proof.Tests

open Sys2Proof.Machine

-- One theorem at a time: the kernel evaluations below would otherwise each take a thread of their own.
set_option Elab.async false

/-! ## Helpers -/

/-- The state an outcome goes on with. -/
def after? (o : StepOutcome) : Option State :=
  match o with
  | .next t => some t
  | .fault _ => none
  | .refused _ => none

/-- Why an outcome is refused. -/
def refusal? (o : StepOutcome) : Option Refusal :=
  match o with
  | .refused e => some e
  | .next _ => none
  | .fault _ => none

/-- What an outcome returns on the port `ret`. -/
def ret? (o : StepOutcome) : Option Result := (after? o).bind fun t => t.answer.ret

/-- `n` bytes of the register file from `a` up, after an outcome. -/
def regs? (o : StepOutcome) (a n : Nat) : Option (List Byte) := (after? o).map fun t => t.reg.readN a n

/-- The reset state with some bytes of the register file set. -/
def withReg (cs : List (Nat × Byte)) : State :=
  { State.reset with reg := cs.foldl (fun m c => Memory.write m c.1 c.2) [], answer := {} }

/-- The 17 configuration bytes of V40. -/
def v40Config : List Byte :=
  [0x88, 0x13, 0x00, 0x00, 0x00, 0x00, 0xF0, 0x41, 0x00, 0x00, 0x20, 0x41, 0xD0, 0x07, 0x00, 0x00, 0x0B]

/-- The register file of V40 before SERVICE_TRIGGERS. -/
def v40State : State := { State.reset with reg := Memory.writeN [] 17 v40Config }

/-- The 22 store bytes of V40. -/
def v40Store : List Byte :=
  [0xA5, 0x88, 0x13, 0x00, 0x00, 0x00, 0x00, 0xF0, 0x41, 0x00, 0x00, 0x20, 0x41, 0xD0, 0x07, 0x00, 0x00, 0x03,
   0x5A, 0x02, 0xB5, 0x24]

/-- The reset state with the store of V40. -/
def v40Stored : State := { State.reset with nv := Memory.ofBytes v40Store }

/-- The reset state under the split variant. -/
def splitState : State := { State.reset with params := { defaultParams with persistAtomic := false } }

/-- The reset state with both optional blocks and DEVICE_ADDRESS and MODEL as P4 leaves them. -/
def blocksState : State :=
  { withReg [(34, 0x28), (35, 0x16)] with params := { defaultParams with persistAddr := true, persistModel := true } }

/-- The reset state under the strict policy. -/
def strictState : State := { State.reset with params := { defaultParams with strictContWrite := true } }

/-- The reset state, stopped by an address out of range. -/
def stopped : State := { State.reset with fault := some .addrOutOfRange }

theorem next_of {o : StepOutcome} (h : (after? o).isSome = true) : ∃ t, o = .next t := by
  cases o with
  | next t => exact ⟨t, rfl⟩
  | fault _ => simp [after?] at h
  | refused _ => simp [after?] at h

/-! ## Well-formedness: a term each check refuses (30 R97, 60 R279) -/

theorem test_wf_encode_type : (Instr.encode .u32 (.i32 5)).wf = false := by decide
theorem test_wf_decode_length : (Instr.decode .u32 [0x88, 0x13]).wf = false := by decide
theorem test_wf_writeTyped_type : (Instr.writeTyped .f32 4 (.u32 5)).wf = false := by decide
theorem test_wf_getBit_index : (Instr.getBit 6 8).wf = false := by decide
theorem test_wf_setBit_index : (Instr.setBit 6 8 true).wf = false := by decide
theorem test_wf_default_params : defaultParams.wf = true := by decide +kernel
theorem test_wf_params_bad_signature : { defaultParams with signature := 0x00 }.wf = false := by decide +kernel
theorem test_wf_params_overlap : { defaultParams with nvAblk := 21 }.wf = false := by decide +kernel

/-! ## Decoding: one word for each row, its number written out from 30 R91, R93, R96 -/

theorem test_decode_events :
    decodeInstr (.ev 0b0011111111) = .ok .endTx ∧ decodeInstr (.ev 0b0100100011) = .ok (.addr 0x23)
    ∧ decodeInstr (.ev 0b1010001000) = .ok (.wr 0x88) ∧ decodeInstr (.ev 0b1100100000) = .ok (.rd 32) := by decide +kernel

theorem test_decode_codec :
    decodeInstr (.op 0b00000000 [.ty 4, .val (.i16 0xFFFE)]) = .ok (.encode .i16 (.i16 0xFFFE))
    ∧ decodeInstr (.op 0b00000001 [.ty 7, .bytes [0x01, 0x00, 0xC0, 0x7F]])
      = .ok (.decode .f32 [0x01, 0x00, 0xC0, 0x7F]) := by decide +kernel

theorem test_decode_map :
    decodeInstr (.op 0b00010000 [.reg 12]) = .ok (.lookup 12) ∧ decodeInstr (.op 0b00010001 []) = .ok .totalSize
    ∧ decodeInstr (.op 0b00010010 [.address 35]) = .ok (.classAt 35) := by decide +kernel

theorem test_decode_accessors :
    decodeInstr (.op 0b00100000 [.address 6]) = .ok (.readByte 6)
    ∧ decodeInstr (.op 0b00100001 [.address 0, .byte 0x2A]) = .ok (.writeByte 0 0x2A)
    ∧ decodeInstr (.op 0b00100010 [.ty 2, .reg 8]) = .ok (.readTyped .u32 8)
    ∧ decodeInstr (.op 0b00100011 [.ty 7, .reg 4, .val (.f32 0x41B40000)]) = .ok (.writeTyped .f32 4 (.f32 0x41B40000))
    ∧ decodeInstr (.op 0b00100100 [.reg 12, .bitIndex 3]) = .ok (.getBit 12 3)
    ∧ decodeInstr (.op 0b00100101 [.reg 6, .bitIndex 3, .flag true]) = .ok (.setBit 6 3 true) := by decide +kernel

theorem test_decode_cursor :
    decodeInstr (.op 0b00100110 []) = .ok .resetCursor ∧ decodeInstr (.op 0b00100111 []) = .ok .advanceCursor
    ∧ decodeInstr (.op 0b00101000 []) = .ok .cursor := by decide +kernel

theorem test_decode_persistence :
    decodeInstr (.op 0b00110000 [.bytes [0x61]]) = .ok (.crc32 [0x61]) ∧ decodeInstr (.op 0b00110001 []) = .ok .save
    ∧ decodeInstr (.op 0b00110010 []) = .ok .restore ∧ decodeInstr (.op 0b00110011 []) = .ok .resetConfig := by
  decide +kernel

theorem test_decode_service :
    decodeInstr (.op 0b01000000 []) = .ok .serviceTriggers
    ∧ decodeInstr (.op 0b01000001 [.sensor (.ok 0x41B40000 0x42340000)])
      = .ok (.sensorUpdate (.ok 0x41B40000 0x42340000)) := by decide +kernel

/-- V62, and the refusals of 60 R279 that are the decoder's. -/
theorem test_decode_refused :
    decodeInstr (.op 0x02 []) = .error (.reservedOp 0x02) ∧ decodeInstr (.op 0x13 []) = .error (.reservedOp 0x13)
    ∧ decodeInstr (.op 0x29 []) = .error (.reservedOp 0x29) ∧ decodeInstr (.op 0x34 []) = .error (.reservedOp 0x34)
    ∧ decodeInstr (.op 0x42 []) = .error (.reservedOp 0x42) ∧ decodeInstr (.op 0xFF []) = .error (.reservedOp 0xFF)
    ∧ decodeInstr (.op 0x00 [.ty 8, .val (.u64 0)]) = .error (.notCodecType 8)
    ∧ decodeInstr (.op 0x20 [.reg 0]) = .error (.badOperands 0x20) := by decide +kernel

/-- The table's numbering: a one-byte row is a call, a ten-bit row an event. -/
theorem test_decode_table :
    decodeTableWord 8 0x31 = some .save ∧ decodeTableWord 8 0x02 = none ∧ decodeTableWord 16 0x111 = some (.addr 0x11)
    ∧ decodeTableWord 10 0x304 = some (.rd 4) ∧ decodeTableWord 16 0x400 = none := by decide +kernel

/-- A word placed for the next step is the word that step runs. -/
theorem test_fetch_table :
    (after? (step (State.reset.withFetchWord 16 0x10C))).map (fun t => t.cursor) = some 12
    ∧ ret? (step (State.reset.withFetchWord 8 0x11)) = some (.size 36) := by decide +kernel

/-! ## ByteCodec (V1 to V11) -/

theorem test_encode_i16 : ret? (exec (.encode .i16 (.i16 (-2))) State.reset) = some (.bytes [0xFE, 0xFF]) := by
  decide +kernel
theorem test_encode_u64 : ret? (exec (.encode .u64 (.u64 0x0102030405060708)) State.reset)
    = some (.bytes [0x08, 0x07, 0x06, 0x05, 0x04, 0x03, 0x02, 0x01]) := by decide +kernel
theorem test_decode_u32 : ret? (exec (.decode .u32 [0x88, 0x13, 0x00, 0x00]) State.reset) = some (.scalar (.u32 5000)) := by
  decide +kernel
theorem test_decode_nan : ret? (exec (.decode .f32 [0x01, 0x00, 0xC0, 0x7F]) State.reset)
    = some (.scalar (.f32 0x7FC00001)) := by decide +kernel

/-! ## RegisterMap (V12 to V16) -/

/-- V12 and 41 R147: the class of every address of the default map. -/
theorem test_default_classes :
    (List.range 37).map defaultParams.classAt
      = (let ra := some PClass.readOnlyAligned; let rc := some PClass.readOnlyContinuation
         let wa := some PClass.writableAligned; let wc := some PClass.writableContinuation
         [ra, ra, ra, ra, ra, rc, rc, rc, ra, rc, rc, rc, ra, ra, rc, rc, rc, wa, wc, wc, wc, wa, wc, wc, wc, wa, wc, wc,
          wc, wa, wc, wc, wc, wa, wa, wa, none]) := by decide +kernel

theorem test_lookup_temperature : ret? (exec (.lookup 4) State.reset)
    = some (.entry 4 4 [.readOnlyAligned, .readOnlyContinuation, .readOnlyContinuation, .readOnlyContinuation]) := by
  decide +kernel
theorem test_lookup_config : ret? (exec (.lookup 12) State.reset) = some (.entry 33 1 [.writableAligned])
    ∧ refusal? (exec (.lookup 15) State.reset) = some (.unknownRegister 15) := by decide +kernel
theorem test_totalSize : ret? (exec .totalSize State.reset) = some (.size 36) := by decide +kernel
theorem test_classAt : ret? (exec (.classAt 20) State.reset) = some (.cls .writableContinuation)
    ∧ refusal? (exec (.classAt 36) State.reset) = some (.noSuchAddress 36) := by decide +kernel

/-! ## RegisterFile (V20 to V29, V61, V63) -/

theorem test_writeTyped_temperature :
    regs? (exec (.writeTyped .f32 4 (.f32 0x41B40000)) State.reset) 3 6 = some [0x00, 0x00, 0x00, 0xB4, 0x41, 0x00] := by
  decide +kernel
theorem test_readTyped_odd : ret? (exec (.readTyped .u32 7) (withReg [(13, 0x07)])) = some (.scalar (.u32 7)) := by
  decide +kernel
theorem test_readTyped_type : ret? (exec (.readTyped .f32 8) (withReg [(17, 0x88), (18, 0x13)]))
    = some (.scalar (.f32 0x00001388)) := by decide +kernel
theorem test_writeByte_readOnly : regs? (exec (.writeByte 0 0x2A) State.reset) 0 2 = some [0x2A, 0x00] := by decide +kernel
theorem test_writeByte_out : (after? (exec (.writeByte 36 0) State.reset)).map (fun t => (t.fault, t.reg))
    = some (some .accessOutOfRange, []) := by decide +kernel
theorem test_readByte_last : ret? (exec (.readByte 35) (withReg [(35, 0x16)])) = some (.byte 0x16)
    ∧ (after? (exec (.readByte 36) State.reset)).map (fun t => t.fault) = some (some .accessOutOfRange) := by decide +kernel
theorem test_getBit : ret? (exec (.getBit 12 3) (withReg [(33, 0x0B)])) = some (.bool true)
    ∧ ret? (exec (.getBit 12 2) (withReg [(33, 0x0B)])) = some (.bool false)
    ∧ ret? (exec (.getBit 12 0) (withReg [(33, 0x0B)])) = some (.bool true) := by decide +kernel
theorem test_getBit_wide : refusal? (exec (.getBit 8 0) State.reset) = some (.notBitRegister 8) := by decide +kernel
theorem test_setBit : regs? (exec (.setBit 6 3 true) (withReg [(12, 0x01)])) 12 1 = some [0x09]
    ∧ regs? (exec (.setBit 6 0 false) (withReg [(12, 0x09)])) 12 1 = some [0x08]
    ∧ regs? (exec (.setBit 6 3 true) (withReg [(12, 0x08)])) 12 1 = some [0x08] := by decide +kernel
theorem test_setBit_reserved : regs? (exec (.setBit 6 4 true) (withReg [(12, 0xC0)])) 12 1 = some [0xD0] := by
  decide +kernel
theorem test_advanceCursor_wraps :
    (after? (exec .advanceCursor { State.reset with cursor := 35 })).map (fun t => t.cursor) = some 0 := by decide +kernel
theorem test_resetCursor :
    (after? (exec .resetCursor { State.reset with cursor := 21 })).map (fun t => t.cursor) = some 0 := by decide +kernel
theorem test_cursor : ret? (exec .cursor { State.reset with cursor := 21 }) = some (.position 21) := by decide +kernel

/-! ## BusTransactionHandler (V30 to V39, P4) -/

theorem test_addr_last : (after? (exec (.addr 0x23) State.reset)).map (fun t => (t.cursor, t.busState, t.wrBurstOk, t.fault))
    = some (35, .addressSelected, true, none) := by decide +kernel
theorem test_addr_out : (after? (exec (.addr 0x24) { State.reset with cursor := 35 })).map (fun t => (t.cursor, t.fault))
    = some (35, some .addrOutOfRange) := by decide +kernel
/-- P4: a write to MODEL wraps the cursor. -/
theorem test_wr_wraps : (after? (exec (.wr 0x16) { State.reset with cursor := 35 })).map
    (fun t => (t.cursor, t.busState, t.reg)) = some (0, .receiving, [(35, 0x16)]) := by decide +kernel
/-- V34: a write to a read-only byte is discarded, the cursor advances, the condition is raised. -/
theorem test_wr_readOnly : (after? (exec (.wr 0xFF) { State.reset with cursor := 12 })).map
    (fun t => (t.cursor, t.reg, t.answer.raised)) = some (13, [], some (.writeToReadOnly 12 0xFF)) := by decide +kernel
/-- V35: a continuation byte with no burst is stored by the default policy only. -/
theorem test_wr_policies :
    (after? (exec (.wr 0x77) { State.reset with cursor := 18 })).map (fun t => t.reg) = some [(18, 0x77)]
    ∧ (after? (exec (.wr 0x77) { strictState with cursor := 18 })).map (fun t => (t.reg, t.cursor)) = some ([], 19)
    ∧ (after? (exec (.wr 0x44) { strictState with cursor := 21 })).map (fun t => (t.reg, t.wrBurstOk))
      = some ([(21, 0x44)], true) := by decide +kernel
/-- V30: an aligned read gives the whole register, whatever the count. -/
theorem test_rd_aligned : (after? (exec (.rd 0) { withReg [(6, 0xB4), (7, 0x41)] with cursor := 4 })).map
    (fun t => (t.answer.rsp, t.cursor, t.busState)) = some (some [0x00, 0x00, 0xB4, 0x41], 8, .transmitting) := by
  decide +kernel
/-- V31: a misaligned read gives zero bytes and stays. -/
theorem test_rd_misaligned : (after? (exec (.rd 4) { State.reset with cursor := 5 })).map
    (fun t => (t.answer.rsp, t.cursor, t.busState, t.answer.raised))
    = some (some [], 5, .transmitting, some (.protocolMisalignment 5)) := by decide +kernel
theorem test_end : (after? (exec .endTx { State.reset with cursor := 21, busState := .receiving, wrBurstOk := true })).map
    (fun t => (t.cursor, t.busState, t.wrBurstOk)) = some (21, .idle, false) := by decide +kernel

/-- 30 R101: the events of `WRITE_U32 INTERVAL, 5000`, and their words. -/
theorem test_pseudo_writeU32 :
    (Pseudo.expand defaultParams (.writeU32 8 5000)).map encodeInstr
      = [.ev 0x111, .ev 0x288, .ev 0x213, .ev 0x200, .ev 0x200, .ev 0x000] := by decide +kernel

/-! ## ConfigPersistence (V40 to V52) -/

/-- V49. -/
theorem test_crc32 : ret? (exec (.crc32 [0x31, 0x32, 0x33, 0x34, 0x35, 0x36, 0x37, 0x38, 0x39]) State.reset)
    = some (.crc 0xCBF43926) := by decide +kernel
theorem test_crc32_short : crc32 [] = 0x00000000 ∧ crc32 [0x00] = 0xD202EF8D ∧ crc32 [0xFF] = 0xFF000000
    ∧ crc32ByTable [0x61] = 0xE8B7BE43 := by decide +kernel
/-- V46: SAVE of INTERVAL = 5000. -/
theorem test_save : (after? (exec .save (withReg [(17, 0x88), (18, 0x13)]))).map
    (fun t => (t.nv.readN 0 5, t.nv.readN 18 4, t.reg.read 12))
    = some ([0xA5, 0x88, 0x13, 0x00, 0x00], [0xA7, 0xFF, 0x9C, 0x5A], 0x08) := by decide +kernel
/-- V47: saving what the store holds writes no data byte, the CRC and the signature only. -/
theorem test_save_unchanged : (after? (exec .save { v40Stored with reg := Memory.writeN [] 17 v40Config })).map
    (fun t => (t.nv, t.wear)) = some (v40Stored.nv, 5) := by decide +kernel
/-- V41: RESTORE of a valid store. -/
theorem test_restore_valid : (after? (exec .restore v40Stored)).map
    (fun t => (t.reg.readN 17 17, t.reg.read 12, t.answer.ret))
    = some (v40Config.take 16 ++ [0x03], 0x08, some (.bool true)) := by decide +kernel
/-- V45: RESTORE of a store with a bad CRC. -/
theorem test_restore_corrupt :
    (after? (exec .restore { withReg [(12, 0x08), (17, 0x01)] with nv := v40Stored.nv.write 18 0x5B })).map
    (fun t => (t.reg, t.answer.ret)) = some ([(17, 0x01)], some (.bool false)) := by decide +kernel
/-- V48. -/
theorem test_resetConfig : (after? (exec .resetConfig { v40Stored with reg := [(12, 0x08), (17, 0x88)] })).map
    (fun t => (t.nv, t.reg)) = some ([], [(17, 0x88)]) := by decide +kernel
/-- 44 R218, R220: the optional blocks are written and zeroed with the main block. -/
theorem test_optional_blocks :
    (after? (exec .save blocksState)).map (fun t => t.nv.readN 22 4) = some [0xA5, 0x28, 0xA5, 0x16]
    ∧ (after? (exec .resetConfig { blocksState with nv := [(22, 0xA5), (23, 0x28), (24, 0xA5), (25, 0x16)] })).map
      (fun t => t.nv) = some [] := by decide +kernel

/-! ## The services, reset and faults (V50 to V60) -/

/-- V40. -/
theorem test_serviceTriggers_save : (after? (exec .serviceTriggers v40State)).map
    (fun t => (t.nv.readN 0 42, t.reg.read 33, t.reg.read 12))
    = some (v40Store ++ List.replicate 20 0x00, 0x03, 0x08) := by decide +kernel
/-- V54: SAVE, then RESETCONFIG. -/
theorem test_serviceTriggers_both : (after? (exec .serviceTriggers (withReg [(17, 0x88), (18, 0x13), (33, 0x19)]))).map
    (fun t => (t.nv, t.reg)) = some ([], [(17, 0x88), (18, 0x13), (33, 0x01)]) := by decide +kernel
theorem test_sensorUpdate_ok : regs? (exec (.sensorUpdate (.ok 0x41B40000 0x42340000)) State.reset) 4 9
    = some [0x00, 0x00, 0xB4, 0x41, 0x00, 0x00, 0x34, 0x42, 0x00] := by decide +kernel
theorem test_sensorUpdate_error : (after? (exec (.sensorUpdate .noReading) (withReg [(6, 0xB4), (12, 0x01)]))).map
    (fun t => t.reg) = some [(6, 0xB4), (12, 0x11)] := by decide +kernel
/-- V51: REG_RESET all 0x11 and a crafted store of zeros. -/
theorem test_boot_crafted :
    (after? (step { State.reset with
      params := { defaultParams with regReset := List.replicate 36 0x11 }
      nv := Memory.ofBytes ([0xA5] ++ List.replicate 17 0x00 ++ [0xBD, 0xF1, 0xEF, 0xC9]), inbox := [.reset] })).map
      (fun t => t.reg.readN 0 36)
    = some (List.replicate 12 0x11 ++ [0x19] ++ List.replicate 4 0x11 ++ List.replicate 17 0x00 ++ [0x11, 0x11]) := by
  decide +kernel
/-- V52: a trigger bit in the stored CONFIG comes back. -/
theorem test_boot_triggers :
    (after? (step { State.reset with
      nv := Memory.ofBytes ([0xA5] ++ List.replicate 16 0x00 ++ [0x1F, 0x48, 0xFC, 0xE7, 0x44]), inbox := [.reset] })).map
      (fun t => t.reg) = some [(12, 0x08), (33, 0x1F)] := by decide +kernel
/-- V60: a stopped block answers its fault until the reset. -/
theorem test_fault_sticky :
    (match step { stopped with inbox := [.word (.ev 0x104)] } with | .fault c => some c | _ => none) = some .addrOutOfRange
    ∧ (after? (step { stopped with inbox := [.reset] })).map (fun t => t.fault) = some none := by decide +kernel

/-! ## Witnesses: a state and operands that meet the hypotheses of each statement, clause by clause, at the boundaries -/

/-- Every statement whose one hypothesis is `Ready` holds of this state. -/
theorem test_witness_Ready : State.reset.Ready := by decide +kernel

theorem test_witness_EveryEventWordDecodesByItsKind :
    (0x0FF : BitVec 10) &&& 0x300 = 0x000 ∧ (0x1FF : BitVec 10) &&& 0x300 = 0x100 ∧ (0x200 : BitVec 10) &&& 0x300 = 0x200
    ∧ (0x3FF : BitVec 10) &&& 0x300 = 0x300 := by decide +kernel

theorem test_witness_ReservedNumbersAreRefused :
    let s := { State.reset with inbox := [.word (.op 0x42 [])] }
    s.Ready ∧ s.job = [] ∧ s.inbox = [.word (.op 0x42 [])]
      ∧ decodeInstr (.op 0x42 []) = .error (.reservedOp 0x42) := by decide +kernel

theorem test_witness_StepRunsTheDecodedInstruction :
    (let s := { State.reset with inbox := [.word (.op 0x31 []), .reset] }
     s.inbox = [.word (.op 0x31 []), .reset] ∧ decodeInstr (.op 0x31 []) = .ok .save ∧ s.job = [])
    ∧ (let s := { State.reset with inbox := [.word (.ev 0x3FF)], job := [.saveCrc] }
       s.inbox = [.word (.ev 0x3FF)] ∧ decodeInstr (.ev 0x3FF) = .ok (.rd 0xFF) ∧ s.job ≠ []) := by decide +kernel

theorem test_witness_StepTakesTheScheduledTurn :
    (let s := { splitState with job := [.saveCrc] }; s.Ready ∧ s.job = [.saveCrc] ∧ s.inbox = [])
    ∧ (let s := { splitState with job := [.saveCrc], inbox := [.mainStep, .reset] }
       s.Ready ∧ s.job = [.saveCrc] ∧ s.inbox = [.mainStep, .reset])
    ∧ (let s := { splitState with job := [.saveCrc], inbox := [.reset] }
       s.Ready ∧ s.job = [.saveCrc] ∧ s.inbox = [.reset])
    ∧ (let s := { splitState with job := [.saveCrc], inbox := [.word (.op 0x31 [])] }
       s.Ready ∧ s.job = [.saveCrc] ∧ s.inbox = [.word (.op 0x31 [])])
    ∧ (let s := { stopped with job := [.saveCrc], inbox := [.reset] }; s.inbox = [.reset] ∧ s.fault ≠ none)
    ∧ (let s := { State.reset with inbox := [.reset] }; s.inbox = [.reset] ∧ s.job = [])
    ∧ (State.reset.Ready ∧ State.reset.job = [] ∧ State.reset.inbox = [])
    ∧ (let s := { State.reset with inbox := [.mainStep] }; s.Ready ∧ s.job = [] ∧ s.inbox = [.mainStep]) := by
  decide +kernel

theorem test_witness_EncodeGivesTheLeastSignificantByteFirst :
    State.reset.Ready ∧ (ScalarVal.f32 0x7FC00001).ty = .f32 ∧ 3 < ScalarType.f32.width := by decide +kernel

theorem test_witness_DecodeJoinsTheBytes :
    State.reset.Ready ∧ ([0xFE, 0xFF] : List Byte).length = ScalarType.i16.width ∧ ScalarType.i16 ∈ [ScalarType.i16, .i32, .i64]
    ∧ List.length (List.replicate 8 (0xFF : Byte)) = ScalarType.u64.width
    ∧ ScalarType.u64 ∈ [ScalarType.u8, .u16, .u32, .u64] ∧ ([0x88, 0x13] : List Byte).length ≠ ScalarType.u32.width := by
  decide +kernel

theorem test_witness_CodecMapsAreInverse : ([0x01, 0x00, 0xC0, 0x7F] : List Byte).length = ScalarType.f32.width := by
  decide

theorem test_witness_TotalSizeEndsTheCumulativeLayout : State.reset.Ready ∧ 14 < State.reset.params.regCount := by
  decide +kernel

theorem test_witness_LookupAnswersTheDescriptor :
    State.reset.Ready ∧ 14 < State.reset.params.regCount ∧ State.reset.params.regCount ≤ 15 := by decide +kernel

theorem test_witness_ClassAtFollowsTheRegister :
    State.reset.Ready ∧ 14 < State.reset.params.regCount ∧ inSpan State.reset.params 14 (35 : Address).toNat
    ∧ 8 < State.reset.params.regCount ∧ inSpan State.reset.params 8 (20 : Address).toNat
    ∧ State.reset.params.total ≤ (36 : Address).toNat := by decide +kernel

theorem test_witness_SpansPartitionTheFile :
    defaultParams.wf = true ∧ 35 < defaultParams.total ∧ defaultParams.aligned 35 = true
    ∧ defaultParams.aligned 20 = false := by decide +kernel

theorem test_witness_ReadByteAnswersOrFaults :
    State.reset.Ready ∧ (35 : Address).toNat < State.reset.params.total
    ∧ State.reset.params.total ≤ (36 : Address).toNat := by decide +kernel

theorem test_witness_WriteByteStoresOrFaults :
    State.reset.Ready ∧ (0 : Address).toNat < State.reset.params.total
    ∧ State.reset.params.total ≤ (0xFFFF : Address).toNat := by decide +kernel

theorem test_witness_ReadTypedJoinsTheRegister :
    State.reset.Ready ∧ (14 < State.reset.params.regCount ∧ ScalarType.u8.width = State.reset.params.width 14)
    ∧ ScalarType.u8.width ≠ State.reset.params.width 8 ∧ State.reset.params.regCount ≤ 15 := by decide +kernel

theorem test_witness_WriteTypedStoresTheRegister :
    State.reset.Ready ∧ (ScalarVal.f32 0x41B40000).ty = .f32
    ∧ (4 < State.reset.params.regCount ∧ ScalarType.f32.width = State.reset.params.width 4)
    ∧ ScalarType.f32.width ≠ State.reset.params.width 14 ∧ State.reset.params.regCount ≤ 15
    ∧ ¬ inSpan State.reset.params 4 8 := by decide +kernel

theorem test_witness_BusReadsTheLastTypedWrite :
    State.reset.Ready ∧ 14 < State.reset.params.regCount
    ∧ (ScalarVal.u8 0x16).ty.width = State.reset.params.width 14 := by decide +kernel

theorem test_witness_GetBitAnswersTheBit :
    State.reset.Ready ∧ (12 < State.reset.params.regCount ∧ State.reset.params.width 12 = 1 ∧ 7 ≤ 7)
    ∧ State.reset.params.regCount ≤ 15 ∧ (8 < State.reset.params.regCount ∧ State.reset.params.width 8 ≠ 1) ∧ 7 < 8 := by
  decide +kernel

theorem test_witness_SetBitChangesOneBit :
    State.reset.Ready ∧ (6 < State.reset.params.regCount ∧ State.reset.params.width 6 = 1 ∧ 7 ≤ 7)
    ∧ State.reset.params.regCount ≤ 15 ∧ (8 < State.reset.params.regCount ∧ State.reset.params.width 8 ≠ 1) ∧ 7 < 8 := by
  decide +kernel

theorem test_witness_AdvancingTotalTimesReturns :
    let s := { State.reset with cursor := 35 }; s.Ready ∧ s.cursor.toNat < s.params.total := by decide +kernel

theorem test_witness_AddrSelectsOrFaults :
    State.reset.Ready ∧ (0x23 : Byte).toNat < State.reset.params.total
    ∧ State.reset.params.total ≤ (0x24 : Byte).toNat := by decide +kernel

theorem test_witness_WrStoresWhereTheClassIsWritable :
    (let s := { State.reset with cursor := 35 }
     s.Ready ∧ s.cursor.toNat < s.params.total ∧ s.params.strictContWrite = false
       ∧ s.params.writableAt s.cursor.toNat = true)
    ∧ State.reset.params.writableAt State.reset.cursor.toNat = false := by decide +kernel

theorem test_witness_WrUnderTheStrictPolicy :
    let s := { strictState with cursor := 18 }
    s.Ready ∧ s.cursor.toNat < s.params.total ∧ s.params.strictContWrite = true
      ∧ s.params.writableAt s.cursor.toNat = true ∧ s.wrBurstOk = false := by decide +kernel

theorem test_witness_PoliciesAgreeOnAlignedBursts :
    State.reset.Ready ∧ State.reset.params.aligned (0x11 : Byte).toNat = true
    ∧ State.reset.params.aligned (0x23 : Byte).toNat = true := by decide +kernel

theorem test_witness_RdAnswersTheRegisterOrNothing :
    (let s := { State.reset with cursor := 35 }
     s.Ready ∧ 14 < s.params.regCount ∧ s.cursor.toNat = s.params.off 14)
    ∧ (let s := { State.reset with cursor := 20 }
       s.Ready ∧ 8 < s.params.regCount ∧ s.params.off 8 < s.cursor.toNat
         ∧ s.cursor.toNat < s.params.off 8 + s.params.width 8) := by decide +kernel

theorem test_witness_BusEventsRefuseAnInvalidCursor :
    let s := { State.reset with cursor := 36 }; s.Ready ∧ s.params.total ≤ s.cursor.toNat := by decide +kernel

theorem test_witness_BusStateGatesNothing :
    let s := { State.reset with cursor := 35 }
    s.Ready ∧ s.cursor.toNat < s.params.total ∧ decodeInstr (.ev 0x216) = .ok (.wr 0x16)
      ∧ ((after? (exec (.wr 0x16) s)).map fun t => t.fault) = some none := by decide +kernel

theorem test_witness_BusEventsStayInTheBusDomain :
    let s := { State.reset with cursor := 12, inbox := [.word (.ev 0x2FF)] }
    s.inbox = [.word (.ev 0x2FF)] ∧ (∃ t, step s = .next t) ∧ s.params.writableAt 12 = false :=
  ⟨rfl, next_of (by decide +kernel), by decide +kernel⟩

theorem test_witness_EveryEventHasANextState :
    let s := { State.reset with cursor := 35, inbox := [.word (.ev 0x3FF)] }
    s.Inv ∧ s.fault = none ∧ s.inbox = [.word (.ev 0x3FF)] := by decide +kernel

theorem test_witness_ReadAtAndReadAtStopAgree :
    State.reset.Ready ∧ (0x23 : Byte).toNat < State.reset.params.total := by decide +kernel

theorem test_witness_ImageConcatenatesThePersistedRegisters :
    State.reset.params.persist[4]? = some .config ∧ 0 < State.reset.params.widthOf .config
    ∧ State.reset.params.persist[3]? = some .startDelay ∧ 3 < State.reset.params.widthOf .startDelay := by decide +kernel

theorem test_witness_SaveStoresTheImage :
    blocksState.Ready ∧ blocksState.params.persistAtomic = true ∧ blocksState.params.persistAddr = true
    ∧ blocksState.params.persistModel = true ∧ ¬ inMainBlock blocksState.params 26
    ∧ ¬ inOptionalBlock blocksState.params 26 := by decide +kernel

theorem test_witness_SaveWritesOnlyWhatDiffers :
    v40State.Ready ∧ v40State.params.persistAtomic = true ∧ v40State.params.persistAddr = false
    ∧ v40State.params.persistModel = false := by decide +kernel

theorem test_witness_RepeatedSaveKeepsTheStore :
    v40State.Inv ∧ v40State.fault = none ∧ v40State.params.persistAtomic = true ∧ v40State.params.plainPersist := by
  decide +kernel

theorem test_witness_SplitSaveStartsItsSubSteps : splitState.Ready ∧ splitState.params.persistAtomic = false := by
  decide +kernel

theorem test_witness_SplitOperationsRefineTheAtomicOnes :
    (let s := { splitState with job := saveMicros splitState.params }
     s.Ready ∧ s.inbox = [] ∧ s.job = saveMicros s.params)
    ∧ (let s := { splitState with job := serviceMicros, reg := [(33, 0x18)] }
       s.Ready ∧ s.inbox = [] ∧ s.job = serviceMicros) := by decide +kernel

theorem test_witness_StoredCrcMatchesTheStoredData :
    let s := { splitState with job := [.saveCrc, .saveSig] }
    s.Ready ∧ s.inbox = [] ∧ s.job = [.saveCrc, .saveSig] := by decide +kernel

/-- The store of V40 is valid, the all-zero store is not. -/
theorem test_witness_validMainBlock : validMainBlock v40Stored ∧ ¬ validMainBlock State.reset := by
  unfold validMainBlock; decide +kernel

theorem test_witness_RestoreIsAllOrNothing :
    (v40Stored.Ready ∧ validMainBlock v40Stored ∧ v40Stored.params.plainPersist
      ∧ v40Stored.params.persist[4]? = some .config ∧ 0 < v40Stored.params.widthOf .config
      ∧ ¬ takenByOptionalBlock v40Stored (v40Stored.params.offOf .config + 0)
      ∧ (∀ n ∈ v40Stored.params.persist, ¬ inSpan v40Stored.params (v40Stored.params.idOf n) 35)
      ∧ 35 ≠ v40Stored.params.offOf .status ∧ ¬ takenByOptionalBlock v40Stored 35)
    ∧ State.reset.Ready ∧ ¬ validMainBlock State.reset :=
  ⟨⟨by decide +kernel, test_witness_validMainBlock.1, by decide +kernel, by decide +kernel, by decide +kernel,
    by unfold takenByOptionalBlock; decide +kernel, by decide +kernel, by decide +kernel,
    by unfold takenByOptionalBlock; decide +kernel⟩, by decide +kernel, test_witness_validMainBlock.2⟩

theorem test_witness_OptionalBlocksAreIndependent :
    let s := { blocksState with nv := [(22, 0xA5), (23, 0x28), (24, 0xA5)] }
    s.Ready ∧ s.params.persistAddr = true ∧ s.nv.read s.params.nvAblk = s.params.sigAddr
      ∧ s.params.persistModel = true ∧ s.nv.read s.params.nvMblk = s.params.sigModel := by decide +kernel

theorem test_witness_ResetConfigErasesTheStore :
    blocksState.Ready ∧ inMainBlock blocksState.params 0 ∧ inMainBlock blocksState.params 21
    ∧ inOptionalBlock blocksState.params 25 ∧ ¬ inMainBlock blocksState.params 26
    ∧ ¬ inOptionalBlock blocksState.params 26 := by decide +kernel

theorem test_witness_SavedConfigurationSurvivesPowerCycle :
    v40State.Ready ∧ v40State.params.persistAtomic = true ∧ v40State.params.plainPersist ∧ v40State.job = []
    ∧ RegName.config ∈ v40State.params.persist := by decide +kernel

theorem test_witness_OneChangedByteIsRejected :
    v40Stored.Ready ∧ validMainBlock v40Stored ∧ (inMainBlock v40Stored.params 0 ∧ 0xA4 ≠ v40Stored.nv.read 0)
    ∧ (inMainBlock v40Stored.params 17 ∧ 0x07 ≠ v40Stored.nv.read 17)
    ∧ (inMainBlock v40Stored.params 21 ∧ 0xA4 ≠ v40Stored.nv.read 21)
    ∧ v40Stored.params.persistAddr = false ∧ v40Stored.params.persistModel = false :=
  ⟨by decide +kernel, test_witness_validMainBlock.1, by decide +kernel⟩

theorem test_witness_ServiceTriggersActsAndClears :
    (State.reset.Ready ∧ State.reset.params.persistAtomic = true
      ∧ State.reset.configBit State.reset.params.configBits.writeConfig = false
      ∧ State.reset.configBit State.reset.params.configBits.resetConfig = false)
    ∧ (v40State.Ready ∧ v40State.configBit v40State.params.configBits.writeConfig = true
      ∧ v40State.configBit v40State.params.configBits.resetConfig = false)
    ∧ (let s := withReg [(33, 0x19)]; s.Ready ∧ s.configBit s.params.configBits.resetConfig = true) := by decide +kernel

theorem test_witness_PowerOnResetRestartsTheBlock :
    (let s := { State.reset with inbox := [.reset] }; s.params.wf = true ∧ s.inbox = [.reset] ∧ s.job = [])
    ∧ (let s := { stopped with inbox := [.reset], job := [.saveCrc] }
       s.params.wf = true ∧ s.inbox = [.reset] ∧ s.fault ≠ none) := by decide +kernel

theorem test_witness_BootRestoresOrKeepsDefaults :
    (let s := { v40Stored with inbox := [.reset] }
     s.params.wf = true ∧ s.inbox = [.reset] ∧ s.job = [] ∧ s.params.plainPersist ∧ validMainBlock s
       ∧ ¬ takenByOptionalBlock s 35)
    ∧ (let s := { blocksState with inbox := [.reset], nv := [(22, 0xA5), (23, 0x28), (24, 0xA5)] }
       s.params.wf = true ∧ s.inbox = [.reset] ∧ s.job = [] ∧ s.params.plainPersist ∧ ¬ validMainBlock s
         ∧ takenByOptionalBlock s 35 ∧ s.params.persistAddr = true ∧ s.nv.read s.params.nvAblk = s.params.sigAddr)
    ∧ (let s := { v40Stored with inbox := [.reset], fault := some .addrOutOfRange, job := [.saveCrc] }
       s.params.wf = true ∧ s.inbox = [.reset] ∧ s.fault ≠ none ∧ s.job ≠ [] ∧ s.params.plainPersist ∧ validMainBlock s
         ∧ 7 ≠ s.params.statusBits.configSaved) := by
  unfold validMainBlock takenByOptionalBlock; decide +kernel

theorem test_witness_FaultIsStickyUntilReset :
    let s := { stopped with inbox := [.word (.ev 0x104), .reset] }
    s.params.wf = true ∧ s.fault = some .addrOutOfRange ∧ ∀ rest, s.inbox ≠ .reset :: rest :=
  ⟨by decide +kernel, rfl, by intro rest h; simp at h⟩

theorem test_witness_IllFormedCallsAreRefused :
    State.reset.Ready ∧ (Instr.setBit 6 8 true).wf = false ∧ 7 < (8 : Byte).toNat
    ∧ (let s := { State.reset with inbox := [.word (.op 0x00 [.ty 8, .val (.u64 0)])] }
       s.Ready ∧ s.job = [] ∧ decodeInstr (.op 0x00 [.ty 8, .val (.u64 0)]) = .error (.notCodecType 8))
    ∧ ({ State.reset with params := { defaultParams with signature := 0x00 } } : State).params.wf = false := by
  decide +kernel

theorem test_witness_NoStepChangesTheParameters : ∃ t, step { State.reset with inbox := [.word (.op 0x31 [])] } = .next t :=
  next_of (by decide +kernel)

theorem test_witness_OnlyPersistenceWritesTheStore :
    (∃ t, exec .restore v40Stored = .next t) ∧ Instr.restore ≠ .save ∧ Instr.restore ≠ .resetConfig
    ∧ Instr.restore ≠ .serviceTriggers :=
  ⟨next_of (by decide +kernel), by decide, by decide, by decide⟩

theorem test_witness_OnlyFiveInstructionsMoveTheCursor :
    (∃ t, exec .endTx { State.reset with cursor := 21 } = .next t) ∧ (∀ a, Instr.endTx ≠ .addr a)
    ∧ (∀ b, Instr.endTx ≠ .wr b) ∧ (∀ n, Instr.endTx ≠ .rd n) ∧ Instr.endTx ≠ .resetCursor
    ∧ Instr.endTx ≠ .advanceCursor :=
  ⟨next_of (by decide +kernel), by simp, by simp, by simp, by simp, by simp⟩

theorem test_witness_OnlyWritersChangeTheRegisterFile :
    (∃ t, exec (.rd 4) (withReg [(0, 0x2A)]) = .next t) ∧ (∀ b, Instr.rd 4 ≠ .wr b)
    ∧ (∀ a b, Instr.rd 4 ≠ .writeByte a b) ∧ (∀ T r v, Instr.rd 4 ≠ .writeTyped T r v)
    ∧ (∀ r k x, Instr.rd 4 ≠ .setBit r k x) ∧ Instr.rd 4 ≠ .save ∧ Instr.rd 4 ≠ .restore ∧ Instr.rd 4 ≠ .resetConfig
    ∧ Instr.rd 4 ≠ .serviceTriggers ∧ ∀ res, Instr.rd 4 ≠ .sensorUpdate res :=
  ⟨next_of (by decide +kernel), by simp, by simp, by simp, by simp, by simp, by simp, by simp, by simp, by simp⟩

theorem test_witness_EveryStepKeepsTheInvariant :
    let s := { v40State with inbox := [.word (.op 0x40 [])] }; s.Inv ∧ ∃ t, step s = .next t :=
  ⟨by decide +kernel, next_of (by decide +kernel)⟩

end Sys2Proof.Tests
end

/-! PROOF. Two ways to speak of a step's outcome without unfolding it: what holds of the next state it answers, and that
every instruction and every turn but a reset first asks whether the block may take a step (00 R8, 10 R30). -/

namespace Sys2Proof.Machine

/-! A property of the next state, carried through the shared endings of a step -/

/-- `P` holds of the next state, if the outcome is one. -/
def NextHolds (P : State → Prop) (o : StepOutcome) : Prop := ∀ t, o = .next t → P t

section NextHolds

variable {P : State → Prop} {s : State} {k : StepOutcome}

theorem nextHolds_next (h : P s) : NextHolds P (.next s) := by
  rintro t ⟨⟩
  exact h

theorem nextHolds_refused (e : Refusal) : NextHolds P (.refused e) := by
  rintro t ⟨⟩

theorem nextHolds_finish {ans : Answer} (h : P { s with answer := ans }) : NextHolds P (finish s ans) :=
  nextHolds_next h

theorem nextHolds_takeFault {c : Fault} {x : Cause}
    (h : P { s with fault := some c, answer := { raised := some x } }) : NextHolds P (takeFault c x s) :=
  nextHolds_next h

theorem nextHolds_ite {c : Prop} [Decidable c] {k' : StepOutcome} (h : c → NextHolds P k) (h' : ¬ c → NextHolds P k') :
    NextHolds P (if c then k else k') := by
  split
  · next hc => exact h hc
  · next hc => exact h' hc

theorem nextHolds_admitted (h : s.Ready → NextHolds P k) : NextHolds P (admitted s k) := fun t ht =>
  have ⟨hr, hk⟩ := admitted_next ht
  h hr t hk

theorem nextHolds_typedCall {T : ScalarType} {r : Nat}
    (h : r < s.params.regCount → T.width = s.params.width r → NextHolds P k) : NextHolds P (typedCall T r s k) :=
  fun t ht =>
    have ⟨⟨hr, hw⟩, hk⟩ := typedCall_next ht
    h hr hw t hk

theorem nextHolds_bitCall {r i : Nat} (h : r < s.params.regCount → NextHolds P k) :
    NextHolds P (bitCall r i s k) := fun t ht =>
  have ⟨⟨hr, _, _⟩, hk⟩ := bitCall_next ht
  h hr t hk

end NextHolds

/-! Who asks whether the block may take a step -/

/-- Every instruction does. -/
theorem exec_eq_admitted (i : Instr) (s : State) : ∃ k, exec i s = admitted s k := by
  cases i <;> exact ⟨_, rfl⟩

/-- Every turn but a reset does. -/
theorem step_eq_admitted {s : State} (h : (fetch s).1 ≠ .reset) : ∃ k, step s = admitted (fetch s).2 k := by
  unfold step
  split
  · next t ht => rw [ht]; exact ⟨_, rfl⟩
  · next t ht => rw [ht]; exact ⟨_, rfl⟩
  · next t ht => exact absurd (congrArg Prod.fst ht) h
  · next i t ht => rw [ht]; exact exec_eq_admitted i t
  · next e t ht => rw [ht]; exact ⟨_, rfl⟩

theorem mainTurn_ne_reset (s : State) : mainTurn s ≠ .reset := by
  unfold mainTurn; split <;> simp

theorem turnOf_ne_reset (p : PortWord) : turnOf p ≠ .reset := by
  unfold turnOf; split <;> simp

/-- A reset is taken only when it is the next input. -/
theorem inbox_of_fetch_reset {s : State} (h : (fetch s).1 = .reset) : ∃ rest, s.inbox = .reset :: rest := by
  unfold fetch at h
  split at h
  · exact (mainTurn_ne_reset s h).elim
  · exact (mainTurn_ne_reset s h).elim
  · next rest hi => exact ⟨rest, hi⟩
  · next w _ _ => exact (turnOf_ne_reset (.ev w) h).elim
  · split at h
    · exact (turnOf_ne_reset _ h).elim
    · cases h

@[simp] theorem fetch_params (s : State) : (fetch s).2.params = s.params := by
  obtain h | ⟨_, _, _, h⟩ := fetch_snd s <;> rw [h]

@[simp] theorem fetch_fault (s : State) : (fetch s).2.fault = s.fault := by
  obtain h | ⟨_, _, _, h⟩ := fetch_snd s <;> rw [h]

/-- Settles O53: every instruction, and every turn but a reset, goes through `admitted`, which answers the marker. -/
theorem faultIsStickyUntilReset : Obligations.FaultIsStickyUntilReset := by
  intro s c hw hf
  refine ⟨fun i => ?_, fun hinbox => ?_⟩
  · obtain ⟨k, hk⟩ := exec_eq_admitted i s
    rw [hk, admitted_stopped hw hf]
  · have hturn : (fetch s).1 ≠ .reset := fun h =>
      have ⟨rest, hrest⟩ := inbox_of_fetch_reset h
      hinbox rest hrest
    obtain ⟨k, hk⟩ := step_eq_admitted hturn
    rw [hk, admitted_stopped (by simpa using hw) (by simpa using hf)]

end Sys2Proof.Machine

/-! PROOF. The invariant of a run (10 R35 (a), (b)): it holds at reset, every update the operations are written with keeps
it, hence so does every operation, every instruction and every step. -/

namespace Sys2Proof

/-- What the store's size bounds: every address a rule writes lies inside (00 R8, 20 R70). -/
theorem Params.store_bounds {p : Params} (h : p.wf = true) :
    p.nvSig < p.nvSize ∧ p.nvData + p.plen ≤ p.nvSize ∧ p.nvCrc + 4 ≤ p.nvSize ∧ p.nvAblk + 2 ≤ p.nvSize
      ∧ p.nvMblk + 2 ≤ p.nvSize := by
  have hu := (Params.wf_spec h).nvUsed_le
  unfold Params.nvUsed at hu
  omega

/-- A declared register's first byte lies inside the register file. -/
theorem Params.off_lt_total {p : Params} (h : p.wf = true) {r : Nat} (hr : r < p.regCount) : p.off r < p.total := by
  have hpos := Params.width_pos h hr
  have hend := p.off_add_width_le_total hr
  omega

end Sys2Proof

namespace Sys2Proof.Machine

section KeepsInvariant

variable {s : State}

/-! What the invariant gives -/

theorem State.Inv.params_wf (h : s.Inv) : s.params.wf = true := h.1

theorem State.Inv.wf_spec (h : s.Inv) : s.params.Wf := Params.wf_spec h.params_wf

theorem State.Inv.cursor_lt (h : s.Inv) : s.cursor.toNat < s.params.total := h.2.1

theorem State.Inv.status_declared (h : s.Inv) : s.params.idOf .status < s.params.regCount :=
  s.params.declared_of_width_one h.wf_spec.status_width

theorem State.Inv.config_declared (h : s.Inv) : s.params.idOf .config < s.params.regCount :=
  s.params.declared_of_width_one h.wf_spec.config_width

/-- The cursor may be set to any address of the register file. -/
theorem State.Inv.withCursor (h : s.Inv) {a : Address} (ha : a.toNat < s.params.total) :
    State.Inv { s with cursor := a } :=
  have ⟨hwf, _, hspaces⟩ := h
  ⟨hwf, ha, hspaces⟩

/-! The updates every operation is written with -/

theorem State.Inv.regWrite (h : s.Inv) {a : Nat} (ha : a < s.params.total) (b : Byte) :
    State.Inv { s with reg := s.reg.write a b } := by
  obtain ⟨hwf, hcur, hregWf, hregBelow, hnv⟩ := h
  exact ⟨hwf, hcur, Memory.write_wf hregWf a b, Memory.write_below hregBelow ha b, hnv⟩

theorem State.Inv.putBytes (h : s.Inv) {r : Nat} {bs : List Byte} (hr : r < s.params.regCount)
    (hl : bs.length = s.params.width r) : (s.putBytes r bs).Inv := by
  obtain ⟨hwf, hcur, hregWf, hregBelow, hnv⟩ := h
  have hend := s.params.off_add_width_le_total hr
  exact ⟨hwf, hcur, Memory.writeN_wf hregWf _ bs, Memory.writeN_below hregBelow (by omega), hnv⟩

theorem State.Inv.putBit (h : s.Inv) {r : Nat} (hr : r < s.params.regCount) (i : Nat) (x : Bool) :
    (s.putBit r i x).Inv :=
  h.regWrite (Params.off_lt_total h.params_wf hr) _

theorem State.Inv.putStatus (h : s.Inv) (i : Nat) (x : Bool) : (s.putStatus i x).Inv :=
  h.putBit h.status_declared i x

theorem State.Inv.putConfig (h : s.Inv) (i : Nat) (x : Bool) : (s.putConfig i x).Inv :=
  h.putBit h.config_declared i x

theorem State.Inv.putConfigSaved (h : s.Inv) (x : Bool) : (s.putConfigSaved x).Inv := h.putStatus _ x

theorem State.Inv.nvWrite (h : s.Inv) {a : Nat} (ha : a < s.params.nvSize) (b : Byte) : (s.nvWrite a b).Inv := by
  obtain ⟨hwf, hcur, hregWf, hregBelow, hnvWf, hnvBelow⟩ := h
  exact ⟨hwf, hcur, hregWf, hregBelow, Memory.write_wf hnvWf a b, Memory.write_below hnvBelow ha b⟩

theorem State.Inv.nvUpdate (h : s.Inv) {a : Nat} (ha : a < s.params.nvSize) (b : Byte) : (s.nvUpdate a b).Inv := by
  unfold State.nvUpdate
  split
  · exact h
  · exact h.nvWrite ha b

theorem State.Inv.nvWriteN (h : s.Inv) {a : Nat} {bs : List Byte} (ha : a + bs.length ≤ s.params.nvSize) :
    (s.nvWriteN a bs).Inv := by
  induction bs generalizing s a with
  | nil => exact h
  | cons b bs ih =>
    rw [List.length_cons] at ha
    exact ih (h.nvWrite (by omega) b) (by rw [State.nvWrite_params]; omega)

/-- The cursor moves modulo TOTAL (10 R26), which fits sixteen bits. -/
theorem State.Inv.advance (h : s.Inv) (k : Nat) : (s.advance k).Inv := by
  have hpos := h.wf_spec.one_le_total
  have hle := h.wf_spec.total_le
  have hmod : (s.cursor.toNat + k) % s.params.total < s.params.total := Nat.mod_lt _ hpos
  refine h.withCursor ?_
  rw [BitVec.toNat_ofNat, Nat.mod_eq_of_lt (by omega)]
  exact hmod

theorem onVariant_inv (on : Bool) {f : State → State} (hf : (f s).Inv) (h : s.Inv) : (onVariant on f s).Inv := by
  unfold onVariant
  split
  · exact hf
  · exact h

@[simp] theorem onVariant_saveBlock_params (s : State) (on : Bool) (base : Nat) (sig : Byte) (n : RegName) :
    (onVariant on (State.saveBlock base sig n) s).params = s.params := by
  rw [onVariant_eq _ _ _ fun t => t.saveBlock_eq base sig n]

@[simp] theorem onVariant_nvWriteN_params (s : State) (on : Bool) (a : Nat) (bs : List Byte) :
    (onVariant on (State.nvWriteN a bs) s).params = s.params := by
  rw [State.nvWriteN_onVariant_eq]

/-! SAVE (44 R215, R218) -/

theorem State.Inv.saveReg (h : s.Inv) (k : Nat) : (s.saveReg k).Inv := by
  unfold State.saveReg
  split
  · exact h
  · next n hn =>
    simp only
    split
    · exact h
    · have hidx := s.params.idx_add_le_plen hn
      obtain ⟨-, hdata, -⟩ := Params.store_bounds h.params_wf
      exact h.nvWriteN (by rw [State.fieldImage_length]; omega)

theorem State.Inv.saveRegs (h : s.Inv) (m : Nat) : (s.saveRegs m).Inv := by
  induction m with
  | zero => exact h
  | succ m ih => rw [State.saveRegs_succ]; exact ih.saveReg m

theorem State.Inv.saveCrc (h : s.Inv) : s.saveCrc.Inv :=
  have ⟨_, _, hcrc, _⟩ := Params.store_bounds h.params_wf
  h.nvWriteN (by rw [crcBytes_length]; exact hcrc)

theorem State.Inv.saveSig (h : s.Inv) : (s.nvWrite s.params.nvSig s.params.signature).Inv :=
  h.nvWrite (Params.store_bounds h.params_wf).1 _

theorem State.Inv.saveBlock (h : s.Inv) {base : Nat} (hb : base + 2 ≤ s.params.nvSize) (sig : Byte) (n : RegName) :
    (s.saveBlock base sig n).Inv :=
  (h.nvUpdate (by omega) _).nvWrite (by rw [State.nvUpdate_params]; omega) sig

theorem State.Inv.saveBlocks (h : s.Inv) : s.saveBlocks.Inv := by
  obtain ⟨-, -, -, haddr, hmodel⟩ := Params.store_bounds h.params_wf
  have h1 := onVariant_inv s.params.persistAddr (h.saveBlock haddr s.params.sigAddr .deviceAddress) h
  exact onVariant_inv _ (h1.saveBlock (by simpa using hmodel) _ _) h1

theorem State.Inv.save (h : s.Inv) : s.save.Inv := by
  have hcrc := (h.saveRegs s.params.persist.length).saveCrc
  have hp : (s.saveRegs s.params.persist.length).saveCrc.params = s.params := by
    rw [State.saveCrc_params, State.saveRegs_eq]
  have hsig := hcrc.saveSig
  rw [hp] at hsig
  rw [State.save_eq]
  exact hsig.saveBlocks.putConfigSaved true

/-! RESETCONFIG (44 R217, R220) -/

theorem State.Inv.eraseConfig (h : s.Inv) : s.eraseConfig.Inv := by
  obtain ⟨hsig, hdata, hcrc, haddr, hmodel⟩ := Params.store_bounds h.params_wf
  have hmain := ((h.nvWrite hsig 0).nvWriteN (a := s.params.nvData) (bs := List.replicate s.params.plen 0)
    (by simpa using hdata)).nvWriteN (a := s.params.nvCrc) (bs := List.replicate 4 0) (by simpa using hcrc)
  have h1 := onVariant_inv s.params.persistAddr
    (hmain.nvWriteN (a := s.params.nvAblk) (bs := [0, 0]) (by simpa using haddr)) hmain
  exact (onVariant_inv s.params.persistModel
    (h1.nvWriteN (a := s.params.nvMblk) (bs := [0, 0]) (by simpa using hmodel)) h1).putConfigSaved false

/-! RESTORE (44 R216, R219) -/

theorem State.Inv.restoreReg (h : s.Inv) (k : Nat) : (s.restoreReg k).Inv := by
  unfold State.restoreReg
  split
  · exact h
  · next n hn =>
    have hdecl := h.wf_spec.persist_declared n (List.mem_of_getElem? hn)
    exact h.putBytes hdecl (Memory.readN_length ..)

theorem State.Inv.restoreTo (h : s.Inv) (m : Nat) : (s.restoreTo m).Inv := by
  induction m with
  | zero => exact h
  | succ m ih => rw [State.restoreTo_succ]; exact ih.restoreReg m

theorem State.Inv.restoreMain (h : s.Inv) : s.restoreMain.Inv := by
  unfold State.restoreMain
  split
  · exact (h.restoreTo _).putConfigSaved true
  · exact h.putConfigSaved false

/-- An optional block's register is one byte wide, so its address is inside the file. -/
theorem State.Inv.restoreBlock (h : s.Inv) (base : Nat) (sig : Byte) {n : RegName} (hn : s.params.widthOf n = 1) :
    (s.restoreBlock base sig n).Inv := by
  unfold State.restoreBlock
  split
  · exact h.regWrite (Params.off_lt_total h.params_wf (s.params.declared_of_width_one hn)) _
  · exact h

theorem State.Inv.restore (h : s.Inv) : s.restore.Inv := by
  rw [State.restore_eq_blocks]
  have hmain := h.restoreMain
  have h1 := onVariant_inv s.params.persistAddr (hmain.restoreBlock s.params.nvAblk s.params.sigAddr
    hmain.wf_spec.deviceAddress_width) hmain
  exact onVariant_inv s.params.persistModel (h1.restoreBlock s.params.nvMblk s.params.sigModel
    h1.wf_spec.model_width) h1

/-! The sub-steps, the services and power-on (44 R222, 45, 70 R300) -/

theorem State.Inv.microEffect (h : s.Inv) (m : Micro) : (microEffect m s).Inv := by
  cases m with
  | saveReg k => exact h.saveReg k
  | saveCrc => exact h.saveCrc
  | saveSig => exact h.saveSig
  | saveBlocks => exact h.saveBlocks
  | saveFlag => exact h.putConfigSaved true
  | testWrite =>
    simp only [Machine.microEffect]
    split
    · exact h
    · exact h
  | clearWrite => exact h.putConfig _ false
  | testReset =>
    simp only [Machine.microEffect]
    split
    · exact h
    · exact h
  | eraseConfig => exact h.eraseConfig
  | clearReset => exact h.putConfig _ false

theorem State.Inv.serveWrite (h : s.Inv) : s.serveWrite.Inv := by
  unfold State.serveWrite
  split
  · exact h.save.putConfig _ false
  · exact h

theorem State.Inv.serveReset (h : s.Inv) : s.serveReset.Inv := by
  unfold State.serveReset
  split
  · exact h.eraseConfig.putConfig _ false
  · exact h

/-- TEMPERATURE and HUMIDITY are as wide as the patterns written to them (45 R252). -/
theorem State.Inv.putReading (h : s.Inv) (t u : Word32) : (s.putReading t u).Inv := by
  have hw := h.wf_spec
  have ht := s.params.lt_regCount_of_idOf (n := .temperature) (by rw [hw.temperature_width]; omega)
  have hu := s.params.lt_regCount_of_idOf (n := .humidity) (by rw [hw.humidity_width]; omega)
  have h1 := h.putBytes ht (bs := (ScalarVal.f32 t).encode)
    ((ScalarVal.encode_length _).trans hw.temperature_width.symm)
  exact h1.putBytes hu (bs := (ScalarVal.f32 u).encode) ((ScalarVal.encode_length _).trans hw.humidity_width.symm)

theorem State.Inv.powerOn (h : s.Inv) : s.powerOn.Inv := by
  obtain ⟨hwf, -, -, -, hnv⟩ := h
  have hw := Params.wf_spec hwf
  have hbelow := Memory.ofBytes_below s.params.regReset
  rw [hw.regReset_length] at hbelow
  exact ⟨hwf, hw.one_le_total, Memory.ofBytes_wf _, hbelow, hnv⟩

/-! The instructions that change more than the answer -/

theorem execAddr_inv (h : s.Inv) (a : Byte) : NextHolds State.Inv (execAddr a s) :=
  nextHolds_admitted fun _ => nextHolds_ite (fun _ => nextHolds_takeFault h) fun hlt =>
    nextHolds_finish (h.withCursor ((BitVec.toNat_setWidth_of_le (by decide)).trans_lt (Nat.lt_of_not_le hlt)))

theorem execWr_inv (h : s.Inv) (b : Byte) : NextHolds State.Inv (execWr b s) := by
  refine nextHolds_admitted fun _ => ?_
  split
  · exact nextHolds_refused _
  · next c _ =>
    have hstore : State.Inv { s with reg := if storesByte s c then s.reg.write s.cursor.toNat b else s.reg } := by
      split
      · exact h.regWrite h.cursor_lt b
      · exact h
    exact nextHolds_finish (State.Inv.advance hstore 1)

theorem execRd_inv (h : s.Inv) (n : Byte) : NextHolds State.Inv (execRd n s) := by
  refine nextHolds_admitted fun _ => ?_
  split
  · exact nextHolds_refused _
  · exact nextHolds_ite (fun _ => nextHolds_finish (h.advance _)) fun _ => nextHolds_finish h

theorem execWriteByte_inv (h : s.Inv) (a : Address) (b : Byte) : NextHolds State.Inv (execWriteByte a b s) :=
  nextHolds_admitted fun _ => nextHolds_ite (fun _ => nextHolds_takeFault h) fun hlt =>
    nextHolds_finish (h.regWrite (Nat.lt_of_not_le hlt) b)

theorem execWriteTyped_inv (h : s.Inv) (T : ScalarType) (r : Nat) (v : ScalarVal) :
    NextHolds State.Inv (execWriteTyped T r v s) :=
  nextHolds_admitted fun _ => nextHolds_typedCall fun hr hw => nextHolds_ite
    (fun hv => nextHolds_finish (h.putBytes hr (by rw [ScalarVal.encode_length, hv, hw])))
    fun _ => nextHolds_refused _

theorem execSave_inv (h : s.Inv) : NextHolds State.Inv (execSave s) := by
  refine nextHolds_admitted fun _ => nextHolds_finish ?_
  split
  · exact h.save
  · exact h

theorem execServiceTriggers_inv (h : s.Inv) : NextHolds State.Inv (execServiceTriggers s) := by
  refine nextHolds_admitted fun _ => nextHolds_finish ?_
  split
  · exact h.serveWrite.serveReset
  · exact h

theorem execSensorUpdate_inv (h : s.Inv) (res : SensorResult) : NextHolds State.Inv (execSensorUpdate res s) := by
  refine nextHolds_admitted fun _ => ?_
  cases res with
  | ok t u => exact nextHolds_finish (h.putReading t u)
  | noReading => exact nextHolds_finish (h.putStatus _ true)

/-- Every instruction keeps the invariant. -/
theorem exec_inv (h : s.Inv) (i : Instr) : NextHolds State.Inv (exec i s) := by
  cases i with
  | endTx => exact nextHolds_admitted fun _ => nextHolds_finish h
  | addr a => exact execAddr_inv h a
  | wr b => exact execWr_inv h b
  | rd n => exact execRd_inv h n
  | encode T v =>
    exact nextHolds_admitted fun _ => nextHolds_ite (fun _ => nextHolds_finish h) fun _ => nextHolds_refused _
  | decode T bs =>
    exact nextHolds_admitted fun _ => nextHolds_ite (fun _ => nextHolds_finish h) fun _ => nextHolds_refused _
  | lookup r =>
    exact nextHolds_admitted fun _ => nextHolds_ite (fun _ => nextHolds_finish h) fun _ => nextHolds_refused _
  | totalSize => exact nextHolds_admitted fun _ => nextHolds_finish h
  | classAt a =>
    refine nextHolds_admitted fun _ => ?_
    split
    · exact nextHolds_finish h
    · exact nextHolds_refused _
  | readByte a =>
    exact nextHolds_admitted fun _ => nextHolds_ite (fun _ => nextHolds_takeFault h) fun _ => nextHolds_finish h
  | writeByte a b => exact execWriteByte_inv h a b
  | readTyped T r => exact nextHolds_admitted fun _ => nextHolds_typedCall fun _ _ => nextHolds_finish h
  | writeTyped T r v => exact execWriteTyped_inv h T r v
  | getBit r k => exact nextHolds_admitted fun _ => nextHolds_bitCall fun _ => nextHolds_finish h
  | setBit r k x => exact nextHolds_admitted fun _ => nextHolds_bitCall fun hr => nextHolds_finish (h.putBit hr k x)
  | resetCursor =>
    exact nextHolds_admitted fun _ => nextHolds_finish (h.withCursor h.wf_spec.one_le_total)
  | advanceCursor => exact nextHolds_admitted fun _ => nextHolds_finish (h.advance 1)
  | cursor => exact nextHolds_admitted fun _ => nextHolds_finish h
  | crc32 bs => exact nextHolds_admitted fun _ => nextHolds_finish h
  | save => exact execSave_inv h
  | restore => exact nextHolds_admitted fun _ => nextHolds_finish h.restore
  | resetConfig => exact nextHolds_admitted fun _ => nextHolds_finish h.eraseConfig
  | serviceTriggers => exact execServiceTriggers_inv h
  | sensorUpdate res => exact execSensorUpdate_inv h res

/-! The other turns of a step -/

theorem runMicro_inv (h : s.Inv) : NextHolds State.Inv (runMicro s) := by
  refine nextHolds_admitted fun _ => ?_
  split
  · exact nextHolds_finish h
  · next m rest _ => exact nextHolds_finish (State.Inv.microEffect (s := { s with job := rest }) h m)

theorem powerOnReset_inv (h : s.Inv) : NextHolds State.Inv (powerOnReset s) :=
  nextHolds_ite (fun _ => nextHolds_finish h.powerOn.restore) fun _ => nextHolds_refused _

/-- Taking an input keeps the invariant, which does not speak of the inbox. -/
theorem State.Inv.fetch (h : s.Inv) : (fetch s).2.Inv := by
  obtain hf | ⟨_, _, _, hf⟩ := fetch_snd s
  · rw [hf]; exact h
  · rw [hf]; exact h

end KeepsInvariant

/-- Settles O60: each turn of a step keeps the invariant. -/
theorem everyStepKeepsTheInvariant : Obligations.EveryStepKeepsTheInvariant := by
  intro s t h hstep
  have hfetch := h.fetch
  obtain ⟨u, hu, -, rfl⟩ | ⟨u, hu, hmicro⟩ | ⟨u, hu, hreset⟩ | ⟨i, u, hu, hexec⟩ := step_next hstep
  · rw [hu] at hfetch; exact hfetch
  · rw [hu] at hfetch; exact runMicro_inv hfetch t hmicro
  · rw [hu] at hfetch; exact powerOnReset_inv hfetch t hreset
  · rw [hu] at hfetch; exact exec_inv hfetch i t hexec

/-! The state after reset (10 R34, R35) -/

theorem defaultParams_wf : defaultParams.wf = true := by decide +kernel

/-- Settles O59: both spaces of State.reset list no byte, and its cursor is 0. -/
theorem invariantHoldsAtReset : Obligations.InvariantHoldsAtReset :=
  ⟨defaultParams_wf, (Params.wf_spec defaultParams_wf).one_le_total, Memory.nil_wf, List.forall_mem_nil _,
    Memory.nil_wf, List.forall_mem_nil _⟩

/-- The all-zero store holds no signature, so the boot restore of State.reset finds no valid main block (44 R216). -/
theorem reset_mainValid : State.reset.powerOn.mainValid = false := by decide +kernel

/-- The boot restore of the all-zero store leaves the register file at REG_RESET, every byte 0x00. -/
theorem reset_restore_reg : State.reset.powerOn.restore.reg = [] := by decide +kernel

/-- Settles O52: the step is a power-on reset, whose boot restore fails and leaves no byte listed. -/
theorem resetStateIsWhatPowerOnLeaves : Obligations.ResetStateIsWhatPowerOnLeaves := by
  have hstep : step { State.reset with inbox := [.reset] } = powerOnReset State.reset := rfl
  have hraised : State.reset.powerOn.restoreRaised = some .storageCorruption := by
    simp [State.restoreRaised, reset_mainValid]
  unfold Obligations.ResetStateIsWhatPowerOnLeaves
  rw [hstep, powerOnReset_eq defaultParams_wf, reset_restore_reg, hraised]
  rfl

end Sys2Proof.Machine

/-! PROOF. What the steps leave of the two spaces (20 R60, R69, R71): a step is the decoded instruction's meaning and no
more, an instruction that writes neither space keeps both, those that write the register file alone keep the store, and
SAVE repeated finds the store as it would leave it. -/

namespace Sys2Proof.Machine

/-! The step (20 R69, R74) -/

/-- A word is taken when no sub-step is owed, an event word always (log entries 4, 9). -/
theorem fetch_word {s : State} {p : PortWord} {rest : List PortInput} (h : s.inbox = .word p :: rest)
    (hfree : s.job = [] ∨ ∃ w, p = .ev w) : fetch s = (turnOf p, { s with inbox := rest }) := by
  cases p with
  | ev w => simp [fetch, h]
  | op n args =>
    have hjob : s.job = [] := hfree.resolve_right (by simp)
    simp [fetch, h, State.mainFree, hjob]

/-- Settles O5: the turn of a word that decodes is to run its instruction. -/
theorem stepRunsTheDecodedInstruction : Obligations.StepRunsTheDecodedInstruction := by
  intro s p i rest hinbox hdec hfree
  have hturn : turnOf p = .run i := by simp [turnOf, hdec]
  rw [step, fetch_word hinbox hfree, hturn]

/-! Instructions that write neither space (20 R60, 46 R262) -/

/-- The instructions that may write the register file or the store: WR, the writing accessors, the persistence
operations and the services (42, 43, 44, 45). -/
def writesSpace : Instr → Bool
  | .wr _ | .writeByte _ _ | .writeTyped _ _ _ | .setBit _ _ _ | .save | .restore | .resetConfig | .serviceTriggers
  | .sensorUpdate _ => true
  | _ => false

/-- `t` is `s` but for the transport's own state, the marker and the output ports: both spaces, the parameters, what is
owed and the inputs are those of `s`. -/
def KeepsSpaces (s t : State) : Prop :=
  t = { s with
    cursor := t.cursor, busState := t.busState, wrBurstOk := t.wrBurstOk, fault := t.fault, answer := t.answer }

/-- The store and the count of its writes are those of `s`. -/
def KeepsStore (s t : State) : Prop := t.nv = s.nv ∧ t.wear = s.wear

theorem KeepsSpaces.reg {s t : State} (h : KeepsSpaces s t) : t.reg = s.reg := by rw [h]

theorem KeepsSpaces.keepsStore {s t : State} (h : KeepsSpaces s t) : KeepsStore s t := by
  rw [h]
  exact ⟨rfl, rfl⟩

/-- An instruction that writes neither space keeps both. -/
theorem exec_keepsSpaces {i : Instr} (hi : writesSpace i = false) (s : State) :
    NextHolds (KeepsSpaces s) (exec i s) := by
  cases i with
  | wr | writeByte | writeTyped | setBit | save | restore | resetConfig | serviceTriggers | sensorUpdate => cases hi
  | endTx | totalSize | resetCursor | advanceCursor | cursor | crc32 =>
    exact nextHolds_admitted fun _ => nextHolds_finish rfl
  | encode | decode | lookup =>
    exact nextHolds_admitted fun _ => nextHolds_ite (fun _ => nextHolds_finish rfl) fun _ => nextHolds_refused _
  | addr | readByte =>
    exact nextHolds_admitted fun _ => nextHolds_ite (fun _ => nextHolds_takeFault rfl) fun _ => nextHolds_finish rfl
  | readTyped => exact nextHolds_admitted fun _ => nextHolds_typedCall fun _ _ => nextHolds_finish rfl
  | getBit => exact nextHolds_admitted fun _ => nextHolds_bitCall fun _ => nextHolds_finish rfl
  | classAt =>
    refine nextHolds_admitted fun _ => ?_
    split
    · exact nextHolds_finish rfl
    · exact nextHolds_refused _
  | rd =>
    refine nextHolds_admitted fun _ => ?_
    split
    · exact nextHolds_refused _
    · exact nextHolds_ite (fun _ => nextHolds_finish rfl) fun _ => nextHolds_finish rfl

/-- Settles O58: an instruction that is none of the nine writers keeps both spaces. -/
theorem onlyWritersChangeTheRegisterFile : Obligations.OnlyWritersChangeTheRegisterFile := by
  intro i s t hexec hwr hwriteByte hwriteTyped hsetBit hsave hrestore hresetConfig hserve hsensor
  have hi : writesSpace i = false := by
    cases i with
    | wr b => exact absurd rfl (hwr b)
    | writeByte a b => exact absurd rfl (hwriteByte a b)
    | writeTyped T r v => exact absurd rfl (hwriteTyped T r v)
    | setBit r k x => exact absurd rfl (hsetBit r k x)
    | save => exact absurd rfl hsave
    | restore => exact absurd rfl hrestore
    | resetConfig => exact absurd rfl hresetConfig
    | serviceTriggers => exact absurd rfl hserve
    | sensorUpdate res => exact absurd rfl (hsensor res)
    | _ => rfl
  exact (exec_keepsSpaces hi s t hexec).reg

/-! Instructions that write the register file and not the store (20 R60, 45 R256) -/

theorem execWr_keepsStore (b : Byte) (s : State) : NextHolds (KeepsStore s) (execWr b s) := by
  refine nextHolds_admitted fun _ => ?_
  split
  · exact nextHolds_refused _
  · exact nextHolds_finish ⟨rfl, rfl⟩

theorem execSensorUpdate_keepsStore (res : SensorResult) (s : State) :
    NextHolds (KeepsStore s) (execSensorUpdate res s) := by
  refine nextHolds_admitted fun _ => ?_
  cases res with
  | ok t u => exact nextHolds_finish ⟨rfl, rfl⟩
  | noReading => exact nextHolds_finish ⟨rfl, rfl⟩

theorem State.restore_keepsStore (s : State) : KeepsStore s s.restore := by
  rw [State.restore_frame]
  exact ⟨rfl, rfl⟩

/-- Every instruction but the three that store keeps the store. -/
theorem exec_keepsStore {i : Instr} (hsave : i ≠ .save) (hresetConfig : i ≠ .resetConfig)
    (hserve : i ≠ .serviceTriggers) (s : State) : NextHolds (KeepsStore s) (exec i s) := by
  cases i with
  | wr b => exact execWr_keepsStore b s
  | writeByte =>
    exact nextHolds_admitted fun _ => nextHolds_ite (fun _ => nextHolds_takeFault ⟨rfl, rfl⟩) fun _ =>
      nextHolds_finish ⟨rfl, rfl⟩
  | writeTyped =>
    exact nextHolds_admitted fun _ => nextHolds_typedCall fun _ _ => nextHolds_ite
      (fun _ => nextHolds_finish ⟨rfl, rfl⟩) fun _ => nextHolds_refused _
  | setBit => exact nextHolds_admitted fun _ => nextHolds_bitCall fun _ => nextHolds_finish ⟨rfl, rfl⟩
  | save => exact absurd rfl hsave
  | restore => exact nextHolds_admitted fun _ => nextHolds_finish s.restore_keepsStore
  | resetConfig => exact absurd rfl hresetConfig
  | serviceTriggers => exact absurd rfl hserve
  | sensorUpdate res => exact execSensorUpdate_keepsStore res s
  | _ => exact fun t ht => (exec_keepsSpaces rfl s t ht).keepsStore

/-- Settles O56: what writes neither space keeps the store, and so do the six that write the register file alone. -/
theorem onlyPersistenceWritesTheStore : Obligations.OnlyPersistenceWritesTheStore :=
  fun _ s t hexec hsave hresetConfig hserve => exec_keepsStore hsave hresetConfig hserve s t hexec

/-! SAVE repeated (20 R71, 44 R215 (a)) -/

/-- A stored sequence gives an address its own byte, whatever stood there, or leaves it, whatever stands there. -/
theorem Memory.read_writeN_const_or_kept (a : Nat) (bs : List Byte) (x : Nat) :
    (∃ b, ∀ m : Memory, (m.writeN a bs).read x = b) ∨ ∀ m : Memory, (m.writeN a bs).read x = m.read x := by
  by_cases hx : a ≤ x ∧ x < a + bs.length
  · obtain ⟨k, rfl⟩ := Nat.exists_eq_add_of_le hx.1
    exact .inl ⟨bs[k], fun m => Memory.read_writeN_inside m (by omega)⟩
  · exact .inr fun m => Memory.read_writeN_outside m (by omega)

/-- Two sequences stored again, on a space that reads at `x` as they left it, leave `x` as it is. -/
theorem Memory.read_writeN_writeN_again {m m' : Memory} {a b x : Nat} {bs cs : List Byte}
    (h : m'.read x = ((m.writeN a bs).writeN b cs).read x) :
    ((m'.writeN a bs).writeN b cs).read x = ((m.writeN a bs).writeN b cs).read x := by
  obtain ⟨v, hcs⟩ | hcs := Memory.read_writeN_const_or_kept b cs x
  · rw [hcs, hcs]
  · rw [hcs] at h
    rw [hcs, hcs]
    obtain ⟨v, hbs⟩ | hbs := Memory.read_writeN_const_or_kept a bs x
    · rw [hbs, hbs]
    · rw [hbs, h]

/-- SAVE where it is one step. -/
theorem exec_save_atomic {s : State} (h : s.Ready) (hatomic : s.params.persistAtomic = true) :
    exec .save s = .next { s.save with answer := {} } := by
  simp [exec, execSave, admitted_ready h, hatomic]

@[simp] theorem State.save_params (s : State) : s.save.params = s.params := by
  rw [State.save_frame, State.putConfigSaved_params]

@[simp] theorem State.save_fault (s : State) : s.save.fault = s.fault := by
  rw [State.save_frame, State.putConfigSaved_fault]

/-- Of the register file SAVE writes STATUS alone. -/
theorem State.save_reg_read (s : State) {a : Nat} (ha : a ≠ s.params.offOf .status) :
    s.save.reg.read a = s.reg.read a := by
  rw [State.save_frame]
  exact (s.putConfigSaved_read true a).trans (if_neg ha)

/-- No byte of another declared register is that of STATUS. -/
theorem Params.ne_offOf_status {p : Params} (h : p.wf = true) {n : RegName} (hn : p.idOf n < p.regCount)
    (hne : n ≠ .status) {a : Nat} (ha : inSpan p (p.idOf n) a) : a ≠ p.offOf .status := by
  have hwidth := (Params.wf_spec h).status_width
  have hspans := p.named_disjoint hn (p.declared_of_width_one hwidth) hne
  obtain ⟨hlo, hhi⟩ : p.offOf n ≤ a ∧ a < p.offOf n + p.widthOf n := ha
  omega

/-- A register one byte wide keeps its byte over SAVE, unless it is STATUS. -/
theorem State.save_reg_offOf {s : State} (h : s.params.wf = true) {n : RegName} (hwidth : s.params.widthOf n = 1)
    (hne : n ≠ .status) : s.save.reg.read (s.params.offOf n) = s.reg.read (s.params.offOf n) := by
  have hin : inSpan s.params (s.params.idOf n) (s.params.offOf n) := by
    refine ⟨le_refl _, ?_⟩
    change s.params.offOf n < s.params.offOf n + s.params.widthOf n
    omega
  exact s.save_reg_read (Params.ne_offOf_status h (s.params.declared_of_width_one hwidth) hne hin)

/-- SAVE leaves the image it stores, where STATUS is not persisted. -/
theorem State.save_persistImage {s : State} (h : s.params.wf = true) (hstatus : .status ∉ s.params.persist) :
    s.save.persistImage = s.persistImage := by
  have hfield : ∀ n ∈ s.params.persist, s.save.fieldImage n = s.fieldImage n := by
    intro n hn
    have hdecl := (Params.wf_spec h).persist_declared n hn
    have hne : n ≠ .status := fun he => hstatus (he ▸ hn)
    have hbytes : s.save.regBytes (s.params.idOf n) = s.regBytes (s.params.idOf n) := by
      rw [State.regBytes, State.save_params]
      exact Memory.readN_congr fun a hlo hhi => s.save_reg_read (Params.ne_offOf_status h hdecl hne ⟨hlo, hhi⟩)
    simp only [State.fieldImage, State.save_params, hbytes]
  rw [State.persistImage, State.save_params]
  exact List.flatMap_congr hfield

/-- SAVE from a state with the spaces a SAVE left finds every byte of the store as it would leave it. -/
theorem State.save_read_again {s t : State} (h : s.params.wf = true) (hstatus : .status ∉ s.params.persist)
    (hparams : t.params = s.params) (hreg : t.reg = s.save.reg) (hnv : t.nv = s.save.nv) (x : Nat) :
    t.save.nv.read x = t.nv.read x := by
  have hw := Params.wf_spec h
  have himage : t.persistImage = s.persistImage := by
    rw [← State.save_persistImage h hstatus, State.persistImage, State.persistImage, State.save_params, hparams,
      State.fieldImage_congr (hparams.trans s.save_params.symm) hreg]
  rw [t.save_read, hparams, himage, hreg, State.save_reg_offOf h hw.model_width (by decide),
    State.save_reg_offOf h hw.deviceAddress_width (by decide)]
  rw [hnv, s.save_read]
  refine ite_congr rfl (fun _ => rfl) fun hmodelSig => ite_congr rfl (fun _ => rfl) fun hmodel =>
    ite_congr rfl (fun _ => rfl) fun haddrSig => ite_congr rfl (fun _ => rfl) fun haddr =>
    ite_congr rfl (fun _ => rfl) fun hsig => Memory.read_writeN_writeN_again ?_
  rw [s.save_read, if_neg hmodelSig, if_neg hmodel, if_neg haddrSig, if_neg haddr, if_neg hsig]

/-- Settles O38: both spaces are canonical, so a store that reads alike at every address is the same list. -/
theorem repeatedSaveKeepsTheStore : Obligations.RepeatedSaveKeepsTheStore := by
  intro s hinv hfault hatomic ⟨_, hstatus⟩
  have hwf := hinv.params_wf
  have hnext := exec_save_atomic ⟨hwf, hfault⟩ hatomic
  have hnext' := exec_save_atomic (s := { s.save with answer := {} })
    ⟨s.save_params ▸ hwf, s.save_fault.trans hfault⟩ (s.save_params ▸ hatomic)
  have hinv' : State.Inv { s.save with answer := {} } := hinv.save
  have ⟨_, _, _, _, hnvWf, _⟩ := hinv'
  have ⟨_, _, _, _, hnvWf', _⟩ := hinv'.save
  exact ⟨_, _, hnext, hnext',
    Memory.ext_of_read hnvWf' hnvWf (State.save_read_again hwf hstatus s.save_params rfl rfl)⟩

end Sys2Proof.Machine

/-! PROOF. The encodings (30): the decoders undo the encoder on both ports, every event word is of one of the four
kinds, and a number outside the table of 30 R96 is the only one refused as reserved. -/

namespace Sys2Proof

/-! Numbers and tags (30 R96, 40 R120) -/

@[simp] theorem OpName.ofNumber_number (o : OpName) : OpName.ofNumber o.number = some o := by cases o <;> rfl

@[simp] theorem ScalarType.ofTag_tag (T : ScalarType) : ScalarType.ofTag T.tag = some T := by cases T <;> rfl

/-- A number names no operation exactly when it is none of the table's (30 R98). -/
theorem OpName.ofNumber_eq_none_iff {num : Byte} :
    OpName.ofNumber num = none ↔ num ∉ OpName.all.map OpName.number := by
  simp [OpName.ofNumber]

@[simp] theorem withType_tag (T : ScalarType) (k : ScalarType → Instr) : withType T.tag k = .ok (k T) := by
  simp [withType]

theorem withType_ne_reservedOp (tag : Byte) (k : ScalarType → Instr) (num : Byte) :
    withType tag k ≠ .error (.reservedOp num) := by
  unfold withType
  split <;> nofun

/-! The `OP` decoder (30 R96, R98) -/

/-- A call's number is read back, whatever its arguments. -/
theorem decodeInstr_callWord (o : OpName) (args : List Arg) : decodeInstr (callWord o args) = assemble o args := by
  simp [decodeInstr, callWord, decodeOp]

/-- Arguments that do not fit are never refused as a reserved number. -/
theorem assemble_ne_reservedOp (o : OpName) (args : List Arg) (num : Byte) :
    assemble o args ≠ .error (.reservedOp num) := by
  cases o with
  | encode | decode | readTyped | writeTyped =>
    dsimp only [assemble]
    split
    · exact withType_ne_reservedOp _ _ _
    · nofun
  | _ =>
    dsimp only [assemble]
    split <;> nofun

theorem decodeOp_eq_reservedOp_iff {num : Byte} {args : List Arg} :
    decodeOp num args = .error (.reservedOp num) ↔ OpName.ofNumber num = none := by
  unfold decodeOp
  split
  · next o h => simp [h, assemble_ne_reservedOp]
  · next h => simp [h]

/-! The `EV` decoder (30 R91 to R93) -/

theorem evWord_eq_append (kind : BitVec 2) (data : Byte) : evWord kind data = kind ++ data := by
  rw [evWord, BitVec.append_def, BitVec.shiftLeftZeroExtend_eq, BitVec.setWidth'_eq]

@[simp] theorem evWord_extractKind (kind : BitVec 2) (data : Byte) : (evWord kind data).extractLsb' 8 2 = kind := by
  rw [evWord_eq_append, BitVec.extractLsb'_append_eq_of_le (le_refl _)]
  exact BitVec.extractLsb'_eq_self

@[simp] theorem evWord_extractData (kind : BitVec 2) (data : Byte) : (evWord kind data).extractLsb' 0 8 = data := by
  rw [evWord_eq_append, BitVec.extractLsb'_append_eq_of_add_le (by decide)]
  exact BitVec.extractLsb'_eq_self

/-- Every 10-bit word is an event word: its two kind bits over its eight data bits (30 R91). -/
theorem exists_eq_evWord (w : BitVec 10) : ∃ kind data, w = evWord kind data := by
  refine ⟨w.extractLsb' 8 2, w.extractLsb' 0 8, ?_⟩
  have hjoin : w.extractLsb' 8 2 ++ w.extractLsb' 0 8 = w.extractLsb' 0 10 :=
    BitVec.extractLsb'_append_extractLsb'_eq_extractLsb' (by decide)
  rw [evWord_eq_append, hjoin, BitVec.extractLsb'_eq_self]

@[simp] theorem decodeInstr_evWord_endTx (data : Byte) : decodeInstr (.ev (evWord 0#2 data)) = .ok .endTx := by
  simp [decodeInstr, decodeEv]

@[simp] theorem decodeInstr_evWord_addr (a : Byte) : decodeInstr (.ev (evWord 1#2 a)) = .ok (.addr a) := by
  simp [decodeInstr, decodeEv]

@[simp] theorem decodeInstr_evWord_wr (b : Byte) : decodeInstr (.ev (evWord 2#2 b)) = .ok (.wr b) := by
  simp [decodeInstr, decodeEv]

@[simp] theorem decodeInstr_evWord_rd (n : Byte) : decodeInstr (.ev (evWord 3#2 n)) = .ok (.rd n) := by
  simp [decodeInstr, decodeEv]

/-! The statements on the decoder -/

/-- Settles O1: an event's kind and data are read back from its word, a call's number and its type's tag from theirs. -/
theorem decodeOfEncodeIsTheInstruction : Obligations.DecodeOfEncodeIsTheInstruction := by
  intro i
  cases i with
  | endTx => exact decodeInstr_evWord_endTx 0
  | addr a => exact decodeInstr_evWord_addr a
  | wr b => exact decodeInstr_evWord_wr b
  | rd n => exact decodeInstr_evWord_rd n
  | encode T | decode T | readTyped T | writeTyped T =>
    exact (decodeInstr_callWord _ _).trans (withType_tag T _)
  | _ => exact decodeInstr_callWord _ _

/-- Settles O2: a word is two kind bits over eight data bits, and each of the four kinds is decoded to its event. -/
theorem everyEventWordDecodesByItsKind : Obligations.EveryEventWordDecodesByItsKind := by
  intro w
  obtain ⟨kind, data, rfl⟩ := exists_eq_evWord w
  have hkind : kind = 0#2 ∨ kind = 1#2 ∨ kind = 2#2 ∨ kind = 3#2 := by decide +revert
  have hdata : (evWord kind data).setWidth 8 = data := by
    rw [BitVec.setWidth_eq_extractLsb' (by decide), evWord_extractData]
  rw [Laws.OpcodeMatch.evWord_kind, hdata]
  obtain rfl | rfl | rfl | rfl := hkind <;> simp

/-- Settles O4: each word is what the encoder gives its instruction. -/
theorem wordsOfTheSpecDecode : Obligations.WordsOfTheSpecDecode :=
  have h := decodeOfEncodeIsTheInstruction
  ⟨h (.addr 0x11), h (.wr 0x88), h (.wr 0x13), h (.wr 0x00), h (.rd 4), h .endTx,
    h (.writeTyped .u32 8 (.u32 5000)), h .save, h (.sensorUpdate .noReading)⟩

end Sys2Proof

namespace Sys2Proof.Machine

/-- Settles O3: only a number that is none of the table's is refused as reserved, and its turn is to be refused. -/
theorem reservedNumbersAreRefused : Obligations.ReservedNumbersAreRefused := by
  refine ⟨fun num args => decodeOp_eq_reservedOp_iff.trans OpName.ofNumber_eq_none_iff, ?_⟩
  intro s num args rest hready hjob hinbox hdec
  have hturn : turnOf (.op num args) = .reject (.reservedOp num) := by simp [turnOf, hdec]
  rw [step, fetch_word hinbox (.inl hjob), hturn]
  exact admitted_ready (s := { s with inbox := rest }) hready _

end Sys2Proof.Machine

/-! PROOF. The bus events a read is made of (43 R182, R185, R187), each as the state it leaves, and the two expansions of
a read (30 R100). -/

namespace Sys2Proof.Machine

/-! What ADDR, RD and END leave -/

/-- The state ADDR leaves, with an address below TOTAL (43 R182). -/
def State.afterAddr (a : Byte) (s : State) : State :=
  { s with
    cursor := a.setWidth 16, busState := .addressSelected, wrBurstOk := s.params.aligned a.toNat, answer := {} }

/-- The state END leaves (43 R187). -/
def State.afterEnd (s : State) : State := { s with busState := .idle, wrBurstOk := false, answer := {} }

/-- The state RD leaves, with the cursor below TOTAL (43 R185). -/
def State.afterRd (s : State) : State :=
  { s with
    cursor := if s.params.aligned s.cursor.toNat then (s.advance s.cursorWidth).cursor else s.cursor
    busState := .transmitting
    answer :=
      if s.params.aligned s.cursor.toNat then { rsp := some (s.reg.readN s.cursor.toNat s.cursorWidth) }
      else { rsp := some [], raised := some (.protocolMisalignment s.cursor) } }

section Ready
variable {s : State} (h : s.Ready)
include h

theorem exec_addr_ready {a : Byte} (ha : a.toNat < s.params.total) : exec (.addr a) s = .next (s.afterAddr a) := by
  rw [exec, execAddr, admitted_ready h, if_neg (Nat.not_le.mpr ha)]
  rfl

theorem exec_endTx_ready : exec .endTx s = .next s.afterEnd := by
  rw [exec, execEndTx, admitted_ready h]
  rfl

theorem exec_rd_ready (hlt : s.cursor.toNat < s.params.total) (n : Byte) : exec (.rd n) s = .next s.afterRd := by
  rw [exec, execRd, admitted_ready h]
  split
  · next hc => exact absurd (Params.classAt_eq_none_iff.mp hc) (Nat.not_le.mpr hlt)
  · next c hc =>
    have haligned : s.params.aligned s.cursor.toNat = c.aligned := by simp [Params.aligned, hc]
    cases hal : c.aligned <;> simp [State.afterRd, haligned, hal]

end Ready

/-- ADDR selects its address. -/
theorem State.afterAddr_cursor_toNat (s : State) (a : Byte) : (s.afterAddr a).cursor.toNat = a.toNat :=
  BitVec.toNat_setWidth_of_le (by decide)

/-! RD reads none of what END changes: `bus_state` and `wr_burst_ok` (43 R185, R188) -/

theorem State.afterEnd_afterRd_cursor (s : State) : s.afterEnd.afterRd.cursor = s.afterRd.cursor := rfl

theorem State.afterEnd_afterRd_answer (s : State) : s.afterEnd.afterRd.answer = s.afterRd.answer := rfl

/-! Traces (30 R99, R100) -/

theorem runTrace_cons {i : Instr} {is : List Instr} {s t : State} (h : exec i s = .next t) :
    runTrace (i :: is) s = (runTrace is t).map fun u => (u.1, t.answer :: u.2) := by
  rw [runTrace, h]

theorem runTrace_readAt {s : State} (h : s.Ready) {a : Byte} (ha : a.toNat < s.params.total) (n : Byte) :
    runTrace (Pseudo.expand s.params (.readAt a n)) s
      = some ((s.afterAddr a).afterRd.afterEnd, [{}, (s.afterAddr a).afterRd.answer, {}]) := by
  have hcursor : (s.afterAddr a).cursor.toNat < s.params.total := s.afterAddr_cursor_toNat a ▸ ha
  have hrd : exec (.rd n) (s.afterAddr a) = .next (s.afterAddr a).afterRd :=
    exec_rd_ready (s := s.afterAddr a) h hcursor n
  have hend : exec .endTx (s.afterAddr a).afterRd = .next (s.afterAddr a).afterRd.afterEnd := exec_endTx_ready h
  rw [Pseudo.expand, runTrace_cons (exec_addr_ready h ha), runTrace_cons hrd, runTrace_cons hend]
  rfl

theorem runTrace_readAtStop {s : State} (h : s.Ready) {a : Byte} (ha : a.toNat < s.params.total) (n : Byte) :
    runTrace (Pseudo.expand s.params (.readAtStop a n)) s
      = some ((s.afterAddr a).afterEnd.afterRd.afterEnd, [{}, {}, (s.afterAddr a).afterEnd.afterRd.answer, {}]) := by
  have hcursor : (s.afterAddr a).cursor.toNat < s.params.total := s.afterAddr_cursor_toNat a ▸ ha
  have hstop : exec .endTx (s.afterAddr a) = .next (s.afterAddr a).afterEnd := exec_endTx_ready h
  have hrd : exec (.rd n) (s.afterAddr a).afterEnd = .next (s.afterAddr a).afterEnd.afterRd :=
    exec_rd_ready (s := (s.afterAddr a).afterEnd) h hcursor n
  have hend : exec .endTx (s.afterAddr a).afterEnd.afterRd = .next (s.afterAddr a).afterEnd.afterRd.afterEnd :=
    exec_endTx_ready h
  rw [Pseudo.expand, runTrace_cons (exec_addr_ready h ha), runTrace_cons hstop, runTrace_cons hrd, runTrace_cons hend]
  rfl

/-- Settles O33: the END between differs only in what the RD after it does not read. -/
theorem readAtAndReadAtStopAgree : Obligations.ReadAtAndReadAtStopAgree := by
  intro s a n h ha
  refine ⟨_, _, _, _, runTrace_readAt h ha n, runTrace_readAtStop h ha n, ?_, (State.afterEnd_afterRd_cursor _).symm⟩
  rw [State.afterEnd_afterRd_answer]
  simp [responses]

end Sys2Proof.Machine

/-! PROOF. ByteCodec (40): a value's encoding and a sequence's decoding undo each other, and the integer a value of a
signed or an unsigned type stands for is read off its pattern. -/

namespace Sys2Proof

/-! Patterns (40 R120) -/

/-- A pattern lies below `2 ^ (8 * width)`. -/
theorem ScalarVal.pattern_toNat_lt (v : ScalarVal) : v.pattern.toNat < 2 ^ (8 * v.ty.width) :=
  Nat.lt_pow_two_of_testBit _ fun _ hi => v.pattern_getLsbD_of_ge hi

/-- A value of an unsigned type stands for its pattern. -/
theorem ScalarVal.toInt?_of_unsigned {v : ScalarVal} (h : v.ty ∈ [ScalarType.u8, .u16, .u32, .u64]) :
    v.toInt? = some (v.pattern.toNat : Int) := by
  cases v with
  | u8 p | u16 p | u32 p => rw [toInt?, pattern, BitVec.toNat_setWidth_of_le (by decide)]
  | u64 p => rfl
  | i16 | i32 | i64 | f32 => simp [ty] at h

/-- Two's complement, with the sign read off the comparison with `2 ^ (w - 1)`. -/
theorem toInt_eq_ite_toNat_lt {w : Nat} (p : BitVec (w + 1)) :
    p.toInt = if p.toNat < 2 ^ w then (p.toNat : Int) else (p.toNat : Int) - 2 ^ (w + 1) := by
  rw [BitVec.toInt_eq_toNat_cond]
  have hhalf : 2 * p.toNat < 2 ^ (w + 1) ↔ p.toNat < 2 ^ w := by omega
  simp [hhalf]

/-- A value of a signed type stands for its pattern in two's complement. -/
theorem ScalarVal.toInt?_of_signed {v : ScalarVal} (h : v.ty ∈ [ScalarType.i16, .i32, .i64]) :
    v.toInt? = some (if v.pattern.toNat < 2 ^ (8 * v.ty.width - 1) then (v.pattern.toNat : Int)
      else (v.pattern.toNat : Int) - 2 ^ (8 * v.ty.width)) := by
  cases v with
  | i16 p | i32 p =>
    rw [toInt?, pattern, BitVec.toNat_setWidth_of_le (by decide)]
    exact congrArg some (toInt_eq_ite_toNat_lt p)
  | i64 p => exact congrArg some (toInt_eq_ite_toNat_lt p)
  | u8 | u16 | u32 | u64 | f32 => simp [ty] at h

/-! The two maps (40 R121 to R123) -/

/-- Byte `k` of a value's encoding. -/
theorem ScalarVal.encode_getElem? (v : ScalarVal) {k : Nat} (h : k < v.ty.width) :
    v.encode[k]? = some (v.pattern.extractLsb' (8 * k) 8) :=
  encodeLE_getElem? _ _ h

/-- The bytes of an encoding, joined, are the pattern. -/
theorem ScalarVal.decodeLE_encode (v : ScalarVal) : decodeLE v.encode = v.pattern := by
  apply BitVec.eq_of_getLsbD_eq
  intro i hi
  rw [encode, decodeLE_encodeLE _ _ hi]
  by_cases hw : i < 8 * v.ty.width
  · simp [hw]
  · simp [hw, v.pattern_getLsbD_of_ge (Nat.le_of_not_lt hw)]

theorem ScalarVal.decode_encode (v : ScalarVal) : v.ty.decode v.encode = v := by
  rw [ScalarType.decode, v.decodeLE_encode, ofPattern_pattern]

/-- A sequence of the type's width decodes to the pattern its bytes join to: the cut to the type takes nothing off. -/
theorem ScalarType.pattern_decode {T : ScalarType} {bs : List Byte} (h : bs.length = T.width) :
    (T.decode bs).pattern = decodeLE bs := by
  apply BitVec.eq_of_getLsbD_eq
  intro i hi
  rw [decode, ScalarVal.pattern_ofPattern _ _ hi]
  by_cases hw : i < 8 * T.width
  · simp [hw]
  · have hnone : bs[i / 8]? = none := List.getElem?_eq_none (by omega)
    simp [hw, decodeLE_getLsbD _ hi, hnone]

theorem ScalarType.encode_decode {T : ScalarType} {bs : List Byte} (h : bs.length = T.width) :
    (T.decode bs).encode = bs := by
  rw [ScalarVal.encode, decode_ty, pattern_decode h, ← h]
  exact encodeLE_decodeLE (h ▸ T.width_le)

/-- Settles O9: each map undoes the other, on all bits of a pattern and on all bytes of a sequence. -/
theorem codecMapsAreInverse : Obligations.CodecMapsAreInverse :=
  ⟨ScalarVal.decode_encode, fun _ _ h => ⟨ScalarType.decode_ty _ _, ScalarType.encode_decode h⟩⟩

end Sys2Proof

namespace Sys2Proof.Machine

/-! ENCODE and DECODE -/

section Ready
variable {s : State} (h : s.Ready)
include h

theorem exec_encode_ready (v : ScalarVal) :
    exec (.encode v.ty v) s = .next { s with answer := { ret := some (.bytes v.encode) } } := by
  rw [exec, execEncode, admitted_ready h, if_pos rfl, finish_eq]

theorem exec_decode_ready {T : ScalarType} {bs : List Byte} (hlen : bs.length = T.width) :
    exec (.decode T bs) s = .next { s with answer := { ret := some (.scalar (T.decode bs)) } } := by
  rw [exec, execDecode, admitted_ready h, if_pos hlen, finish_eq]

theorem exec_decode_wrongLength {T : ScalarType} {bs : List Byte} (hlen : bs.length ≠ T.width) :
    exec (.decode T bs) s = .refused .wrongLength := by
  rw [exec, execDecode, admitted_ready h, if_neg hlen]

end Ready

/-- Settles O7: the answer is the value's encoding, whose bytes are those of the pattern. -/
theorem encodeGivesTheLeastSignificantByteFirst : Obligations.EncodeGivesTheLeastSignificantByteFirst := by
  rintro s _ v h rfl
  exact ⟨v.encode, exec_encode_ready h v, v.encode_length, fun _ => v.encode_getElem?⟩

/-- Settles O8: the bytes are the encoding of the decoded value, so each is a byte of its pattern. -/
theorem decodeJoinsTheBytes : Obligations.DecodeJoinsTheBytes := by
  refine fun s T bs h => ⟨fun hlen => ?_, exec_decode_wrongLength h⟩
  have hty : (T.decode bs).ty = T := T.decode_ty bs
  have hbytes : ∀ k, k < T.width → bs[k]? = some ((T.decode bs).pattern.extractLsb' (8 * k) 8) := by
    intro k hk
    have hbyte := (T.decode bs).encode_getElem? (hty.symm ▸ hk)
    rwa [ScalarType.encode_decode hlen] at hbyte
  have hlt := (T.decode bs).pattern_toNat_lt
  have hunsigned := (T.decode bs).toInt?_of_unsigned
  have hsigned := (T.decode bs).toInt?_of_signed
  rw [hty] at hlt hunsigned hsigned
  exact ⟨T.decode bs, exec_decode_ready h hlen, hty, hbytes, hlt, hunsigned, hsigned⟩

end Sys2Proof.Machine

/-! PROOF. RegisterMap (41): the classes of a register's bytes and what LOOKUP, TOTALSIZE and CLASSAT answer, the spans
as a partition of the file, and that no step changes the parameters all of it is derived from. -/

namespace Sys2Proof

/-! The classes of a register's bytes (41 R141, R143) -/

/-- The class of a register's first byte. -/
def Params.firstClass (p : Params) (r : Nat) : PClass := if p.writable r then .writableAligned else .readOnlyAligned

/-- The class of a register's later bytes. -/
def Params.restClass (p : Params) (r : Nat) : PClass :=
  if p.writable r then .writableContinuation else .readOnlyContinuation

/-- Byte `k` of a register: the first is aligned, the rest are continuation. -/
theorem Params.classAt_off_add (p : Params) {r k : Nat} (hr : r < p.regCount) (hk : k < p.width r) :
    p.classAt (p.off r + k) = some (if k = 0 then p.firstClass r else p.restClass r) := by
  have hspan : p.regAt (p.off r + k) = some r := Params.regAt_eq_some.mpr ⟨hr, by omega, by omega⟩
  simp [Params.classAt_of_regAt hspan, firstClass, restClass]

theorem Params.classesOf_eq_cons (p : Params) {r : Nat} (hr : r < p.regCount) (hw : 0 < p.width r) :
    p.classesOf r = p.firstClass r :: List.replicate (p.width r - 1) (p.restClass r) := by
  obtain ⟨n, hn⟩ := Nat.exists_eq_add_one_of_ne_zero hw.ne'
  have hfirst : p.classAt (p.off r + 0) = some (p.firstClass r) := p.classAt_off_add hr hw
  have hrest : ∀ k ∈ List.range n, p.classAt (p.off r + (k + 1)) = some (p.restClass r) := by
    intro k hk
    have hlt := List.mem_range.mp hk
    exact p.classAt_off_add hr (by omega)
  calc p.classesOf r
      = (List.range (n + 1)).filterMap fun k => p.classAt (p.off r + k) := by rw [classesOf, hn]
    _ = p.firstClass r :: (List.range n).filterMap fun k => p.classAt (p.off r + (k + 1)) := by
        rw [List.range_succ_eq_map, List.filterMap_cons_some (f := fun k => p.classAt (p.off r + k)) hfirst,
          List.filterMap_map]
        rfl
    _ = p.firstClass r :: (List.range n).map fun _ => p.restClass r := by
        rw [List.filterMap_congr hrest, List.filterMap_eq_map']
    _ = p.firstClass r :: List.replicate (p.width r - 1) (p.restClass r) := by simp [hn]

/-! The partition (41 R145) -/

/-- An address is in at most one register's span. -/
theorem Params.inSpan_unique {p : Params} {a r q : Nat} (hr : r < p.regCount) (hra : Machine.inSpan p r a)
    (hq : q < p.regCount) (hqa : Machine.inSpan p q a) : q = r :=
  have hregAt : p.regAt a = some r := Params.regAt_eq_some.mpr ⟨hr, hra⟩
  Option.some.inj ((Params.regAt_eq_some.mpr ⟨hq, hqa⟩).symm.trans hregAt)

/-- Settles O13: `reg_at` finds the one span of an address, and a span ends within the file. -/
theorem spansPartitionTheFile : Obligations.SpansPartitionTheFile := by
  intro p hwf
  refine ⟨fun a ha => ?_, fun a => Params.aligned_iff hwf, fun a ha => ?_⟩
  · obtain ⟨r, hregAt⟩ := p.exists_regAt ha
    obtain ⟨hr, hspan⟩ := Params.regAt_eq_some.mp hregAt
    exact ⟨r, ⟨hr, hspan⟩, fun q ⟨hq, hqspan⟩ => Params.inSpan_unique hr hspan hq hqspan⟩
  · obtain ⟨r, hr, rfl⟩ := (Params.aligned_iff hwf).mp ha
    have hpos := Params.width_pos hwf hr
    exact ⟨r, Params.regAt_eq_some.mpr ⟨hr, le_refl _, by omega⟩, p.off_add_width_le_total hr⟩

end Sys2Proof

namespace Sys2Proof.Machine

/-! LOOKUP, TOTALSIZE and CLASSAT -/

section Ready
variable {s : State} (h : s.Ready)
include h

theorem exec_lookup_ready {r : Nat} (hr : r < s.params.regCount) :
    exec (.lookup r) s = .next { s with
      answer := { ret := some (.entry (s.params.off r) (s.params.width r) (s.params.classesOf r)) } } := by
  rw [exec, execLookup, admitted_ready h, if_pos hr, finish_eq]

theorem exec_lookup_unknownRegister {r : Nat} (hr : s.params.regCount ≤ r) :
    exec (.lookup r) s = .refused (.unknownRegister r) := by
  rw [exec, execLookup, admitted_ready h, if_neg (Nat.not_lt.mpr hr)]

theorem exec_totalSize_ready :
    exec .totalSize s = .next { s with answer := { ret := some (.size s.params.total) } } := by
  rw [exec, execTotalSize, admitted_ready h, finish_eq]

theorem exec_classAt_ready {a : Address} {c : PClass} (hc : s.params.classAt a.toNat = some c) :
    exec (.classAt a) s = .next { s with answer := { ret := some (.cls c) } } := by
  rw [exec, execClassAt, admitted_ready h, hc]
  rfl

theorem exec_classAt_noSuchAddress {a : Address} (ha : s.params.total ≤ a.toNat) :
    exec (.classAt a) s = .refused (.noSuchAddress a) := by
  rw [exec, execClassAt, admitted_ready h, Params.classAt_eq_none_iff.mpr ha]

end Ready

/-- Settles O11: a declared register has a byte, so its classes are a first one and the rest. -/
theorem lookupAnswersTheDescriptor : Obligations.LookupAnswersTheDescriptor := by
  refine fun s r h => ⟨fun hr => ?_, exec_lookup_unknownRegister h⟩
  have ⟨hwf, _⟩ := h
  rw [exec_lookup_ready h hr, s.params.classesOf_eq_cons hr (Params.width_pos hwf hr), Params.firstClass,
    Params.restClass]
  cases s.params.writable r <;> rfl

/-- Settles O12: the span an address is in gives its register, and the register its class. -/
theorem classAtFollowsTheRegister : Obligations.ClassAtFollowsTheRegister :=
  fun _ _ h =>
    ⟨fun _ hr hspan => exec_classAt_ready h (Params.classAt_of_regAt (Params.regAt_eq_some.mpr ⟨hr, hspan⟩)),
      exec_classAt_noSuchAddress h⟩

/-- Settles O10: each offset is the sum of the widths before it. -/
theorem totalSizeEndsTheCumulativeLayout : Obligations.TotalSizeEndsTheCumulativeLayout :=
  fun s h => ⟨exec_totalSize_ready h, s.params.off_zero, fun _ hr => s.params.off_succ hr, s.params.total_eq_off⟩

/-! The parameters (41 R146, 10 R31) -/

/-- The parameters of `t` are those of `s`. -/
def KeepsParams (s t : State) : Prop := t.params = s.params

theorem KeepsSpaces.keepsParams {s t : State} (h : KeepsSpaces s t) : KeepsParams s t := by
  rw [KeepsParams, h]

@[simp] theorem State.restore_params (s : State) : s.restore.params = s.params := by
  rw [State.restore_frame]

@[simp] theorem State.eraseConfig_params (s : State) : s.eraseConfig.params = s.params := by
  rw [State.eraseConfig_frame, State.putConfigSaved_params]

@[simp] theorem State.serveWrite_params (s : State) : s.serveWrite.params = s.params := by
  rw [State.serveWrite_frame]

@[simp] theorem State.serveReset_params (s : State) : s.serveReset.params = s.params := by
  rw [State.serveReset_frame]

theorem execWr_keepsParams (b : Byte) (s : State) : NextHolds (KeepsParams s) (execWr b s) := by
  refine nextHolds_admitted fun _ => ?_
  split
  · exact nextHolds_refused _
  · exact nextHolds_finish rfl

theorem execSave_keepsParams (s : State) : NextHolds (KeepsParams s) (execSave s) := by
  refine nextHolds_admitted fun _ => nextHolds_finish ?_
  split
  · exact s.save_params
  · rfl

theorem execServiceTriggers_keepsParams (s : State) : NextHolds (KeepsParams s) (execServiceTriggers s) := by
  refine nextHolds_admitted fun _ => nextHolds_finish ?_
  split
  · exact s.serveWrite.serveReset_params.trans s.serveWrite_params
  · rfl

theorem execSensorUpdate_keepsParams (res : SensorResult) (s : State) :
    NextHolds (KeepsParams s) (execSensorUpdate res s) := by
  refine nextHolds_admitted fun _ => ?_
  cases res with
  | ok t u => exact nextHolds_finish rfl
  | noReading => exact nextHolds_finish rfl

theorem exec_keepsParams (i : Instr) (s : State) : NextHolds (KeepsParams s) (exec i s) := by
  cases i with
  | wr b => exact execWr_keepsParams b s
  | writeByte =>
    exact nextHolds_admitted fun _ => nextHolds_ite (fun _ => nextHolds_takeFault rfl) fun _ => nextHolds_finish rfl
  | writeTyped =>
    exact nextHolds_admitted fun _ => nextHolds_typedCall fun _ _ => nextHolds_ite
      (fun _ => nextHolds_finish rfl) fun _ => nextHolds_refused _
  | setBit => exact nextHolds_admitted fun _ => nextHolds_bitCall fun _ => nextHolds_finish rfl
  | save => exact execSave_keepsParams s
  | restore => exact nextHolds_admitted fun _ => nextHolds_finish s.restore_params
  | resetConfig => exact nextHolds_admitted fun _ => nextHolds_finish s.eraseConfig_params
  | serviceTriggers => exact execServiceTriggers_keepsParams s
  | sensorUpdate res => exact execSensorUpdate_keepsParams res s
  | _ => exact fun t ht => (exec_keepsSpaces rfl s t ht).keepsParams

theorem runMicro_keepsParams (s : State) : NextHolds (KeepsParams s) (runMicro s) := by
  refine nextHolds_admitted fun _ => ?_
  split
  · exact nextHolds_finish rfl
  · next m rest _ => exact nextHolds_finish (microEffect_params m { s with job := rest })

theorem powerOnReset_keepsParams (s : State) : NextHolds (KeepsParams s) (powerOnReset s) :=
  nextHolds_ite (fun _ => nextHolds_finish s.powerOn.restore_params) fun _ => nextHolds_refused _

/-- Settles O55: each turn of a step keeps the parameters. -/
theorem noStepChangesTheParameters : Obligations.NoStepChangesTheParameters := by
  intro s t hstep
  have hfetch := fetch_params s
  obtain ⟨u, hu, -, rfl⟩ | ⟨u, hu, hmicro⟩ | ⟨u, hu, hreset⟩ | ⟨i, u, hu, hexec⟩ := step_next hstep
  all_goals rw [hu] at hfetch
  · exact hfetch
  · exact (runMicro_keepsParams u t hmicro).trans hfetch
  · exact (powerOnReset_keepsParams u t hreset).trans hfetch
  · exact (exec_keepsParams i u t hexec).trans hfetch

end Sys2Proof.Machine

/-! PROOF. RegisterFile (42): what each accessor and cursor operation answers, stores and refuses, and the cursor after any
number of advances. -/

namespace Sys2Proof

/-! The bytes of a value (40 R121, R122) -/

theorem ScalarVal.encode_getElem (v : ScalarVal) {k : Nat} (h : k < v.encode.length) :
    v.encode[k] = v.pattern.extractLsb' (8 * k) 8 :=
  (List.getElem?_eq_some_iff.mp (v.encode_getElem? (v.encode_length ▸ h))).2

/-- Byte `k` of a sequence is byte `k` of the pattern it decodes to. -/
theorem ScalarType.getElem?_eq_decode_byte {T : ScalarType} {bs : List Byte} (h : bs.length = T.width) {k : Nat}
    (hk : k < T.width) : bs[k]? = some ((T.decode bs).pattern.extractLsb' (8 * k) 8) := by
  have hty : (T.decode bs).ty = T := T.decode_ty bs
  have hbyte := (T.decode bs).encode_getElem? (hty.symm ▸ hk)
  rwa [ScalarType.encode_decode h] at hbyte

end Sys2Proof

namespace Sys2Proof.Machine

/-! What the requirements of the typed and the bit calls refuse (42 R152 to R155, 60 R279) -/

section Refusals
variable {s : State} {T : ScalarType} {r i : Nat}

theorem typedCall_unknownRegister (hr : s.params.regCount ≤ r) (k : StepOutcome) :
    typedCall T r s k = .refused (.unknownRegister r) := by
  rw [typedCall, if_neg (Nat.not_lt.mpr hr)]

theorem typedCall_widthMismatch (hr : r < s.params.regCount) (hw : T.width ≠ s.params.width r) (k : StepOutcome) :
    typedCall T r s k = .refused (.widthMismatch r) := by
  rw [typedCall, if_pos hr, if_neg hw]

theorem bitCall_unknownRegister (hr : s.params.regCount ≤ r) (k : StepOutcome) :
    bitCall r i s k = .refused (.unknownRegister r) := by
  rw [bitCall, if_neg (Nat.not_lt.mpr hr)]

theorem bitCall_notBitRegister (hr : r < s.params.regCount) (hw : s.params.width r ≠ 1) (k : StepOutcome) :
    bitCall r i s k = .refused (.notBitRegister r) := by
  rw [bitCall, if_pos hr, if_neg hw]

theorem bitCall_bitIndexTooLarge (hr : r < s.params.regCount) (hw : s.params.width r = 1) (hi : 7 < i)
    (k : StepOutcome) : bitCall r i s k = .refused (.bitIndexTooLarge i) := by
  rw [bitCall, if_pos hr, if_pos hw, if_neg (Nat.not_le.mpr hi)]

end Refusals

/-! What a register's bytes and bits are, and what they become -/

section Registers
variable (s : State) (r : Nat)

theorem State.regBytes_getElem? {k : Nat} (hk : k < s.params.width r) :
    (s.regBytes r)[k]? = some (s.reg.read (s.params.off r + k)) :=
  Memory.readN_getElem? _ _ _ _ hk

theorem State.bit_eq (i : Nat) : s.bit r i = (s.reg.read (s.params.off r)).getLsbD i := byteBit_eq _ i

/-- A register's byte after a value is stored in it. -/
theorem State.putBytes_encode_read (v : ScalarVal) {k : Nat} (hk : k < v.ty.width) :
    (s.putBytes r v.encode).reg.read (s.params.off r + k) = v.pattern.extractLsb' (8 * k) 8 := by
  have hk' : k < v.encode.length := by rwa [ScalarVal.encode_length]
  rw [State.putBytes_reg, Memory.read_writeN_inside _ hk', ScalarVal.encode_getElem]

/-- A byte outside a register's span after the register is stored. -/
theorem State.putBytes_read_outside {bs : List Byte} (hlen : bs.length = s.params.width r) {a : Nat}
    (ha : ¬ inSpan s.params r a) : (s.putBytes r bs).reg.read a = s.reg.read a := by
  rw [State.putBytes_reg, Memory.read_writeN_outside]
  omega

/-- A byte elsewhere after a bit of a register is set. -/
theorem State.putBit_read_other (i : Nat) (x : Bool) {a : Nat} (ha : a ≠ s.params.off r) :
    (s.putBit r i x).reg.read a = s.reg.read a := by
  rw [State.putBit_reg, Memory.read_write_other _ _ ha]

/-- A bit of a register after a bit of it is set. -/
theorem State.putBit_read_getLsbD {i j : Nat} (hi : i ≤ 7) (hj : j < 8) (x : Bool) :
    ((s.putBit r i x).reg.read (s.params.off r)).getLsbD j
      = if j = i then x else (s.reg.read (s.params.off r)).getLsbD j := by
  rw [State.putBit_reg, Memory.read_write_self, withBit_getLsbD _ hi hj]

end Registers

/-- The cursor moves modulo TOTAL, which its sixteen bits hold (10 R26). -/
theorem State.advance_cursor_toNat {s : State} (hwf : s.params.wf = true) (k : Nat) :
    (s.advance k).cursor.toNat = (s.cursor.toNat + k) % s.params.total := by
  have hpos := (Params.wf_spec hwf).one_le_total
  have hle := (Params.wf_spec hwf).total_le
  have hmod : (s.cursor.toNat + k) % s.params.total < s.params.total := Nat.mod_lt _ hpos
  rw [State.advance_cursor, BitVec.toNat_ofNat, Nat.mod_eq_of_lt (by omega)]

/-! The operations -/

section Ready
variable {s : State} (h : s.Ready)
include h

theorem exec_readByte_ready {a : Address} (ha : a.toNat < s.params.total) :
    exec (.readByte a) s = .next { s with answer := { ret := some (.byte (s.reg.read a.toNat)) } } := by
  rw [exec, execReadByte, admitted_ready h, if_neg (Nat.not_le.mpr ha), finish_eq]

theorem exec_readByte_outOfRange {a : Address} (ha : s.params.total ≤ a.toNat) :
    exec (.readByte a) s = .next { s with
      fault := some .accessOutOfRange, answer := { raised := some (.accessOutOfRange a) } } := by
  rw [exec, execReadByte, admitted_ready h, if_pos ha, takeFault_eq]

theorem exec_writeByte_ready {a : Address} (ha : a.toNat < s.params.total) (b : Byte) :
    exec (.writeByte a b) s = .next { s with reg := s.reg.write a.toNat b, answer := {} } := by
  rw [exec, execWriteByte, admitted_ready h, if_neg (Nat.not_le.mpr ha), finish_eq]

theorem exec_writeByte_outOfRange {a : Address} (ha : s.params.total ≤ a.toNat) (b : Byte) :
    exec (.writeByte a b) s = .next { s with
      fault := some .accessOutOfRange, answer := { raised := some (.accessOutOfRange a) } } := by
  rw [exec, execWriteByte, admitted_ready h, if_pos ha, takeFault_eq]

theorem exec_readTyped_eq (T : ScalarType) (r : Nat) :
    exec (.readTyped T r) s
      = typedCall T r s (.next { s with answer := { ret := some (.scalar (T.decode (s.regBytes r))) } }) := by
  rw [exec, execReadTyped, admitted_ready h, finish_eq]

theorem exec_writeTyped_eq (r : Nat) (v : ScalarVal) :
    exec (.writeTyped v.ty r v) s = typedCall v.ty r s (.next { s.putBytes r v.encode with answer := {} }) := by
  rw [exec, execWriteTyped, admitted_ready h, if_pos rfl, finish_eq]

theorem exec_getBit_eq (r i : Nat) :
    exec (.getBit r i) s = bitCall r i s (.next { s with answer := { ret := some (.bool (s.bit r i)) } }) := by
  rw [exec, execGetBit, admitted_ready h, finish_eq]

theorem exec_setBit_eq (r i : Nat) (x : Bool) :
    exec (.setBit r i x) s = bitCall r i s (.next { s.putBit r i x with answer := {} }) := by
  rw [exec, execSetBit, admitted_ready h, finish_eq]

theorem exec_resetCursor_ready : exec .resetCursor s = .next { s with cursor := 0, answer := {} } := by
  rw [exec, execResetCursor, admitted_ready h, finish_eq]

theorem exec_advanceCursor_ready : exec .advanceCursor s = .next { s.advance 1 with answer := {} } := by
  rw [exec, execAdvanceCursor, admitted_ready h, finish_eq]

theorem exec_cursor_ready : exec .cursor s = .next { s with answer := { ret := some (.position s.cursor) } } := by
  rw [exec, execCursor, admitted_ready h, finish_eq]

end Ready

/-! The statements on the accessors -/

/-- Settles O14: the two sides of the comparison with TOTAL. -/
theorem readByteAnswersOrFaults : Obligations.ReadByteAnswersOrFaults :=
  fun _ _ h => ⟨exec_readByte_ready h, exec_readByte_outOfRange h⟩

/-- Settles O15: below TOTAL the register file is the one written at the address, no class consulted. -/
theorem writeByteStoresOrFaults : Obligations.WriteByteStoresOrFaults :=
  fun _ _ b h =>
    ⟨fun ha => ⟨_, exec_writeByte_ready h ha b, rfl, Memory.read_write _ _ b⟩, fun ha => exec_writeByte_outOfRange h ha b⟩

/-- Settles O16: the register's bytes are those of the pattern they decode to. -/
theorem readTypedJoinsTheRegister : Obligations.ReadTypedJoinsTheRegister := by
  intro s T r h
  rw [exec_readTyped_eq h]
  refine ⟨fun hr hw => ?_, fun hr hw => typedCall_widthMismatch hr hw _, fun hr => typedCall_unknownRegister hr _⟩
  refine ⟨T.decode (s.regBytes r), typedCall_ok hr hw _, T.decode_ty _, fun k hk => ?_⟩
  have hlen : (s.regBytes r).length = T.width := by rw [State.regBytes_length, hw]
  have hbyte := ScalarType.getElem?_eq_decode_byte hlen hk
  rw [State.regBytes_getElem? s r (hw ▸ hk)] at hbyte
  exact (Option.some.inj hbyte).symm

/-- Settles O17: the value's encoding is as long as the register, so it covers the span and nothing else. -/
theorem writeTypedStoresTheRegister : Obligations.WriteTypedStoresTheRegister := by
  rintro s _ r v h rfl
  rw [exec_writeTyped_eq h]
  refine ⟨fun hr hw => ?_, fun hr hw => typedCall_widthMismatch hr hw _, fun hr => typedCall_unknownRegister hr _⟩
  have hlen : v.encode.length = s.params.width r := by rw [ScalarVal.encode_length, hw]
  exact ⟨_, typedCall_ok hr hw _, rfl, fun k => s.putBytes_encode_read r v, fun a => s.putBytes_read_outside r hlen⟩

/-- Settles O19: the answer is the bit the register's byte has at the index. -/
theorem getBitAnswersTheBit : Obligations.GetBitAnswersTheBit := by
  intro s r i h
  rw [exec_getBit_eq h, State.bit_eq]
  exact ⟨fun hr hw hi => bitCall_ok hr hw hi _, fun hr => bitCall_unknownRegister hr _,
    fun hr hw => bitCall_notBitRegister hr hw _, fun hr hw hi => bitCall_bitIndexTooLarge hr hw hi _⟩

/-- Settles O20: the register's byte is the old one with the bit set, and no other byte is written. -/
theorem setBitChangesOneBit : Obligations.SetBitChangesOneBit := by
  intro s r i x h
  rw [exec_setBit_eq h]
  refine ⟨fun hr hw hi => ?_, fun hr => bitCall_unknownRegister hr _,
    fun hr hw => bitCall_notBitRegister hr hw _, fun hr hw hi => bitCall_bitIndexTooLarge hr hw hi _⟩
  exact ⟨_, bitCall_ok hr hw hi _, rfl, fun a => s.putBit_read_other r i x, fun j hj => s.putBit_read_getLsbD r hi hj x⟩

/-! The statements on the cursor -/

/-- Settles O21: each operation's next state, and the cursor of the advanced one as a number. -/
theorem cursorOperationsSetAdvanceAndAnswer : Obligations.CursorOperationsSetAdvanceAndAnswer := by
  intro s h
  have ⟨hwf, _⟩ := h
  exact ⟨exec_resetCursor_ready h, ⟨_, exec_advanceCursor_ready h, State.advance_cursor_toNat hwf 1⟩,
    exec_cursor_ready h⟩

/-- Any number of advances run and add that number modulo TOTAL. -/
theorem runTrace_replicate_advanceCursor {s : State} (h : s.Ready) (hlt : s.cursor.toNat < s.params.total) (n : Nat) :
    ∃ t as, runTrace (List.replicate n .advanceCursor) s = some (t, as)
      ∧ t.cursor.toNat = (s.cursor.toNat + n) % s.params.total := by
  induction n generalizing s with
  | zero => exact ⟨s, [], rfl, (Nat.mod_eq_of_lt hlt).symm⟩
  | succ n ih =>
    have ⟨hwf, _⟩ := h
    have hcursor := State.advance_cursor_toNat hwf 1
    have hlt' : (s.advance 1).cursor.toNat < s.params.total := hcursor ▸ Nat.mod_lt _ (Nat.zero_lt_of_lt hlt)
    obtain ⟨t, as, hrun, ht⟩ := ih (s := { s.advance 1 with answer := {} }) h hlt'
    refine ⟨t, {} :: as, ?_, ?_⟩
    · rw [List.replicate_succ, runTrace_cons (exec_advanceCursor_ready h), hrun]
      rfl
    · calc t.cursor.toNat
          = ((s.advance 1).cursor.toNat + n) % s.params.total := ht
        _ = (s.cursor.toNat + (n + 1)) % s.params.total := by
            rw [hcursor, Nat.mod_add_mod, Nat.add_assoc, Nat.add_comm 1 n]

/-- Settles O22: adding TOTAL modulo TOTAL leaves a cursor below TOTAL where it was. -/
theorem advancingTotalTimesReturns : Obligations.AdvancingTotalTimesReturns := by
  intro s h hlt
  obtain ⟨t, as, hrun, ht⟩ := runTrace_replicate_advanceCursor h hlt s.params.total
  refine ⟨t, as, hrun, BitVec.eq_of_toNat_eq ?_⟩
  rw [ht, Nat.add_mod_right, Nat.mod_eq_of_lt hlt]

end Sys2Proof.Machine

/-! PROOF. BusTransactionHandler (43): what the four bus events leave of the state, the two write policies on one burst,
and what no event reads (`bus_state`) or changes (all but the bus's own state and the writable bytes). -/

namespace Sys2Proof

/-- A register's offset fits the address byte of an address-select event: TOTAL is at most 255 (00 R8). -/
theorem Params.toNat_ofNat_off {p : Params} (h : p.wf = true) {r : Nat} (hr : r < p.regCount) :
    (BitVec.ofNat 8 (p.off r)).toNat = p.off r := by
  have hoff := Params.off_lt_total h hr
  have htotal := (Params.wf_spec h).total_le
  rw [BitVec.toNat_ofNat, Nat.mod_eq_of_lt (by omega)]

/-- The four bus events are all an event word decodes to (30 R93). -/
theorem busEvent_of_decodeInstr_ev {w : BitVec 10} {i : Instr} (h : decodeInstr (.ev w) = .ok i) :
    i = .endTx ∨ (∃ a, i = .addr a) ∨ (∃ b, i = .wr b) ∨ ∃ n, i = .rd n := by
  have hi : decodeEv w = i := Except.ok.inj h
  unfold decodeEv at hi
  split at hi
  · exact .inl hi.symm
  · exact .inr (.inl ⟨_, hi.symm⟩)
  · exact .inr (.inr (.inl ⟨_, hi.symm⟩))
  · exact .inr (.inr (.inr ⟨_, hi.symm⟩))

end Sys2Proof

namespace Sys2Proof.Machine

/-! A register's bytes -/

theorem Memory.readN_eq_map (m : Memory) (a n : Nat) : m.readN a n = (List.range n).map fun k => m.read (a + k) := by
  apply List.ext_getElem?
  intro k
  by_cases hk : k < n
  · rw [Memory.readN_getElem? _ _ _ _ hk, List.getElem?_map, List.getElem?_range hk, Option.map_some]
  · rw [List.getElem?_eq_none (by simpa using hk), List.getElem?_eq_none (by simpa using hk)]

/-- A register stored whole is read back. -/
theorem State.regBytes_putBytes (s : State) {r : Nat} {bs : List Byte} (hlen : bs.length = s.params.width r) :
    (s.putBytes r bs).regBytes r = bs := by
  rw [State.regBytes, State.putBytes_reg, State.putBytes_params, ← hlen, Memory.readN_writeN]

/-! What WR leaves (43 R183, R184) -/

/-- `wr_burst_ok` after WR: the strict policy records an aligned byte, the default policy does not touch it. -/
def State.burstAfterWr (s : State) : Bool :=
  if s.params.strictContWrite then s.wrBurstOk || s.params.aligned s.cursor.toNat else s.wrBurstOk

/-- Whether WR stores its byte at the cursor. -/
def State.storesAtCursor (s : State) : Bool :=
  s.params.writableAt s.cursor.toNat && (!s.params.strictContWrite || s.burstAfterWr)

/-- The state WR leaves, with the cursor below TOTAL. -/
def State.afterWr (b : Byte) (s : State) : State :=
  { s with
    reg := if s.storesAtCursor then s.reg.write s.cursor.toNat b else s.reg
    cursor := (s.advance 1).cursor
    busState := .receiving
    wrBurstOk := s.burstAfterWr
    answer := { raised := if s.params.writableAt s.cursor.toNat then none else some (.writeToReadOnly s.cursor b) } }

section Wr
variable {s : State}

theorem State.burstAfterWr_default (hp : s.params.strictContWrite = false) : s.burstAfterWr = s.wrBurstOk := by
  simp [State.burstAfterWr, hp]

theorem State.burstAfterWr_strict (hp : s.params.strictContWrite = true) :
    s.burstAfterWr = (s.wrBurstOk || s.params.aligned s.cursor.toNat) := by
  simp [State.burstAfterWr, hp]

/-- A burst that has passed an aligned byte stays one that has, under both policies. -/
theorem State.burstAfterWr_of_wrBurstOk (hok : s.wrBurstOk = true) : s.burstAfterWr = true := by
  simp [State.burstAfterWr, hok]

theorem State.storesAtCursor_default (hp : s.params.strictContWrite = false) :
    s.storesAtCursor = s.params.writableAt s.cursor.toNat := by
  simp [State.storesAtCursor, hp]

theorem State.storesAtCursor_strict (hp : s.params.strictContWrite = true) :
    s.storesAtCursor = (s.params.writableAt s.cursor.toNat && (s.wrBurstOk || s.params.aligned s.cursor.toNat)) := by
  simp [State.storesAtCursor, State.burstAfterWr_strict hp, hp]

/-- In a burst that has passed an aligned byte the class alone decides, under both policies. -/
theorem State.storesAtCursor_of_wrBurstOk (hok : s.wrBurstOk = true) :
    s.storesAtCursor = s.params.writableAt s.cursor.toNat := by
  simp [State.storesAtCursor, State.burstAfterWr_of_wrBurstOk hok]

/-- No policy stores at an address that is not writable. -/
theorem State.writableAt_of_storesAtCursor (h : s.storesAtCursor = true) :
    s.params.writableAt s.cursor.toNat = true :=
  (Bool.and_eq_true_iff.mp h).1

theorem State.afterWr_read (b : Byte) (a : Nat) :
    (s.afterWr b).reg.read a = if a = s.cursor.toNat ∧ s.storesAtCursor = true then b else s.reg.read a := by
  cases hst : s.storesAtCursor <;> simp [State.afterWr, hst]

theorem State.afterWr_cursor_toNat (hwf : s.params.wf = true) (b : Byte) :
    (s.afterWr b).cursor.toNat = (s.cursor.toNat + 1) % s.params.total :=
  State.advance_cursor_toNat hwf 1

theorem State.afterWr_cursor_lt (hwf : s.params.wf = true) (b : Byte) :
    (s.afterWr b).cursor.toNat < s.params.total := by
  rw [State.afterWr_cursor_toNat hwf]
  exact Nat.mod_lt _ (Params.wf_spec hwf).one_le_total

end Wr

/-! The events' outcomes -/

section Ready
variable {s : State} (h : s.Ready)
include h

theorem exec_addr_outOfRange {a : Byte} (ha : s.params.total ≤ a.toNat) :
    exec (.addr a) s = .next { s with
      fault := some .addrOutOfRange, answer := { raised := some (.addrOutOfRange a) } } := by
  rw [exec, execAddr, admitted_ready h, if_pos ha, takeFault_eq]

theorem exec_wr_ready (hlt : s.cursor.toNat < s.params.total) (b : Byte) :
    exec (.wr b) s = .next (s.afterWr b) := by
  rw [exec, execWr, admitted_ready h]
  split
  · next hc => exact absurd (Params.classAt_eq_none_iff.mp hc) (Nat.not_le.mpr hlt)
  · next c hc =>
    have haligned : s.params.aligned s.cursor.toNat = c.aligned := by simp [Params.aligned, hc]
    have hwritable : s.params.writableAt s.cursor.toNat = c.writable := by simp [Params.writableAt, hc]
    have hburst : burstAfter s c = s.burstAfterWr := by rw [burstAfter, State.burstAfterWr, haligned]
    have hstores : storesByte s c = s.storesAtCursor := by rw [storesByte, State.storesAtCursor, hburst, hwritable]
    rw [hburst, hstores, ← hwritable]
    rfl

theorem exec_wr_cursorInvalid (hge : s.params.total ≤ s.cursor.toNat) (b : Byte) :
    exec (.wr b) s = .refused .cursorInvalid := by
  rw [exec, execWr, admitted_ready h, Params.classAt_eq_none_iff.mpr hge]

theorem exec_rd_cursorInvalid (hge : s.params.total ≤ s.cursor.toNat) (n : Byte) :
    exec (.rd n) s = .refused .cursorInvalid := by
  rw [exec, execRd, admitted_ready h, Params.classAt_eq_none_iff.mpr hge]

/-- RD at a register's first byte (43 R185). -/
theorem exec_rd_atOffset {r : Nat} (hr : r < s.params.regCount) (hcur : s.cursor.toNat = s.params.off r) (n : Byte) :
    exec (.rd n) s = .next { s with
      cursor := (s.advance (s.params.width r)).cursor, busState := .transmitting,
      answer := { rsp := some (s.regBytes r) } } := by
  have ⟨hwf, _⟩ := h
  have hoff := Params.off_lt_total hwf hr
  have hpos := Params.width_pos hwf hr
  have hregAt : s.params.regAt s.cursor.toNat = some r := Params.regAt_eq_some.mpr ⟨hr, by omega, by omega⟩
  have haligned : s.params.aligned s.cursor.toNat = true := by
    rw [Params.aligned_of_regAt hregAt, decide_eq_true hcur]
  have hwidth : s.cursorWidth = s.params.width r := by simp [State.cursorWidth, hregAt]
  have hbytes : s.reg.readN s.cursor.toNat (s.params.width r) = s.regBytes r := by rw [hcur, State.regBytes]
  rw [exec_rd_ready h (by omega), State.afterRd, if_pos haligned, if_pos haligned, hwidth, hbytes]

/-- RD at a later byte of a register (43 R185). -/
theorem exec_rd_atContinuation {r : Nat} (hr : r < s.params.regCount) (hlo : s.params.off r < s.cursor.toNat)
    (hhi : s.cursor.toNat < s.params.off r + s.params.width r) (n : Byte) :
    exec (.rd n) s = .next { s with
      busState := .transmitting,
      answer := { rsp := some [], raised := some (.protocolMisalignment s.cursor) } } := by
  have hend := s.params.off_add_width_le_total hr
  have hregAt : s.params.regAt s.cursor.toNat = some r := Params.regAt_eq_some.mpr ⟨hr, hlo.le, hhi⟩
  have haligned : ¬ s.params.aligned s.cursor.toNat = true := by simp [Params.aligned_of_regAt hregAt, hlo.ne']
  rw [exec_rd_ready h (by omega), State.afterRd, if_neg haligned, if_neg haligned]

end Ready

/-- A next state comes only from a block that may take a step. -/
theorem ready_of_exec_next {i : Instr} {s t : State} (h : exec i s = .next t) : s.Ready := by
  obtain ⟨k, hk⟩ := exec_eq_admitted i s
  exact (admitted_next (hk ▸ h)).1

/-- All that WR can do with a next state. -/
theorem exec_wr_next {b : Byte} {s t : State} (h : exec (.wr b) s = .next t) : t = s.afterWr b := by
  have hready := ready_of_exec_next h
  rcases Nat.lt_or_ge s.cursor.toNat s.params.total with hlt | hge
  · rw [exec_wr_ready hready hlt] at h
    exact (Host.Outcome.next.inj h).symm
  · rw [exec_wr_cursorInvalid hready hge] at h
    cases h

/-! The statements on one event -/

/-- Settles O23: the two sides of the comparison with TOTAL. -/
theorem addrSelectsOrFaults : Obligations.AddrSelectsOrFaults :=
  fun _ _ h => ⟨exec_addr_ready h, exec_addr_outOfRange h⟩

/-- Settles O28: the state END leaves. -/
theorem endKeepsTheCursor : Obligations.EndKeepsTheCursor := fun _ h => exec_endTx_ready h

/-- Settles O29: an address at or above TOTAL has no class. -/
theorem busEventsRefuseAnInvalidCursor : Obligations.BusEventsRefuseAnInvalidCursor :=
  fun _ b h hge => ⟨exec_wr_cursorInvalid h hge b, exec_rd_cursorInvalid h hge b⟩

/-- Settles O24: under the default policy the class alone decides and `wr_burst_ok` is kept. -/
theorem wrStoresWhereTheClassIsWritable : Obligations.WrStoresWhereTheClassIsWritable := by
  intro s b h hlt hp
  have ⟨hwf, _⟩ := h
  refine ⟨s.afterWr b, exec_wr_ready h hlt b, ?_, State.afterWr_cursor_toNat hwf b, fun a => ?_⟩
  · rw [State.afterWr, State.burstAfterWr_default hp]
  · rw [State.afterWr_read, State.storesAtCursor_default hp]

/-- Settles O25: under the strict policy the byte's class and what the burst has passed decide together. -/
theorem wrUnderTheStrictPolicy : Obligations.WrUnderTheStrictPolicy := by
  intro s b h hlt hp
  have ⟨hwf, _⟩ := h
  refine ⟨s.afterWr b, exec_wr_ready h hlt b, ?_, State.afterWr_cursor_toNat hwf b, fun a => ?_⟩
  · rw [State.afterWr, State.burstAfterWr_strict hp]
  · simp only [State.afterWr_read, State.storesAtCursor_strict hp, Bool.and_eq_true, Bool.or_eq_true]

/-- Settles O27: the cursor is at the register's first byte, or at a later one. -/
theorem rdAnswersTheRegisterOrNothing : Obligations.RdAnswersTheRegisterOrNothing := by
  intro s n r h hr
  have ⟨hwf, _⟩ := h
  refine ⟨fun hcur => ?_, fun hlo hhi => exec_rd_atContinuation h hr hlo hhi n⟩
  rw [exec_rd_atOffset h hr hcur, State.regBytes, Memory.readN_eq_map]
  exact ⟨_, rfl, State.advance_cursor_toNat hwf _⟩

/-! A typed write read over the bus (43 R186, 20 R69) -/

/-- ADDR at a register's offset and RD answer the register's bytes, whatever the count. -/
theorem runTrace_addr_rd_register {s : State} (h : s.Ready) {r : Nat} (hr : r < s.params.regCount) (n : Byte) :
    ∃ t, runTrace [.addr (BitVec.ofNat 8 (s.params.off r)), .rd n] s
      = some (t, [{}, { rsp := some (s.regBytes r) }]) := by
  have ⟨hwf, _⟩ := h
  have hoff := Params.toNat_ofNat_off hwf hr
  have haddr := exec_addr_ready h (hoff.trans_lt (Params.off_lt_total hwf hr))
  have hcur := (s.afterAddr_cursor_toNat _).trans hoff
  have hrd := exec_rd_atOffset (s := s.afterAddr (BitVec.ofNat 8 (s.params.off r))) h hr hcur n
  rw [runTrace_cons haddr, runTrace_cons hrd]
  exact ⟨_, rfl⟩

/-- A typed write leaves the value's encoding in the register and nothing on a port, in a block that may take its next
step. -/
theorem exec_writeTyped_regBytes {s : State} (h : s.Ready) {r : Nat} {v : ScalarVal} (hr : r < s.params.regCount)
    (hw : v.ty.width = s.params.width r) :
    ∃ t, exec (.writeTyped v.ty r v) s = .next t ∧ t.Ready ∧ t.params = s.params ∧ t.regBytes r = v.encode
      ∧ t.answer = {} := by
  have hlen : v.encode.length = s.params.width r := by rw [ScalarVal.encode_length, hw]
  rw [exec_writeTyped_eq h, typedCall_ok hr hw]
  exact ⟨_, rfl, h, rfl, s.regBytes_putBytes hlen, rfl⟩

/-- Settles O18: the read answers the register's bytes, which are those the typed write stored. -/
theorem busReadsTheLastTypedWrite : Obligations.BusReadsTheLastTypedWrite := by
  intro s r v n h hr hw
  obtain ⟨t, hwrite, ht, hparams, hbytes, hanswer⟩ := exec_writeTyped_regBytes h hr hw
  obtain ⟨u, hread⟩ := runTrace_addr_rd_register ht (hparams ▸ hr) n
  rw [hparams, hbytes] at hread
  refine ⟨u, [{}, {}, { rsp := some v.encode }], ?_, rfl⟩
  rw [runTrace_cons hwrite, hread, hanswer]
  rfl

/-! The two write policies on one burst (43 R184) -/

/-- The same state under the write policy `x`. -/
def State.withPolicy (x : Bool) (s : State) : State := { s with params := { s.params with strictContWrite := x } }

/-- Once the burst has passed an aligned byte, WR reads no policy. -/
theorem State.afterWr_withPolicy {s : State} (hok : s.wrBurstOk = true) (x : Bool) (b : Byte) :
    (s.withPolicy x).afterWr b = (s.afterWr b).withPolicy x := by
  have hok' : (s.withPolicy x).wrBurstOk = true := hok
  rw [State.afterWr, State.afterWr, State.burstAfterWr_of_wrBurstOk hok, State.burstAfterWr_of_wrBurstOk hok',
    State.storesAtCursor_of_wrBurstOk hok, State.storesAtCursor_of_wrBurstOk hok']
  rfl

/-- A sequence of WR in a burst that has passed an aligned byte: one run, whatever the policy. -/
theorem runTrace_wr_withPolicy {s : State} (h : s.Ready) (hlt : s.cursor.toNat < s.params.total)
    (hok : s.wrBurstOk = true) (bs : List Byte) :
    ∃ (t : State) (as : List Answer), ∀ x, runTrace (bs.map .wr) (s.withPolicy x) = some (t.withPolicy x, as) := by
  induction bs generalizing s with
  | nil => exact ⟨s, [], fun _ => rfl⟩
  | cons b bs ih =>
    have ⟨hwf, _⟩ := h
    obtain ⟨t, as, hrun⟩ :=
      ih (s := s.afterWr b) h (State.afterWr_cursor_lt hwf b) (State.burstAfterWr_of_wrBurstOk hok)
    refine ⟨t, (s.afterWr b).answer :: as, fun x => ?_⟩
    have hwr : exec (.wr b) (s.withPolicy x) = .next ((s.afterWr b).withPolicy x) := by
      rw [exec_wr_ready (s := s.withPolicy x) h hlt, State.afterWr_withPolicy hok]
    rw [List.map_cons, runTrace_cons hwr, hrun]
    rfl

/-- Settles O26: ADDR at an aligned address starts a burst that has passed an aligned byte. -/
theorem policiesAgreeOnAlignedBursts : Obligations.PoliciesAgreeOnAlignedBursts := by
  intro s a bs h haligned
  have ⟨hwf, _⟩ := h
  have ha : a.toNat < s.params.total := by
    obtain ⟨r, hr, hoff⟩ := (Params.aligned_iff hwf).mp haligned
    exact hoff ▸ Params.off_lt_total hwf hr
  have hcursor : (s.afterAddr a).cursor.toNat < s.params.total := s.afterAddr_cursor_toNat a ▸ ha
  obtain ⟨t, as, hwrites⟩ := runTrace_wr_withPolicy (s := s.afterAddr a) h hcursor haligned bs
  have hrun : ∀ x, runTrace (.addr a :: bs.map .wr) (s.withPolicy x) = some (t.withPolicy x, {} :: as) := by
    intro x
    have haddr : exec (.addr a) (s.withPolicy x) = .next ((s.afterAddr a).withPolicy x) :=
      exec_addr_ready (s := s.withPolicy x) h ha
    rw [runTrace_cons haddr, hwrites]
    rfl
  exact ⟨_, _, _, _, hrun false, hrun true, rfl, rfl⟩

/-! What no event reads: `bus_state` (43 R188) -/

/-- Settles O30: each event's next state takes nothing from `bus_state`, and all but a fault set it. -/
theorem busStateGatesNothing : Obligations.BusStateGatesNothing := by
  intro s w i x h hlt hdec
  have h' : State.Ready { s with busState := x } := h
  obtain rfl | ⟨a, rfl⟩ | ⟨b, rfl⟩ | ⟨n, rfl⟩ := busEvent_of_decodeInstr_ev hdec
  · exact ⟨_, _, exec_endTx_ready h, exec_endTx_ready h', rfl, fun _ => rfl⟩
  · rcases Nat.lt_or_ge a.toNat s.params.total with ha | ha
    · exact ⟨_, _, exec_addr_ready h ha, exec_addr_ready h' ha, rfl, fun _ => rfl⟩
    · exact ⟨_, _, exec_addr_outOfRange h ha, exec_addr_outOfRange h' ha, rfl, nofun⟩
  · exact ⟨_, _, exec_wr_ready h hlt b, exec_wr_ready h' hlt b, rfl, fun _ => rfl⟩
  · exact ⟨_, _, exec_rd_ready h hlt n, exec_rd_ready h' hlt n, rfl, fun _ => rfl⟩

/-! What no event changes (43 R180, R189) -/

/-- `t` differs from `s` in writable bytes, the bus's own state, the marker and the output ports at most. -/
def StaysInBusDomain (s t : State) : Prop :=
  (∀ a, s.params.writableAt a = false → t.reg.read a = s.reg.read a)
    ∧ t.nv = s.nv ∧ t.wear = s.wear ∧ t.params = s.params ∧ t.job = s.job ∧ t.inbox = s.inbox

theorem KeepsSpaces.staysInBusDomain {s t : State} (h : KeepsSpaces s t) : StaysInBusDomain s t := by
  rw [h]
  exact ⟨fun _ _ => rfl, rfl, rfl, rfl, rfl, rfl⟩

theorem State.afterWr_staysInBusDomain (b : Byte) (s : State) : StaysInBusDomain s (s.afterWr b) := by
  refine ⟨fun a ha => ?_, rfl, rfl, rfl, rfl, rfl⟩
  rw [State.afterWr_read, if_neg]
  rintro ⟨rfl, hstores⟩
  rw [State.writableAt_of_storesAtCursor hstores] at ha
  cases ha

/-- WR stores where the class is writable; the other three events write neither space. -/
theorem exec_busEvent_staysInBusDomain {w : BitVec 10} {i : Instr} (hdec : decodeInstr (.ev w) = .ok i) (s : State) :
    NextHolds (StaysInBusDomain s) (exec i s) := by
  intro t ht
  obtain rfl | ⟨a, rfl⟩ | ⟨b, rfl⟩ | ⟨n, rfl⟩ := busEvent_of_decodeInstr_ev hdec
  · exact (exec_keepsSpaces rfl s t ht).staysInBusDomain
  · exact (exec_keepsSpaces rfl s t ht).staysInBusDomain
  · exact exec_wr_next ht ▸ s.afterWr_staysInBusDomain b
  · exact (exec_keepsSpaces rfl s t ht).staysInBusDomain

/-- Settles O31: the step runs the word's event on the state without the word. -/
theorem busEventsStayInTheBusDomain : Obligations.BusEventsStayInTheBusDomain := by
  intro s t w rest hinbox hstep
  have hdec : decodeInstr (.ev w) = .ok (decodeEv w) := rfl
  rw [stepRunsTheDecodedInstruction s (.ev w) _ rest hinbox hdec (.inr ⟨w, rfl⟩)] at hstep
  exact exec_busEvent_staysInBusDomain hdec { s with inbox := rest } t hstep

end Sys2Proof.Machine

/-! PROOF. The two forms of the CRC (44 R211, R212): the division is linear, so that a byte's eight bits may be divided
apart from the rest of the register, and that part is the table's entry. -/

namespace Sys2Proof.Machine

theorem crcBit_xor (c d : Word32) : crcBit (c ^^^ d) = crcBit c ^^^ crcBit d := by
  have hcancel : ∀ x y g : Word32, (x ^^^ g) ^^^ (y ^^^ g) = x ^^^ y := by
    intro x y g
    rw [BitVec.xor_comm y, BitVec.xor_assoc, ← BitVec.xor_assoc g, BitVec.xor_self, BitVec.zero_xor]
  simp only [crcBit, BitVec.getLsbD_xor, BitVec.ushiftRight_xor_distrib]
  cases c.getLsbD 0 <;> cases d.getLsbD 0
  · rfl
  · exact BitVec.xor_assoc ..
  · simp only [Bool.xor_false, if_true, if_false, Bool.false_eq_true]
    rw [BitVec.xor_assoc, BitVec.xor_assoc, BitVec.xor_comm (d >>> 1)]
  · exact (hcancel ..).symm

theorem crcBits_xor (n : Nat) (c d : Word32) : crcBits n (c ^^^ d) = crcBits n c ^^^ crcBits n d := by
  induction n generalizing c d with
  | zero => rfl
  | succ n ih => rw [crcBits, crcBit_xor, ih, crcBits, crcBits]

/-- Where no 1 falls out, the division only shifts. -/
theorem crcBits_of_low_zero {n : Nat} {c : Word32} (h : ∀ i, i < n → c.getLsbD i = false) : crcBits n c = c >>> n := by
  induction n generalizing c with
  | zero => simp [crcBits]
  | succ n ih =>
    have hbit : crcBit c = c >>> 1 := if_neg (by rw [h 0 (by omega)]; exact Bool.false_ne_true)
    have hlow : ∀ i, i < n → (c >>> 1).getLsbD i = false := by
      intro i hi
      rw [BitVec.getLsbD_ushiftRight]
      exact h (1 + i) (by omega)
    rw [crcBits, hbit, ih hlow, ← BitVec.shiftRight_add, Nat.add_comm]

/-- The register's low byte, and the rest of it. -/
theorem low_xor_rest (c : Word32) : c = (c.setWidth 8).setWidth 32 ^^^ (c >>> 8) <<< 8 := by
  ext i hi
  by_cases h : i < 8
  · simp [h, BitVec.getLsbD_eq_getElem hi]
  · simp [h, show 8 + (i - 8) = i by omega, BitVec.getLsbD_eq_getElem hi]

/-- Eight divisions are one look into the table. -/
theorem crcBits_eq_table (c : Word32) : crcBits 8 c = crcTable (c.setWidth 8) ^^^ (c >>> 8) := by
  have hrest : crcBits 8 ((c >>> 8) <<< 8) = c >>> 8 := by
    rw [crcBits_of_low_zero fun i hi => by simp [hi]]
    ext i hi
    by_cases h : 8 + i < 32
    · simp [h]
    · simp [h, BitVec.getLsbD_of_ge c (8 + i) (by omega)]
  conv_lhs => rw [low_xor_rest c, crcBits_xor, hrest]
  rfl

theorem crcByte_eq_byTable (c : Word32) (b : Byte) : crcByte c b = crcByteByTable c b := by
  have hbyte : b.setWidth 32 >>> 8 = (0 : Word32) := by
    ext i hi
    simp
  rw [crcByte, crcBits_eq_table, BitVec.ushiftRight_xor_distrib, hbyte]
  exact congrArg _ BitVec.xor_zero

theorem crc32_eq_byTable (bs : List Byte) : crc32 bs = crc32ByTable bs := by
  rw [crc32, crcFrom, crc32ByTable, funext fun c => funext (crcByte_eq_byTable c)]

/-- Settles O34: the two forms agree on every byte, from every value of the register. -/
theorem crc32IsTheTableDrivenForm : Obligations.Crc32IsTheTableDrivenForm := by
  intro s bs h
  rw [← crc32_eq_byTable]
  exact admitted_ready h _

end Sys2Proof.Machine

/-! PROOF. Owed sub-steps (44 R222, 45 R251; log entries 4, 9): when a step takes one, and that taking all of a split
operation's with nothing between them ends where the operation as one step ends. -/

namespace Sys2Proof.Machine

/-! The turn of the next step -/

/-- A step whose turn is the main loop's takes the first sub-step owed. -/
theorem step_of_fetch_micro {s u : State} {m : Micro} {ms : List Micro} (hf : fetch s = (.micro, u)) (h : u.Ready)
    (hjob : u.job = m :: ms) : step s = .next { microEffect m { u with job := ms } with answer := {} } := by
  rw [step, hf]
  exact runMicro_cons h hjob

theorem mainTurn_owed {s : State} {m : Micro} {ms : List Micro} (hjob : s.job = m :: ms) : mainTurn s = .micro := by
  simp [mainTurn, hjob]

theorem mainTurn_free {s : State} (hjob : s.job = []) : mainTurn s = .idle := by
  simp [mainTurn, hjob]

theorem mainFree_owed {s : State} {m : Micro} {ms : List Micro} (h : s.fault = none) (hjob : s.job = m :: ms) :
    s.mainFree = false := by
  simp [State.mainFree, h, hjob]

theorem mainFree_of_free_or_stopped {s : State} (h : s.job = [] ∨ s.fault ≠ none) : s.mainFree = true := by
  simpa [State.mainFree, Option.isSome_iff_ne_none] using h

/-- With no input next, an owed sub-step is taken. -/
theorem step_owed {s : State} {m : Micro} {ms : List Micro} (h : s.Ready) (hinbox : s.inbox = [])
    (hjob : s.job = m :: ms) : step s = .next { microEffect m { s with job := ms } with answer := {} } :=
  step_of_fetch_micro (by simp [fetch, hinbox, mainTurn_owed hjob]) h hjob

/-- Settles O6: the turn of each input, by what is owed. -/
theorem stepTakesTheScheduledTurn : Obligations.StepTakesTheScheduledTurn := by
  intro s rest
  refine ⟨fun m ms h hjob => ⟨fun hinbox => step_owed h hinbox hjob, fun hinbox => ?_, fun hinbox => ?_,
    fun n args hinbox => ?_⟩, fun hinbox hfree => ?_, fun h hjob hinbox => ?_, fun h hjob hinbox => ?_⟩
  · exact step_of_fetch_micro (u := { s with inbox := rest }) (by simp [fetch, hinbox, mainTurn_owed hjob]) h hjob
  · exact step_of_fetch_micro (by simp [fetch, hinbox, mainFree_owed h.2 hjob]) h hjob
  · exact step_of_fetch_micro (by simp [fetch, hinbox, mainFree_owed h.2 hjob]) h hjob
  · have hf : fetch s = (.reset, { s with inbox := rest }) := by
      simp [fetch, hinbox, mainFree_of_free_or_stopped hfree]
    rw [step, hf]
  · have hf : fetch s = (.idle, s) := by simp [fetch, hinbox, mainTurn_free hjob]
    rw [step, hf]
    exact admitted_ready h _
  · have hf : fetch s = (.idle, { s with inbox := rest }) := by simp [fetch, hinbox, mainTurn_free hjob]
    rw [step, hf]
    exact admitted_ready (s := { s with inbox := rest }) h _

/-- Settles O39: the split variant's branch of each of the two operations. -/
theorem splitSaveStartsItsSubSteps : Obligations.SplitSaveStartsItsSubSteps := by
  intro s h hsplit
  constructor
  · simp [exec, execSave, admitted_ready h, hsplit, State.startJob, saveMicros]
  · simp [exec, execServiceTriggers, admitted_ready h, hsplit, State.startJob, serviceMicros]

/-! What is owed and what was answered decide no effect -/

/-- `s` with the owed sub-steps and the output ports given. -/
def State.withTurn (ms : List Micro) (a : Answer) (s : State) : State := { s with job := ms, answer := a }

section WithTurn
variable (s : State) (ms : List Micro) (a : Answer)

@[simp] theorem State.withTurn_params : (s.withTurn ms a).params = s.params := rfl
@[simp] theorem State.withTurn_withTurn (ms' : List Micro) (a' : Answer) :
    (s.withTurn ms' a').withTurn ms a = s.withTurn ms a := rfl

theorem State.nvWrite_withTurn (b : Nat) (v : Byte) :
    (s.withTurn ms a).nvWrite b v = (s.nvWrite b v).withTurn ms a := rfl

theorem State.nvWriteN_withTurn (b : Nat) (bs : List Byte) :
    (s.withTurn ms a).nvWriteN b bs = (s.nvWriteN b bs).withTurn ms a := by
  rw [State.nvWriteN_eq, State.nvWriteN_eq]
  rfl

theorem State.nvUpdate_withTurn (b : Nat) (v : Byte) :
    (s.withTurn ms a).nvUpdate b v = (s.nvUpdate b v).withTurn ms a := by
  rw [State.nvUpdate, State.nvUpdate, apply_ite (State.withTurn ms a)]
  rfl

theorem onVariant_withTurn (on : Bool) {f : State → State} (hf : ∀ t, f (t.withTurn ms a) = (f t).withTurn ms a) :
    onVariant on f (s.withTurn ms a) = (onVariant on f s).withTurn ms a := by
  cases on
  · rfl
  · exact hf s

theorem State.saveReg_withTurn (k : Nat) : (s.withTurn ms a).saveReg k = (s.saveReg k).withTurn ms a := by
  rw [State.saveReg, State.saveReg, State.withTurn_params]
  split
  · rfl
  · dsimp only
    rw [State.nvWriteN_withTurn, apply_ite (State.withTurn ms a)]
    rfl

theorem State.saveBlock_withTurn (base : Nat) (sig : Byte) (n : RegName) :
    (s.withTurn ms a).saveBlock base sig n = (s.saveBlock base sig n).withTurn ms a := by
  rw [State.saveBlock, State.nvUpdate_withTurn]
  rfl

theorem State.saveBlocks_withTurn : (s.withTurn ms a).saveBlocks = s.saveBlocks.withTurn ms a := by
  rw [State.saveBlocks, onVariant_withTurn _ _ _ _ fun t => t.saveBlock_withTurn ms a _ _ _,
    onVariant_withTurn _ _ _ _ fun t => t.saveBlock_withTurn ms a _ _ _]
  rfl

theorem State.eraseConfig_withTurn : (s.withTurn ms a).eraseConfig = s.eraseConfig.withTurn ms a := by
  simp only [State.eraseConfig, State.nvWrite_withTurn, State.nvWriteN_withTurn, State.withTurn_params]
  rw [onVariant_withTurn _ _ _ _ fun t => t.nvWriteN_withTurn ms a _ _,
    onVariant_withTurn _ _ _ _ fun t => t.nvWriteN_withTurn ms a _ _]
  rfl

/-- The two sub-steps that owe more of them. -/
def Micro.isTest : Micro → Bool
  | .testWrite | .testReset => true
  | _ => false

/-- Every other sub-step acts alike whatever is owed after it. -/
theorem microEffect_withTurn {m : Micro} (hm : m.isTest = false) :
    microEffect m (s.withTurn ms a) = (microEffect m s).withTurn ms a := by
  cases m with
  | testWrite | testReset => cases hm
  | saveReg k => exact s.saveReg_withTurn ms a k
  | saveCrc => exact s.nvWriteN_withTurn ms a _ _
  | saveBlocks => exact s.saveBlocks_withTurn ms a
  | eraseConfig => exact s.eraseConfig_withTurn ms a
  | saveSig | saveFlag | clearWrite | clearReset => rfl

theorem State.serveReset_withTurn : (s.withTurn ms a).serveReset = s.serveReset.withTurn ms a := by
  rw [State.serveReset, State.serveReset, State.eraseConfig_withTurn, apply_ite (State.withTurn ms a)]
  rfl

end WithTurn

/-- The effect of sub-steps taken one after the other. -/
def microEffects (ms : List Micro) (s : State) : State := ms.foldl (fun t m => microEffect m t) s

/-! Runs of sub-steps -/

/-- A block that may take a step and has no input next. -/
def State.Alone (s : State) : Prop := s.Ready ∧ s.inbox = []

theorem State.Alone.withTurn {s : State} (h : s.Alone) (ms : List Micro) (a : Answer) : (s.withTurn ms a).Alone := h

theorem State.Alone.microEffect {s : State} (h : s.Alone) (m : Micro) : (microEffect m s).Alone := by
  rw [microEffect_frame]
  exact h

theorem State.Alone.serveWrite {s : State} (h : s.Alone) : s.serveWrite.Alone := by
  rw [State.serveWrite_frame]
  exact h

theorem run_succ {M : Host.Core} {s t : M.State} (h : M.step s = .next t) (k : Nat) : M.run (k + 1) s = M.run k t := by
  rw [Host.Core.run, h]

theorem run_add {M : Host.Core} {s t : M.State} {j : Nat} (h : M.run j s = .next t) (k : Nat) :
    M.run (j + k) s = M.run k t := by
  induction j generalizing s with
  | zero =>
    rw [Host.Core.run] at h
    cases h
    rw [Nat.zero_add]
  | succ j ih =>
    rw [Host.Core.run] at h
    split at h
    · next u hu =>
      rw [Nat.succ_add, run_succ hu]
      exact ih h
    · cases h
    · cases h

/-- Its effect on the state, and nothing on the ports. -/
theorem step_micro {s : State} (h : s.Alone) {m : Micro} (hm : m.isTest = false) {rest : List Micro}
    (hjob : s.job = m :: rest) : step s = .next ((microEffect m s).withTurn rest {}) := by
  rw [step_owed h.1 h.2 hjob, show { s with job := rest } = s.withTurn rest s.answer from rfl,
    microEffect_withTurn _ _ _ hm]
  rfl

/-- Sub-steps owed and none of them a test: they run to the end, one a step. -/
theorem run_micros {ms : List Micro} (hms : ∀ m ∈ ms, m.isTest = false) {s : State} (h : s.Alone) (rest : List Micro) :
    Host.Core.run core ms.length (s.withTurn (ms ++ rest) {}) = .next ((microEffects ms s).withTurn rest {}) := by
  induction ms generalizing s with
  | nil => rfl
  | cons m ms ih =>
    obtain ⟨hm, hms⟩ := List.forall_mem_cons.mp hms
    have hstep := step_micro (h.withTurn (m :: ms ++ rest) {}) hm (rest := ms ++ rest) rfl
    rw [microEffect_withTurn _ _ _ hm, State.withTurn_withTurn] at hstep
    exact (run_succ (M := core) hstep ms.length).trans (ih hms (h.microEffect m))

/-- The state `t` is reached in some number of steps. -/
def Reaches (s t : State) : Prop := ∃ k, Host.Core.run core k s = .next t

theorem Reaches.trans {s t u : State} (h : Reaches s t) (h' : Reaches t u) : Reaches s u := by
  obtain ⟨j, hj⟩ := h
  obtain ⟨k, hk⟩ := h'
  exact ⟨j + k, (run_add (M := core) hj k).trans hk⟩

theorem Reaches.of_step {s t : State} (h : step s = .next t) : Reaches s t := ⟨1, run_succ (M := core) h 0⟩

/-! The operations of the main loop -/

theorem saveMicros_not_test (p : Params) : ∀ m ∈ saveMicros p, m.isTest = false := by
  intro m hm
  simp only [saveMicros, List.mem_append, List.mem_map, List.mem_cons, List.not_mem_nil, or_false] at hm
  obtain ⟨k, -, rfl⟩ | rfl | rfl | rfl | rfl := hm <;> rfl

/-- All of SAVE's sub-steps, whatever the ports held before the first. -/
theorem run_save {s : State} (h : s.Alone) (hjob : s.job = saveMicros s.params) :
    Host.Core.run core s.job.length s = .next (s.save.withTurn [] {}) := by
  have hms := saveMicros_not_test s.params
  have hsave : s.save = microEffects (saveMicros s.params) s := rfl
  rw [hsave]
  cases hp : saveMicros s.params with
  | nil => simp [saveMicros] at hp
  | cons m ms =>
    rw [hp] at hjob hms
    obtain ⟨hm, hms⟩ := List.forall_mem_cons.mp hms
    have hrun := run_micros hms (h.microEffect m) []
    rw [List.append_nil] at hrun
    rw [hjob]
    exact (run_succ (M := core) (step_micro h hm hjob) ms.length).trans hrun

/-- SERVICE_TRIGGERS up to its second test. -/
theorem reaches_serveWrite {s : State} (h : s.Alone) {rest : List Micro} (hjob : s.job = .testWrite :: rest) :
    Reaches s (s.serveWrite.withTurn rest {}) := by
  have hstep := step_owed h.1 h.2 hjob
  cases hbit : s.configBit s.params.configBits.writeConfig with
  | false =>
    have hserve : s.serveWrite = s := by simp [State.serveWrite, hbit]
    have heffect : microEffect .testWrite { s with job := rest } = { s with job := rest } :=
      if_neg (by rw [Bool.not_eq_true]; exact hbit)
    rw [heffect] at hstep
    exact hserve.symm ▸ Reaches.of_step hstep
  | true =>
    have hserve : s.serveWrite = microEffects (saveMicros s.params ++ [.clearWrite]) s := by
      rw [State.serveWrite, if_pos hbit, microEffects, List.foldl_append]
      change _ = s.save.putConfig s.save.params.configBits.writeConfig false
      rw [State.save_params]
    have hms : ∀ m ∈ saveMicros s.params ++ [Micro.clearWrite], m.isTest = false := by
      intro m hm
      obtain hm | hm := List.mem_append.mp hm
      · exact saveMicros_not_test _ m hm
      · rw [List.mem_singleton.mp hm]; rfl
    have heffect : microEffect .testWrite { s with job := rest }
        = { s with job := saveMicros s.params ++ .clearWrite :: rest } := if_pos hbit
    have hrun := run_micros hms h rest
    rw [List.append_assoc] at hrun
    rw [heffect] at hstep
    rw [hserve]
    exact (Reaches.of_step hstep).trans ⟨_, hrun⟩

/-- The rest of SERVICE_TRIGGERS. -/
theorem reaches_serveReset {s : State} (h : s.Alone) {rest : List Micro} (hjob : s.job = .testReset :: rest) :
    Reaches s (s.serveReset.withTurn rest {}) := by
  have hstep := step_owed h.1 h.2 hjob
  cases hbit : s.configBit s.params.configBits.resetConfig with
  | false =>
    have hserve : s.serveReset = s := by simp [State.serveReset, hbit]
    have heffect : microEffect .testReset { s with job := rest } = { s with job := rest } :=
      if_neg (by rw [Bool.not_eq_true]; exact hbit)
    rw [heffect] at hstep
    exact hserve.symm ▸ Reaches.of_step hstep
  | true =>
    have hserve : s.serveReset = microEffects [.eraseConfig, .clearReset] s := by
      rw [State.serveReset, if_pos hbit]
      change _ = s.eraseConfig.putConfig s.eraseConfig.params.configBits.resetConfig false
      rw [State.eraseConfig_params]
    have heffect : microEffect .testReset { s with job := rest }
        = { s with job := .eraseConfig :: .clearReset :: rest } := if_pos hbit
    have hrun := run_micros (ms := [.eraseConfig, .clearReset]) (by decide) h rest
    rw [heffect] at hstep
    rw [hserve]
    exact (Reaches.of_step hstep).trans ⟨_, hrun⟩

/-- Settles O40: SAVE's sub-steps make up SAVE, and each test of SERVICE_TRIGGERS starts the half it stands for. -/
theorem splitOperationsRefineTheAtomicOnes : Obligations.SplitOperationsRefineTheAtomicOnes := by
  intro s h hinbox
  have halone : s.Alone := ⟨h, hinbox⟩
  refine ⟨run_save halone, fun hjob => ?_⟩
  have hwrite := reaches_serveWrite halone hjob
  have hreset := reaches_serveReset (halone.serveWrite.withTurn [.testReset] {}) (rest := []) rfl
  rw [State.serveReset_withTurn] at hreset
  exact hwrite.trans hreset

end Sys2Proof.Machine

/-! PROOF. What SAVE leaves (44 R213, R215, R222, R223): the image byte by byte, the store's blocks, the one bit of the
register file, and how many writes it takes. -/

namespace Sys2Proof.Machine

/-! The image (44 R213) -/

/-- A byte of a persisted register as it is stored. -/
def State.imageByte (s : State) (n : RegName) (j : Nat) : Byte :=
  if n = .config then s.reg.read (s.params.offOf n + j) &&& s.params.configMask
  else s.reg.read (s.params.offOf n + j)

theorem State.fieldImage_getElem? (s : State) {n : RegName} {j : Nat} (hj : j < s.params.widthOf n) :
    (s.fieldImage n)[j]? = some (s.imageByte n j) := by
  have hbyte : (s.regBytes (s.params.idOf n))[j]? = some (s.reg.read (s.params.offOf n + j)) :=
    s.regBytes_getElem? _ hj
  unfold State.fieldImage State.imageByte
  dsimp only
  split
  · rw [List.getElem?_map, hbyte]; rfl
  · exact hbyte

/-- Settles O35: a byte of the image is a byte of one register's image. -/
theorem imageConcatenatesThePersistedRegisters : Obligations.ImageConcatenatesThePersistedRegisters :=
  fun s => ⟨s.persistImage_length, fun _ _ _ hk hj => (s.persistImage_getElem? hk hj).trans (s.fieldImage_getElem? hj)⟩

/-! The CRC in the store (44 R214, R222) -/

theorem Memory.read_writeN_crcBytes (m : Memory) (a : Nat) (c : Word32) {j : Nat} (hj : j < 4) :
    (m.writeN a (crcBytes c)).read (a + j) = c.extractLsb' (8 * j) 8 := by
  rw [Memory.read_writeN, if_pos (Nat.le_add_right a j), Nat.add_sub_cancel_left, crcBytes_getElem? c hj]
  rfl

/-- The CRC stands behind the data, so that writing it keeps the data. -/
theorem Memory.readN_data_writeN_crcBytes {p : Params} (h : p.wf = true) (m : Memory) (c : Word32) :
    (m.writeN p.nvCrc (crcBytes c)).readN p.nvData p.plen = m.readN p.nvData p.plen :=
  Memory.readN_writeN_disjoint m (.inl (Params.wf_spec h).nvCrc_eq.ge)

theorem State.saveCrc_storedData {s : State} (h : s.params.wf = true) : s.saveCrc.storedData = s.storedData := by
  rw [State.storedData, State.saveCrc_params, State.saveCrc, State.nvWriteN_nv, Memory.readN_data_writeN_crcBytes h]
  rfl

theorem State.saveCrc_read (s : State) {j : Nat} (hj : j < 4) :
    s.saveCrc.nv.read (s.params.nvCrc + j) = (crc32 s.storedData).extractLsb' (8 * j) 8 := by
  rw [State.saveCrc, State.nvWriteN_nv, Memory.read_writeN_crcBytes _ _ _ hj]

/-- Settles O41: S2 takes the CRC of the data it finds and keeps that data. -/
theorem storedCrcMatchesTheStoredData : Obligations.StoredCrcMatchesTheStoredData := by
  intro s rest h hinbox hjob
  have hdata := State.saveCrc_storedData (s := { s with job := rest }) h.1
  refine ⟨_, step_owed h hinbox hjob, ?_, hdata, fun j hj => ?_⟩
  · simp [microEffect, State.saveCrc, State.nvWriteN_eq]
  · exact (State.saveCrc_read { s with job := rest } hj).trans
      (congrArg (fun bs => (crc32 bs).extractLsb' _ 8) hdata.symm)

/-! The store and the register file after SAVE (44 R215, R218) -/

/-- The main block and the optional blocks do not meet (00 R8). -/
theorem Params.not_inOptionalBlock {p : Params} (h : p.wf = true) {a : Nat} (ha : inMainBlock p a) :
    ¬ inOptionalBlock p a := by
  obtain ⟨_, hsigA, hsigM, hdataA, hdataM, hcrcA, hcrcM, _⟩ := Params.store_layout h
  rintro (⟨-, ho⟩ | ⟨-, ho⟩) <;> obtain rfl | hm | hm := ha <;> omega

section Save
variable {s : State}

/-- Outside the optional blocks SAVE leaves the signature, the image and its CRC, and what was there. -/
theorem State.save_read_main {x : Nat} (hx : ¬ inOptionalBlock s.params x) :
    s.save.nv.read x
      = if x = s.params.nvSig then s.params.signature
        else ((s.nv.writeN s.params.nvData s.persistImage).writeN s.params.nvCrc
          (crcBytes (crc32 s.persistImage))).read x := by
  obtain ⟨haddr, hmodel⟩ := not_or.mp hx
  rw [State.save_read, if_neg fun h => hmodel ⟨h.1, .inl h.2⟩, if_neg fun h => hmodel ⟨h.1, .inr h.2⟩,
    if_neg fun h => haddr ⟨h.1, .inl h.2⟩, if_neg fun h => haddr ⟨h.1, .inr h.2⟩]

theorem State.save_read_signature (h : s.params.wf = true) : s.save.nv.read s.params.nvSig = s.params.signature := by
  rw [State.save_read_main (Params.not_inOptionalBlock h (.inl rfl)), if_pos rfl]

theorem State.save_read_crc (h : s.params.wf = true) {j : Nat} (hj : j < 4) :
    s.save.nv.read (s.params.nvCrc + j) = (crc32 s.persistImage).extractLsb' (8 * j) 8 := by
  obtain ⟨⟨hsig, hcrc⟩, _⟩ := Params.store_layout h
  have hin : inMainBlock s.params (s.params.nvCrc + j) := .inr (.inr (by omega))
  rw [State.save_read_main (Params.not_inOptionalBlock h hin), if_neg (by omega), Memory.read_writeN_crcBytes _ _ _ hj]

theorem State.save_readN_data (h : s.params.wf = true) :
    s.save.nv.readN s.params.nvData s.params.plen = s.persistImage := by
  obtain ⟨⟨hsig, _⟩, _⟩ := Params.store_layout h
  have hread : ∀ x, s.params.nvData ≤ x → x < s.params.nvData + s.params.plen → s.save.nv.read x
      = ((s.nv.writeN s.params.nvData s.persistImage).writeN s.params.nvCrc
        (crcBytes (crc32 s.persistImage))).read x := by
    intro x hlo hhi
    rw [State.save_read_main (Params.not_inOptionalBlock h (.inr (.inl ⟨hlo, hhi⟩))), if_neg (by omega)]
  rw [Memory.readN_congr hread, Memory.readN_data_writeN_crcBytes h, ← State.persistImage_length, Memory.readN_writeN]

theorem State.save_storedData (h : s.params.wf = true) : s.save.storedData = s.persistImage := by
  rw [State.storedData, State.save_params, State.save_readN_data h]

theorem State.save_read_outside {a : Nat} (hmain : ¬ inMainBlock s.params a) (hopt : ¬ inOptionalBlock s.params a) :
    s.save.nv.read a = s.nv.read a := by
  obtain ⟨hsig, hrest⟩ := not_or.mp hmain
  obtain ⟨hdata, hcrc⟩ := not_or.mp hrest
  rw [State.save_read_main hopt, if_neg hsig, Memory.read_writeN_outside, Memory.read_writeN_outside]
  · rw [State.persistImage_length]; omega
  · rw [crcBytes_length]; omega

theorem State.save_read_addrBlock (h : s.params.wf = true) (hon : s.params.persistAddr = true) :
    s.save.nv.read s.params.nvAblk = s.params.sigAddr
      ∧ s.save.nv.read (s.params.nvAblk + 1) = s.reg.read (s.params.offOf .deviceAddress) := by
  obtain ⟨_, _, _, _, _, _, _, hblocks⟩ := Params.store_layout h
  constructor
  · rw [State.save_read, if_neg (by omega), if_neg (by omega), if_pos ⟨hon, rfl⟩]
  · rw [State.save_read, if_neg (by omega), if_neg (by omega), if_neg (by omega), if_pos ⟨hon, rfl⟩]

theorem State.save_read_modelBlock (hon : s.params.persistModel = true) :
    s.save.nv.read s.params.nvMblk = s.params.sigModel
      ∧ s.save.nv.read (s.params.nvMblk + 1) = s.reg.read (s.params.offOf .model) := by
  constructor
  · rw [State.save_read, if_pos ⟨hon, rfl⟩]
  · rw [State.save_read, if_neg (by omega), if_pos ⟨hon, rfl⟩]

theorem State.save_onlyStatusBit (h : s.params.wf = true) :
    onlyStatusBit s s.save s.params.statusBits.configSaved true := by
  rw [State.save_frame]
  exact State.putConfigSaved_only h true

end Save

/-- Settles O36: the store byte by byte, and the register file's one bit. -/
theorem saveStoresTheImage : Obligations.SaveStoresTheImage := by
  intro s h hatomic
  refine ⟨_, exec_save_atomic h hatomic, ?_, State.save_storedData h.1, fun j hj => State.save_read_crc h.1 hj,
    State.save_read_signature h.1, State.save_read_addrBlock h.1, State.save_read_modelBlock,
    fun a => State.save_read_outside, State.save_onlyStatusBit h.1⟩
  rw [State.save_frame]
  rfl

/-! The count of store writes (44 R223; log entry 11) -/

/-- The writes S1 makes for the `k`-th register of PERSIST. -/
def State.saveRegWrites (s : State) (k : Nat) : Nat :=
  (s.params.persist[k]?.map fun n =>
    if s.nv.readN (s.params.nvData + s.params.idx k) (s.params.widthOf n) = s.fieldImage n then 0
    else s.params.widthOf n).getD 0

theorem State.saveReg_wear (s : State) (k : Nat) : (s.saveReg k).wear = s.wear + s.saveRegWrites k := by
  unfold State.saveReg State.saveRegWrites
  split
  · next hk => rw [hk]; rfl
  · next n hk =>
    rw [hk, Option.map_some, Option.getD_some]
    dsimp only
    rw [State.fieldImage_length]
    split
    · rfl
    · rw [State.nvWriteN_wear, State.fieldImage_length]

@[simp] theorem State.saveRegs_params (s : State) (m : Nat) : (s.saveRegs m).params = s.params := by
  rw [State.saveRegs_eq]

@[simp] theorem State.saveRegs_reg (s : State) (m : Nat) : (s.saveRegs m).reg = s.reg := by rw [State.saveRegs_eq]

/-- S1 of the registers before the `k`-th leaves the stored bytes of the `k`-th as they were. -/
theorem State.saveRegs_saveRegWrites (s : State) {k : Nat} (hk : k < s.params.persist.length) :
    (s.saveRegs k).saveRegWrites k = s.saveRegWrites k := by
  have hread : ∀ w, (s.saveRegs k).nv.readN (s.params.nvData + s.params.idx k) w
      = s.nv.readN (s.params.nvData + s.params.idx k) w := by
    refine fun w => Memory.readN_congr fun x hlo _ => ?_
    rw [State.saveRegs_read _ hk.le, Memory.read_writeN_outside]
    rw [State.imageTake_length]
    exact .inr hlo
  unfold State.saveRegWrites
  rw [State.saveRegs_params, State.fieldImage_congr (s.saveRegs_params k) (s.saveRegs_reg k)]
  simp only [hread]

theorem State.saveRegs_wear (s : State) {m : Nat} (hm : m ≤ s.params.persist.length) :
    (s.saveRegs m).wear = s.wear + ((List.range m).map s.saveRegWrites).sum := by
  induction m with
  | zero => rfl
  | succ m ih =>
    rw [State.saveRegs_succ, State.saveReg_wear, s.saveRegs_saveRegWrites hm, ih (Nat.le_of_succ_le hm)]
    simp [List.range_succ, Nat.add_assoc]

/-- Four writes of the CRC and one of the signature. -/
theorem State.save_wear {s : State} (haddr : s.params.persistAddr = false) (hmodel : s.params.persistModel = false) :
    s.save.wear = (s.saveRegs s.params.persist.length).wear + 5 := by
  rw [State.save_eq]
  simp [State.saveBlocks, onVariant, haddr, hmodel, State.saveCrc, crcBytes_length]

/-- Settles O37: the writes of S1, register by register, then those of S2 and S3. -/
theorem saveWritesOnlyWhatDiffers : Obligations.SaveWritesOnlyWhatDiffers := by
  intro s h hatomic haddr hmodel
  refine ⟨_, exec_save_atomic h hatomic, (State.save_wear haddr hmodel).trans ?_⟩
  rw [State.saveRegs_wear s (le_refl _)]
  rfl

end Sys2Proof.Machine

/-! PROOF. What RESTORE and RESETCONFIG leave (44 R216, R217, R219, R220): the persisted registers or none of them, an
optional block's register, the one bit of STATUS; and that an erased or a changed main block is none (44 R225, R226). -/

namespace Sys2Proof.Machine

/-! RESTORE (44 R216, R219) -/

theorem State.statusBit_congr {s t : State} (hp : t.params = s.params)
    (hr : t.reg.read (s.params.offOf .status) = s.reg.read (s.params.offOf .status)) (j : Nat) :
    t.statusBit j = s.statusBit j := by
  unfold State.statusBit State.bit
  rw [hp]
  exact congrArg (byteBit · j) hr

/-- A register one byte wide is its offset's. -/
theorem Params.inSpan_offOf {p : Params} {n : RegName} (h : p.widthOf n = 1) : inSpan p (p.idOf n) (p.offOf n) :=
  ⟨le_refl _, Nat.lt_add_of_pos_right (Nat.lt_of_lt_of_eq Nat.one_pos h.symm)⟩

section Restore
variable {s : State}

theorem exec_restore_ready (h : s.Ready) :
    exec .restore s
      = .next { s.restore with answer := { ret := some (.bool s.mainValid), raised := s.restoreRaised } } :=
  admitted_ready h _

/-- RESTORE's next state names what it may change. -/
theorem State.restore_answer_eq (s : State) (a : Answer) :
    { s.restore with answer := a } = { s with reg := s.restore.reg, answer := a } :=
  congrArg (fun u : State => { u with answer := a }) s.restore_frame

theorem State.mainValid_of_valid (h : validMainBlock s) : s.mainValid = true := s.mainValid_iff.mpr h

theorem State.mainValid_of_invalid (h : ¬ validMainBlock s) : s.mainValid = false :=
  Bool.eq_false_iff.mpr (mt s.mainValid_iff.mp h)

theorem State.restoreMain_of_valid (h : validMainBlock s) : s.restoreMain = s.restoreRegs.putConfigSaved true :=
  if_pos (State.mainValid_of_valid h)

theorem State.restoreMain_of_invalid (h : ¬ validMainBlock s) : s.restoreMain = s.putConfigSaved false :=
  if_neg (mt s.mainValid_iff.mp h)

@[simp] theorem State.restoreRegs_params : s.restoreRegs.params = s.params := by rw [State.restoreRegs_eq]

@[simp] theorem State.restoreMain_params : s.restoreMain.params = s.params := by rw [State.restoreMain_eq]

/-- The registers of the optional blocks are DEVICE_ADDRESS and MODEL, no byte of any other (44 R218). -/
theorem not_takenByOptionalBlock (h : s.params.wf = true) {n : RegName} (hn : s.params.idOf n < s.params.regCount)
    (haddr : n ≠ .deviceAddress) (hmodel : n ≠ .model) {a : Nat} (ha : inSpan s.params (s.params.idOf n) a) :
    ¬ takenByOptionalBlock s a := by
  have hw := Params.wf_spec h
  have hother : ∀ {m}, s.params.widthOf m = 1 → n ≠ m → a ≠ s.params.offOf m := by
    rintro m hm hne rfl
    have hdecl := s.params.declared_of_width_one hm
    exact hne (s.params.idOf_inj hn (Params.inSpan_unique hdecl (Params.inSpan_offOf hm) hn ha))
  rintro (⟨hx, -⟩ | ⟨hx, -⟩)
  · exact hother hw.deviceAddress_width haddr hx
  · exact hother hw.model_width hmodel hx

theorem not_takenByOptionalBlock_status (h : s.params.wf = true) :
    ¬ takenByOptionalBlock s (s.params.offOf .status) :=
  have hwidth := (Params.wf_spec h).status_width
  not_takenByOptionalBlock h (s.params.declared_of_width_one hwidth) (by decide) (by decide)
    (Params.inSpan_offOf hwidth)

/-- STATUS is what the main block leaves of it. -/
theorem State.restore_statusBit (h : s.params.wf = true) (j : Nat) :
    s.restore.statusBit j = s.restoreMain.statusBit j := by
  refine State.statusBit_congr (by simp) ?_ j
  rw [State.restoreMain_params]
  exact State.restore_read_main s (not_takenByOptionalBlock_status h)

theorem State.restoreMain_configSaved (h : s.params.wf = true) :
    s.restoreMain.statusBit s.params.statusBits.configSaved = s.mainValid := by
  have hlt := Nat.lt_succ_of_le (Params.configSaved_le h)
  by_cases hv : validMainBlock s
  · have hregs : s.restoreRegs.params.wf = true := by rwa [State.restoreRegs_params]
    have hbit := (State.putConfigSaved_only hregs true).2 _ hlt
    rw [State.restoreRegs_params, if_pos rfl] at hbit
    rw [State.restoreMain_of_valid hv, hbit, State.mainValid_of_valid hv]
  · rw [State.restoreMain_of_invalid hv, (State.putConfigSaved_only h false).2 _ hlt, if_pos rfl,
      State.mainValid_of_invalid hv]

/-- A persisted register's byte after RESTORE of a valid block. -/
theorem State.restore_read_persisted (h : s.params.wf = true) (hv : validMainBlock s) (hplain : s.params.plainPersist)
    {k j : Nat} {n : RegName} (hk : s.params.persist[k]? = some n) (hj : j < s.params.widthOf n)
    (ht : ¬ takenByOptionalBlock s (s.params.offOf n + j)) :
    s.restore.reg.read (s.params.offOf n + j) = s.nv.read (s.params.nvData + s.params.idx k + j) := by
  obtain ⟨hnodup, hstatus⟩ := hplain
  have hn : n ∈ s.params.persist := List.mem_of_getElem? hk
  have hne : s.params.offOf n + j ≠ s.params.offOf .status :=
    Params.ne_offOf_status h ((Params.wf_spec h).persist_declared n hn) (fun he => hstatus (he ▸ hn))
      ⟨Nat.le_add_right _ _, Nat.add_lt_add_left hj _⟩
  rw [State.restore_read_main s ht, State.restoreMain_of_valid hv, State.putConfigSaved_read, State.restoreRegs_params,
    if_neg hne, State.restoreRegs_read_inside h hnodup hk hj]

/-- Any other byte but STATUS. -/
theorem State.restore_read_other (hv : validMainBlock s) {a : Nat}
    (hout : ∀ n ∈ s.params.persist, ¬ inSpan s.params (s.params.idOf n) a) (hne : a ≠ s.params.offOf .status)
    (ht : ¬ takenByOptionalBlock s a) : s.restore.reg.read a = s.reg.read a := by
  rw [State.restore_read_main s ht, State.restoreMain_of_valid hv, State.putConfigSaved_read, State.restoreRegs_params,
    if_neg hne, State.restoreRegs_read_outside s hout]

/-- STATUS after RESTORE of a valid block. -/
theorem State.restore_statusBit_of_valid (h : s.params.wf = true) (hv : validMainBlock s)
    (hstatus : .status ∉ s.params.persist) {j : Nat} (hj : j < 8) :
    s.restore.statusBit j = if j = s.params.statusBits.configSaved then true else s.statusBit j := by
  have hout : ∀ n ∈ s.params.persist, ¬ inSpan s.params (s.params.idOf n) (s.params.offOf .status) := fun n hn hin =>
    Params.ne_offOf_status h ((Params.wf_spec h).persist_declared n hn) (fun he => hstatus (he ▸ hn)) hin rfl
  have hregs : s.restoreRegs.params.wf = true := by rwa [State.restoreRegs_params]
  rw [State.restore_statusBit h, State.restoreMain_of_valid hv, (State.putConfigSaved_only hregs true).2 j hj,
    State.restoreRegs_params, State.statusBit_congr State.restoreRegs_params (State.restoreRegs_read_outside s hout)]

/-- A byte after RESTORE of an invalid block. -/
theorem State.restore_read_of_invalid (hv : ¬ validMainBlock s) {a : Nat} (hne : a ≠ s.params.offOf .status)
    (ht : ¬ takenByOptionalBlock s a) : s.restore.reg.read a = s.reg.read a := by
  rw [State.restore_read_main s ht, State.restoreMain_of_invalid hv, State.putConfigSaved_read, if_neg hne]

theorem State.restore_statusBit_of_invalid (h : s.params.wf = true) (hv : ¬ validMainBlock s) {j : Nat} (hj : j < 8) :
    s.restore.statusBit j = if j = s.params.statusBits.configSaved then false else s.statusBit j := by
  rw [State.restore_statusBit h, State.restoreMain_of_invalid hv]
  exact (State.putConfigSaved_only h false).2 j hj

/-- Settles O42: the main block's copy or none, and CONFIG_SAVED after it. -/
theorem restoreIsAllOrNothing : Obligations.RestoreIsAllOrNothing := by
  intro s h
  refine ⟨fun hv hplain => ?_, fun hv => ?_⟩
  · have hexec := exec_restore_ready h
    rw [State.restoreRaised, State.mainValid_of_valid hv] at hexec
    exact ⟨_, hexec, s.restore_answer_eq _, fun k n j => State.restore_read_persisted h.1 hv hplain,
      fun a => State.restore_read_other hv, fun j => State.restore_statusBit_of_valid h.1 hv hplain.2⟩
  · have hexec := exec_restore_ready h
    rw [State.restoreRaised, State.mainValid_of_invalid hv] at hexec
    exact ⟨_, hexec, s.restore_answer_eq _, fun a => State.restore_read_of_invalid hv,
      fun j => State.restore_statusBit_of_invalid h.1 hv⟩

/-- An enabled, signed block gives DEVICE_ADDRESS, which is another register than MODEL. -/
theorem State.restore_read_deviceAddress (h : s.params.wf = true) (hon : s.params.persistAddr = true)
    (hsig : s.nv.read s.params.nvAblk = s.params.sigAddr) :
    s.restore.reg.read (s.params.offOf .deviceAddress) = s.nv.read (s.params.nvAblk + 1) := by
  have hw := Params.wf_spec h
  have hspans := s.params.named_disjoint (s.params.declared_of_width_one hw.deviceAddress_width)
    (s.params.declared_of_width_one hw.model_width) (by decide)
  rw [hw.deviceAddress_width, hw.model_width] at hspans
  rw [State.restore_read, if_neg (by omega), if_pos ⟨rfl, hon, hsig⟩]

theorem State.restore_read_model (hon : s.params.persistModel = true)
    (hsig : s.nv.read s.params.nvMblk = s.params.sigModel) :
    s.restore.reg.read (s.params.offOf .model) = s.nv.read (s.params.nvMblk + 1) := by
  rw [State.restore_read, if_pos ⟨rfl, hon, hsig⟩]

end Restore

/-- Settles O43: CONFIG_SAVED and the answer are the main block's validity, each block's register is read after it. -/
theorem optionalBlocksAreIndependent : Obligations.OptionalBlocksAreIndependent := fun s h =>
  ⟨_, s.mainValid, exec_restore_ready h, rfl, s.mainValid_iff,
    (State.restore_statusBit h.1 _).trans (State.restoreMain_configSaved h.1), State.restore_read_deviceAddress h.1,
    State.restore_read_model, s.restore_answer_eq _⟩

/-! RESETCONFIG (44 R217, R226) -/

theorem exec_resetConfig_ready {s : State} (h : s.Ready) :
    exec .resetConfig s = .next { s.eraseConfig with answer := {} } :=
  admitted_ready h _

theorem State.eraseConfig_onlyStatusBit {s : State} (h : s.params.wf = true) :
    onlyStatusBit s s.eraseConfig s.params.statusBits.configSaved false := by
  rw [State.eraseConfig_frame]
  exact State.putConfigSaved_only h false

theorem State.eraseConfig_ready {s : State} (h : s.Ready) : s.eraseConfig.Ready := by
  rw [State.eraseConfig_frame]
  exact h

/-- An erased signature is not SIGNATURE (44 R226). -/
theorem State.eraseConfig_invalid {s : State} (h : s.params.wf = true) : ¬ validMainBlock s.eraseConfig := by
  intro ⟨hsig, _⟩
  rw [State.eraseConfig_params, State.eraseConfig_nv, State.erased_read, if_pos (.inl (.inl rfl))] at hsig
  exact (Params.wf_spec h).signature_ne hsig.symm

/-- Settles O44: the erased store byte by byte, and the register file's one bit. -/
theorem resetConfigErasesTheStore : Obligations.ResetConfigErasesTheStore := by
  intro s h
  refine ⟨_, exec_resetConfig_ready h, ?_, fun a ha => ?_, fun a hmain hopt => ?_, State.eraseConfig_onlyStatusBit h.1⟩
  · rw [State.eraseConfig_frame]
    rfl
  · exact (congrArg (Memory.read · a) s.eraseConfig_nv).trans ((s.erased_read a).trans (if_pos ha))
  · exact (congrArg (Memory.read · a) s.eraseConfig_nv).trans
      ((s.erased_read a).trans (if_neg (not_or.mpr ⟨hmain, hopt⟩)))

/-- Settles O45: the erased signature is what RESTORE rejects. -/
theorem erasedStoreIsAbsent : Obligations.ErasedStoreIsAbsent := by
  intro s h
  refine ⟨_, _, exec_resetConfig_ready h, exec_restore_ready (State.eraseConfig_ready h), ?_⟩
  exact congrArg (fun v => some (Result.bool v)) (State.mainValid_of_invalid (State.eraseConfig_invalid h.1))

/-! A changed byte of the main block (44 R224 (b), R225) -/

/-- The data before and after one of its bytes is changed, apart at that byte. -/
theorem Memory.readN_write_split (m : Memory) (a i n : Nat) (b : Byte) :
    (m.write (a + i) b).readN a (i + (1 + n)) = m.readN a i ++ b :: m.readN (a + i + 1) n := by
  have hlow : (m.write (a + i) b).readN a i = m.readN a i :=
    Memory.readN_congr fun x _ hx => Memory.read_write_other _ _ (by omega)
  have hhigh : (m.write (a + i) b).readN (a + i + 1) n = m.readN (a + i + 1) n :=
    Memory.readN_congr fun x hx _ => Memory.read_write_other _ _ (by omega)
  rw [Memory.readN_add, Memory.readN_add, hlow, hhigh]
  simp [Memory.readN]

theorem Memory.readN_split (m : Memory) (a i n : Nat) :
    m.readN a (i + (1 + n)) = m.readN a i ++ m.read (a + i) :: m.readN (a + i + 1) n := by
  rw [Memory.readN_add, Memory.readN_add]
  rfl

/-- One changed byte changes the CRC of a range. -/
theorem crc32_readN_write_ne {m : Memory} {a x n : Nat} {b : Byte} (hlo : a ≤ x) (hhi : x < a + n)
    (hb : b ≠ m.read x) : crc32 ((m.write x b).readN a n) ≠ crc32 (m.readN a n) := by
  obtain ⟨i, rfl⟩ := Nat.exists_eq_add_of_le hlo
  obtain ⟨r, rfl⟩ : ∃ r, n = i + (1 + r) := ⟨n - i - 1, by omega⟩
  rw [Memory.readN_write_split, Memory.readN_split]
  exact crc32_one_byte hb

/-- A CRC is its four bytes. -/
theorem word32_eq_of_bytes {c d : Word32} (h : ∀ j, j < 4 → c.extractLsb' (8 * j) 8 = d.extractLsb' (8 * j) 8) :
    c = d := by
  apply BitVec.eq_of_getLsbD_eq
  intro i hi
  have hbit := congrArg (·.getLsbD (i % 8)) (h (i / 8) (by omega))
  simpa [Nat.mod_lt, Nat.div_add_mod] using hbit

theorem write_main_invalid {s : State} (h : s.params.wf = true) (hv : validMainBlock s) {a : Nat}
    (ha : inMainBlock s.params a) {b : Byte} (hb : b ≠ s.nv.read a) :
    ¬ validMainBlock { s with nv := s.nv.write a b } := by
  obtain ⟨hsig, hcrc⟩ := hv
  rintro ⟨hsig', hcrc'⟩
  obtain ⟨⟨hlt, heq⟩, _⟩ := Params.store_layout h
  change (s.nv.write a b).read s.params.nvSig = s.params.signature at hsig'
  change ∀ j, j < 4 → (s.nv.write a b).read (s.params.nvCrc + j)
    = (crc32 ((s.nv.write a b).readN s.params.nvData s.params.plen)).extractLsb' (8 * j) 8 at hcrc'
  obtain rfl | ⟨hlo, hhi⟩ | ⟨hlo, hhi⟩ := ha
  · rw [Memory.read_write_self, ← hsig] at hsig'
    exact hb hsig'
  · refine crc32_readN_write_ne hlo hhi hb (word32_eq_of_bytes fun j hj => ?_)
    rw [← hcrc' j hj, Memory.read_write_other _ _ (by omega)]
    exact hcrc j hj
  · obtain ⟨j, rfl⟩ := Nat.exists_eq_add_of_le hlo
    have hdata : (s.nv.write (s.params.nvCrc + j) b).readN s.params.nvData s.params.plen = s.storedData :=
      Memory.readN_congr fun x _ hx => Memory.read_write_other _ _ (by omega)
    have hbyte := hcrc' j (by omega)
    rw [Memory.read_write_self, hdata, ← hcrc j (by omega)] at hbyte
    exact hb hbyte

/-- Settles O47: a changed signature is not SIGNATURE, and changed data or a changed CRC no longer agree. -/
theorem oneChangedByteIsRejected : Obligations.OneChangedByteIsRejected := by
  intro s a b h hv ha hb
  have hv' := write_main_invalid h.1 hv ha hb
  have hwf : State.Ready { s with nv := s.nv.write a b } := h
  refine ⟨_, exec_restore_ready hwf, ?_, ?_, fun haddr hmodel => ⟨fun x hx => ?_, fun j hj => ?_⟩⟩
  · exact congrArg (fun v => some (Result.bool v)) (State.mainValid_of_invalid hv')
  · exact (State.restore_statusBit hwf.1 _).trans
      ((State.restoreMain_configSaved hwf.1).trans (State.mainValid_of_invalid hv'))
  · have ht : ¬ takenByOptionalBlock { s with nv := s.nv.write a b } x := by
      simp [takenByOptionalBlock, haddr, hmodel]
    exact State.restore_read_of_invalid hv' hx ht
  · exact State.restore_statusBit_of_invalid hwf.1 hv' hj

end Sys2Proof.Machine

/-! PROOF. SAVE, then a power cycle (44 R224 (a), 70 R301, 90 C7): the store SAVE leaves is valid, and the boot RESTORE
takes every persisted register's image from it, from the main block or from the register's own. -/

namespace Sys2Proof.Machine

@[simp] theorem State.save_job (s : State) : s.save.job = s.job := by
  rw [State.save_frame]
  rfl

/-- What the boot RESTORE after SAVE starts from. -/
def State.bootAfterSave (s : State) : State := State.powerOn { s.save with inbox := [], answer := {} }

@[simp] theorem State.bootAfterSave_params (s : State) : s.bootAfterSave.params = s.params := s.save_params

@[simp] theorem State.bootAfterSave_nv (s : State) : s.bootAfterSave.nv = s.save.nv := rfl

/-- The power cycle after SAVE, nothing being owed. -/
theorem step_reset_after_save {s : State} (h : s.Ready) (hjob : s.job = []) :
    step { s.save with inbox := [.reset], answer := {} }
      = .next { s.bootAfterSave.restore with answer := { raised := s.bootAfterSave.restoreRaised } } := by
  have hreset := (stepTakesTheScheduledTurn { s.save with inbox := [.reset], answer := {} } []).2.1 rfl
    (.inl (s.save_job.trans hjob))
  exact hreset.trans (if_pos (s.save_params ▸ h.1))

section BootAfterSave
variable {s : State} (h : s.params.wf = true)
include h

theorem State.bootAfterSave_valid : validMainBlock s.bootAfterSave := by
  have hdata : s.bootAfterSave.storedData = s.persistImage := by
    rw [State.storedData, State.bootAfterSave_params, State.bootAfterSave_nv, State.save_readN_data h]
  unfold validMainBlock
  rw [hdata, State.bootAfterSave_params, State.bootAfterSave_nv]
  exact ⟨State.save_read_signature h, fun j => State.save_read_crc h⟩

/-- The byte SAVE stores for a persisted register. -/
theorem State.save_read_persisted {k j : Nat} {n : RegName} (hk : s.params.persist[k]? = some n)
    (hj : j < s.params.widthOf n) : s.save.nv.read (s.params.nvData + s.params.idx k + j) = s.imageByte n j := by
  have hle := s.params.idx_add_le_plen hk
  have hbyte := Memory.readN_getElem? s.save.nv s.params.nvData s.params.plen (s.params.idx k + j) (by omega)
  rw [State.save_readN_data h, s.persistImage_getElem? hk hj, s.fieldImage_getElem? hj, ← Nat.add_assoc] at hbyte
  exact (Option.some.inj hbyte).symm

/-- A register with an optional block of its own gets from it what it held when SAVE stored it. -/
theorem State.bootAfterSave_restore_taken {a : Nat} (ht : takenByOptionalBlock s.bootAfterSave a) :
    s.bootAfterSave.restore.reg.read a = s.reg.read a := by
  have hboot : s.bootAfterSave.params.wf = true := s.bootAfterSave_params ▸ h
  obtain ⟨rfl, hon, hsig⟩ | ⟨rfl, hon, hsig⟩ := ht
  · have hblock := State.save_read_addrBlock h (s.bootAfterSave_params ▸ hon)
    rw [State.restore_read_deviceAddress hboot hon hsig, State.bootAfterSave_nv, State.bootAfterSave_params, hblock.2]
  · have hblock := State.save_read_modelBlock (s := s) (s.bootAfterSave_params ▸ hon)
    rw [State.restore_read_model hon hsig, State.bootAfterSave_nv, State.bootAfterSave_params, hblock.2]

/-- Every persisted register gets the image it had when SAVE stored it. -/
theorem State.bootAfterSave_restore_persisted (hplain : s.params.plainPersist) {n : RegName}
    (hn : n ∈ s.params.persist) {j : Nat} (hj : j < s.params.widthOf n) :
    s.bootAfterSave.restore.reg.read (s.params.offOf n + j) = s.imageByte n j := by
  by_cases ht : takenByOptionalBlock s.bootAfterSave (s.params.offOf n + j)
  · have hne : n ≠ .config := by
      rintro rfl
      have hnot := not_takenByOptionalBlock (s := s.bootAfterSave) (n := .config) (a := s.params.offOf .config + j)
      rw [State.bootAfterSave_params] at hnot
      exact hnot h ((Params.wf_spec h).persist_declared _ hn) (by decide) (by decide)
        ⟨Nat.le_add_right _ _, Nat.add_lt_add_left hj _⟩ ht
    rw [State.bootAfterSave_restore_taken h ht, State.imageByte, if_neg hne]
  · obtain ⟨k, hk⟩ := List.mem_iff_getElem?.mp hn
    have hcopy := State.restore_read_persisted (s := s.bootAfterSave) (k := k) (j := j) (n := n)
    rw [State.bootAfterSave_params, State.bootAfterSave_nv] at hcopy
    exact (hcopy h (State.bootAfterSave_valid h) hplain hk hj ht).trans (State.save_read_persisted h hk hj)

theorem State.bootAfterSave_restore_configSaved :
    s.bootAfterSave.restore.statusBit s.params.statusBits.configSaved = true := by
  have hboot : s.bootAfterSave.params.wf = true := s.bootAfterSave_params ▸ h
  have hsaved := (State.restore_statusBit hboot _).trans (State.restoreMain_configSaved hboot)
  rwa [State.bootAfterSave_params, State.mainValid_of_valid (State.bootAfterSave_valid h)] at hsaved

end BootAfterSave

/-- Settles O46: the power cycle is a reset whose boot RESTORE finds the store SAVE left. -/
theorem savedConfigurationSurvivesPowerCycle : Obligations.SavedConfigurationSurvivesPowerCycle := by
  intro s h hatomic hplain hjob
  refine ⟨_, _, exec_save_atomic h hatomic, step_reset_after_save h hjob, fun n hn hne => ?_, fun hn => ?_,
    State.bootAfterSave_restore_configSaved h.1, s.bootAfterSave.restore_keepsStore.1⟩
  · have hparams : s.bootAfterSave.restore.params = s.params :=
      s.bootAfterSave.restore_params.trans s.bootAfterSave_params
    change s.bootAfterSave.restore.regBytes _ = _
    rw [State.regBytes, hparams]
    refine Memory.readN_congr fun x hlo hhi => ?_
    obtain ⟨j, rfl⟩ := Nat.exists_eq_add_of_le hlo
    exact (State.bootAfterSave_restore_persisted h.1 hplain hn (Nat.add_lt_add_iff_left.mp hhi)).trans (if_neg hne)
  · have hwidth : 0 < s.params.widthOf .config := (Params.wf_spec h.1).config_width.symm ▸ Nat.one_pos
    exact (State.bootAfterSave_restore_persisted h.1 hplain hn hwidth).trans (if_pos rfl)

end Sys2Proof.Machine

/-! PROOF. The main loop's services (45): what serving a trigger bit does to the register file, once for SAVE and
RESETCONFIG, and the two halves of SERVICE_TRIGGERS after one another; the typed writes of a reading, and READ_ERROR. -/

namespace Sys2Proof.Machine

/-! The places of CONFIG and of the named bits (00 R8) -/

/-- CONFIG and STATUS are two bytes. -/
theorem Params.offOf_config_ne_status {p : Params} (h : p.wf = true) : p.offOf .config ≠ p.offOf .status :=
  have hwidth := (Params.wf_spec h).config_width
  Params.ne_offOf_status h (p.declared_of_width_one hwidth) (by decide) (Params.inSpan_offOf hwidth)

theorem Params.writeConfig_le {p : Params} (h : p.wf = true) : p.configBits.writeConfig ≤ 7 :=
  (Params.wf_spec h).configBits_le _ (by simp [ConfigBits.toList])

theorem Params.resetConfig_le {p : Params} (h : p.wf = true) : p.configBits.resetConfig ≤ 7 :=
  (Params.wf_spec h).configBits_le _ (by simp [ConfigBits.toList])

theorem Params.resetConfig_ne_writeConfig {p : Params} (h : p.wf = true) :
    p.configBits.resetConfig ≠ p.configBits.writeConfig := by
  have hnodup := (Params.wf_spec h).configBits_nodup
  simp only [ConfigBits.toList, List.nodup_cons, List.mem_cons, not_or] at hnodup
  obtain ⟨-, -, -, ⟨hne, -⟩, -⟩ := hnodup
  exact Ne.symm hne

theorem Params.readError_le {p : Params} (h : p.wf = true) : p.statusBits.readError ≤ 7 :=
  (Params.wf_spec h).statusBits_le _ (by simp [StatusBits.toList])

/-! Serving one trigger bit (45 R251) -/

/-- Of the register file, `t` differs from `s` as after an action on trigger bit `b` of CONFIG: CONFIG_SAVED is `x`, the
bit is cleared, and every other bit of STATUS and CONFIG and every other byte is kept. -/
structure ServesTrigger (s t : State) (b : Nat) (x : Bool) : Prop where
  status : ∀ j, j < 8 → t.statusBit j = if j = s.params.statusBits.configSaved then x else s.statusBit j
  config : ∀ j, j < 8 → t.configBit j = if j = b then false else s.configBit j
  rest : ∀ a, a ≠ s.params.offOf .status → a ≠ s.params.offOf .config → t.reg.read a = s.reg.read a

theorem State.configBit_congr {s t : State} (hp : t.params = s.params)
    (hr : t.reg.read (s.params.offOf .config) = s.reg.read (s.params.offOf .config)) (j : Nat) :
    t.configBit j = s.configBit j := by
  unfold State.configBit State.bit
  rw [hp]
  exact congrArg (byteBit · j) hr

/-- An action that writes CONFIG_SAVED alone, and then the clearing of its bit. -/
theorem servesTrigger_of_onlyStatusBit {s t : State} {b : Nat} {x : Bool} (h : s.params.wf = true)
    (hp : t.params = s.params) (ht : onlyStatusBit s t s.params.statusBits.configSaved x) (hb : b ≤ 7) :
    ServesTrigger s (t.putConfig b false) b x := by
  have hne := Params.offOf_config_ne_status h
  obtain ⟨hbytes, hbits⟩ := ht
  refine ⟨fun j hj => ?_, fun j hj => ?_, fun a hstatus hconfig => ?_⟩
  · rw [← hbits j hj]
    refine State.statusBit_congr (s := t) (t := t.putConfig b false) rfl ?_ j
    rw [State.putConfig_read, hp, if_neg hne.symm]
  · rw [State.putConfig_configBit t hb hj, State.configBit_congr hp (hbytes _ hne)]
  · rw [State.putConfig_read, hp, if_neg hconfig, hbytes a hstatus]

/-- A bit that is not set and asks for nothing. -/
theorem servesTrigger_self_of_clear {s : State} {b : Nat} (hb : s.configBit b = false) :
    ServesTrigger s s b (s.statusBit s.params.statusBits.configSaved) := by
  refine ⟨fun j _ => ?_, fun j _ => ?_, fun _ _ _ => rfl⟩
  · split
    · next hj => rw [hj]
    · rfl
  · split
    · next hj => rw [hj, hb]
    · rfl

/-! The two halves of SERVICE_TRIGGERS -/

section Serve
variable {s : State}

theorem State.serveWrite_of_set (hw : s.configBit s.params.configBits.writeConfig = true) :
    s.serveWrite = s.save.putConfig s.params.configBits.writeConfig false := if_pos hw

theorem State.serveWrite_of_clear (hw : s.configBit s.params.configBits.writeConfig = false) : s.serveWrite = s :=
  if_neg (Bool.eq_false_iff.mp hw)

theorem State.serveReset_of_set (he : s.configBit s.params.configBits.resetConfig = true) :
    s.serveReset = s.eraseConfig.putConfig s.params.configBits.resetConfig false := if_pos he

theorem State.serveReset_of_clear (he : s.configBit s.params.configBits.resetConfig = false) : s.serveReset = s :=
  if_neg (Bool.eq_false_iff.mp he)

theorem State.serveWrite_serves (h : s.params.wf = true) (hw : s.configBit s.params.configBits.writeConfig = true) :
    ServesTrigger s s.serveWrite s.params.configBits.writeConfig true := by
  rw [State.serveWrite_of_set hw]
  exact servesTrigger_of_onlyStatusBit h s.save_params (State.save_onlyStatusBit h) (Params.writeConfig_le h)

theorem State.serveReset_serves (h : s.params.wf = true) (he : s.configBit s.params.configBits.resetConfig = true) :
    ServesTrigger s s.serveReset s.params.configBits.resetConfig false := by
  rw [State.serveReset_of_set he]
  exact servesTrigger_of_onlyStatusBit h s.eraseConfig_params (State.eraseConfig_onlyStatusBit h)
    (Params.resetConfig_le h)

/-- WRITE_CONFIG is clear after the first half, whether or not it was set. -/
theorem State.exists_serveWrite_serves (h : s.params.wf = true) :
    ∃ x, ServesTrigger s s.serveWrite s.params.configBits.writeConfig x := by
  cases hw : s.configBit s.params.configBits.writeConfig with
  | true => exact ⟨true, State.serveWrite_serves h hw⟩
  | false =>
    rw [State.serveWrite_of_clear hw]
    exact ⟨_, servesTrigger_self_of_clear hw⟩

/-- The first half leaves RESET_CONFIG to the second. -/
theorem State.serveWrite_resetConfig (h : s.params.wf = true) :
    s.serveWrite.configBit s.params.configBits.resetConfig = s.configBit s.params.configBits.resetConfig := by
  obtain ⟨x, hserve⟩ := State.exists_serveWrite_serves h
  rw [hserve.config _ (Nat.lt_succ_of_le (Params.resetConfig_le h)), if_neg (Params.resetConfig_ne_writeConfig h)]

/-- The first half writes the blocks of the store alone. -/
theorem State.serveWrite_nv_outside {a : Nat} (hmain : ¬ inMainBlock s.params a) (hopt : ¬ inOptionalBlock s.params a) :
    s.serveWrite.nv.read a = s.nv.read a := by
  cases hw : s.configBit s.params.configBits.writeConfig with
  | true =>
    rw [State.serveWrite_of_set hw]
    exact State.save_read_outside hmain hopt
  | false => rw [State.serveWrite_of_clear hw]

theorem State.serveReset_nv_of_set (he : s.configBit s.params.configBits.resetConfig = true) :
    s.serveReset.nv = s.erased := by
  rw [State.serveReset_of_set he]
  exact s.eraseConfig_nv

/-- SERVICE_TRIGGERS where it is one step. -/
theorem exec_serviceTriggers_atomic (h : s.Ready) (hatomic : s.params.persistAtomic = true) :
    exec .serviceTriggers s = .next { s.serveWrite.serveReset with answer := {} } := by
  rw [exec, execServiceTriggers, admitted_ready h, if_pos hatomic, finish_eq]

/-- With RESET_CONFIG clear the first half is all of it. -/
theorem State.serve_of_resetConfig_clear (h : s.params.wf = true)
    (he : s.configBit s.params.configBits.resetConfig = false) : s.serveWrite.serveReset = s.serveWrite :=
  State.serveReset_of_clear (by rwa [State.serveWrite_params, State.serveWrite_resetConfig h])

/-- With WRITE_CONFIG set the first half has SAVE's effect on the store. -/
theorem State.serveWrite_answer_eq (hw : s.configBit s.params.configBits.writeConfig = true) (a : Answer) :
    { s.serveWrite with answer := a }
      = { s with reg := s.serveWrite.reg, nv := s.save.nv, wear := s.save.wear, answer := a } := by
  have hnv : s.serveWrite.nv = s.save.nv := by
    rw [State.serveWrite_of_set hw, State.putConfig_nv]
  have hwear : s.serveWrite.wear = s.save.wear := by
    rw [State.serveWrite_of_set hw, State.putConfig_wear]
  rw [← hnv, ← hwear]
  exact congrArg (fun u : State => { u with answer := a }) s.serveWrite_frame

theorem State.serve_answer_eq (s : State) (a : Answer) :
    { s.serveWrite.serveReset with answer := a }
      = { s with
          reg := s.serveWrite.serveReset.reg, nv := s.serveWrite.serveReset.nv
          wear := s.serveWrite.serveReset.wear, answer := a } :=
  calc { s.serveWrite.serveReset with answer := a }
      = { s.serveWrite with
          reg := s.serveWrite.serveReset.reg, nv := s.serveWrite.serveReset.nv
          wear := s.serveWrite.serveReset.wear, answer := a } :=
        congrArg (fun u : State => { u with answer := a }) s.serveWrite.serveReset_frame
    _ = _ := congrArg (fun u : State => { u with
          reg := s.serveWrite.serveReset.reg, nv := s.serveWrite.serveReset.nv
          wear := s.serveWrite.serveReset.wear, answer := a }) s.serveWrite_frame

section ResetConfig
variable (he : s.configBit s.params.configBits.resetConfig = true)
include he

/-- The second half after the first, which changes neither the parameters nor RESET_CONFIG. -/
theorem State.serve_serves (h : s.params.wf = true) :
    ServesTrigger s.serveWrite s.serveWrite.serveReset s.params.configBits.resetConfig false := by
  have hserves := State.serveReset_serves (s := s.serveWrite)
  rw [State.serveWrite_params, State.serveWrite_resetConfig h] at hserves
  exact hserves h he

theorem State.serve_statusBit (h : s.params.wf = true) {j : Nat} (hj : j < 8) :
    s.serveWrite.serveReset.statusBit j
      = if j = s.params.statusBits.configSaved then false else s.statusBit j := by
  obtain ⟨x, hwrite⟩ := State.exists_serveWrite_serves h
  rw [(State.serve_serves he h).status j hj, State.serveWrite_params]
  refine ite_congr rfl (fun _ => rfl) fun hne => ?_
  rw [hwrite.status j hj, if_neg hne]

theorem State.serve_configBit (h : s.params.wf = true) {j : Nat} (hj : j < 8) :
    s.serveWrite.serveReset.configBit j
      = if j = s.params.configBits.writeConfig ∨ j = s.params.configBits.resetConfig then false
        else s.configBit j := by
  obtain ⟨x, hwrite⟩ := State.exists_serveWrite_serves h
  rw [(State.serve_serves he h).config j hj, hwrite.config j hj]
  by_cases hreset : j = s.params.configBits.resetConfig
  · rw [if_pos hreset, if_pos (.inr hreset)]
  · simp only [hreset, or_false, if_false]

theorem State.serve_read_rest (h : s.params.wf = true) {a : Nat} (hstatus : a ≠ s.params.offOf .status)
    (hconfig : a ≠ s.params.offOf .config) : s.serveWrite.serveReset.reg.read a = s.reg.read a := by
  obtain ⟨x, hwrite⟩ := State.exists_serveWrite_serves h
  rw [(State.serve_serves he h).rest a (by rwa [State.serveWrite_params]) (by rwa [State.serveWrite_params]),
    hwrite.rest a hstatus hconfig]

theorem State.serve_nv_read (h : s.params.wf = true) (a : Nat) :
    s.serveWrite.serveReset.nv.read a
      = if inMainBlock s.params a ∨ inOptionalBlock s.params a then 0 else s.nv.read a := by
  have hset := s.serveWrite.serveReset_nv_of_set
  rw [State.serveWrite_params, State.serveWrite_resetConfig h] at hset
  rw [hset he, State.erased_read, State.serveWrite_params]
  refine ite_congr rfl (fun _ => rfl) fun hout => ?_
  obtain ⟨hmain, hopt⟩ := not_or.mp hout
  exact State.serveWrite_nv_outside hmain hopt

end ResetConfig

end Serve

/-- Settles O48: the first half clears WRITE_CONFIG and leaves RESET_CONFIG as it is, and the second overwrites what the
first stored. -/
theorem serviceTriggersActsAndClears : Obligations.ServiceTriggersActsAndClears := by
  intro s h hatomic
  have hexec := exec_serviceTriggers_atomic h hatomic
  refine ⟨fun hw he => ?_, fun hw he => ?_, fun he => ?_⟩
  · rwa [State.serve_of_resetConfig_clear h.1 he, State.serveWrite_of_clear hw] at hexec
  · rw [State.serve_of_resetConfig_clear h.1 he] at hexec
    have ⟨hstatus, hconfig, hrest⟩ := State.serveWrite_serves h.1 hw
    exact ⟨_, hexec, State.serveWrite_answer_eq hw {}, hstatus, hconfig, hrest⟩
  · exact ⟨_, hexec, s.serve_answer_eq {}, fun a ha => (State.serve_nv_read he h.1 a).trans (if_pos ha),
      fun a hmain hopt => (State.serve_nv_read he h.1 a).trans (if_neg (not_or.mpr ⟨hmain, hopt⟩)),
      fun j => State.serve_statusBit he h.1, fun j => State.serve_configBit he h.1,
      fun a => State.serve_read_rest he h.1⟩

/-! SENSOR_UPDATE (45 R252) -/

/-- A four-byte pattern has one encoding, as a float and as a CRC (40 R121). -/
theorem encode_f32_eq_crcBytes (p : Word32) : (ScalarVal.f32 p).encode = crcBytes p := rfl

/-- A byte of a register after a binary32 pattern is stored in it. -/
theorem State.putBytes_f32_read (s : State) (r : Nat) (p : Word32) {k : Nat} (hk : k < 4) :
    (s.putBytes r (ScalarVal.f32 p).encode).reg.read (s.params.off r + k) = p.extractLsb' (8 * k) 8 := by
  rw [State.putBytes_reg, encode_f32_eq_crcBytes, Memory.read_writeN_crcBytes _ _ _ hk]

/-- Writing a bit of STATUS changes that one bit of the register file. -/
theorem State.putStatus_only (s : State) {i : Nat} (hi : i ≤ 7) (x : Bool) : onlyStatusBit s (s.putStatus i x) i x := by
  refine ⟨fun a => s.putBit_read_other _ i x, fun j hj => ?_⟩
  unfold State.statusBit
  rw [State.bit_eq, State.bit_eq]
  exact s.putBit_read_getLsbD _ hi hj x

section Reading
variable {s : State} (h : s.params.wf = true)
include h

/-- A byte outside HUMIDITY is the one the write of TEMPERATURE left. -/
theorem State.putReading_read_outside_humidity (tp hm : Word32) {a : Nat}
    (ha : ¬ inSpan s.params (s.params.idOf .humidity) a) :
    (s.putReading tp hm).reg.read a
      = (s.putBytes (s.params.idOf .temperature) (ScalarVal.f32 tp).encode).reg.read a :=
  State.putBytes_read_outside (s.putBytes _ _) _
    ((ScalarVal.encode_length (.f32 hm)).trans (Params.wf_spec h).humidity_width.symm) ha

/-- HUMIDITY, written second, does not meet TEMPERATURE. -/
theorem State.putReading_read_temperature (tp hm : Word32) {k : Nat} (hk : k < 4) :
    (s.putReading tp hm).reg.read (s.params.offOf .temperature + k) = tp.extractLsb' (8 * k) 8 := by
  have hw := Params.wf_spec h
  have hspans := s.params.named_disjoint
    (s.params.lt_regCount_of_idOf (n := .temperature) (by rw [hw.temperature_width]; decide))
    (s.params.lt_regCount_of_idOf (n := .humidity) (by rw [hw.humidity_width]; decide)) (by decide)
  rw [hw.temperature_width, hw.humidity_width] at hspans
  have hout : ¬ inSpan s.params (s.params.idOf .humidity) (s.params.offOf .temperature + k) := by
    intro hin
    obtain ⟨hlo, hhi⟩ : s.params.offOf .humidity ≤ s.params.offOf .temperature + k
      ∧ s.params.offOf .temperature + k < s.params.offOf .humidity + s.params.widthOf .humidity := hin
    rw [hw.humidity_width] at hhi
    omega
  rw [State.putReading_read_outside_humidity h tp hm hout]
  exact s.putBytes_f32_read _ tp hk

theorem State.putReading_read_outside (tp hm : Word32) {a : Nat}
    (htemperature : ¬ inSpan s.params (s.params.idOf .temperature) a)
    (hhumidity : ¬ inSpan s.params (s.params.idOf .humidity) a) :
    (s.putReading tp hm).reg.read a = s.reg.read a := by
  rw [State.putReading_read_outside_humidity h tp hm hhumidity]
  exact s.putBytes_read_outside _ ((ScalarVal.encode_length (.f32 tp)).trans (Params.wf_spec h).temperature_width.symm)
    htemperature

end Reading

theorem State.putReading_read_humidity (s : State) (tp hm : Word32) {k : Nat} (hk : k < 4) :
    (s.putReading tp hm).reg.read (s.params.offOf .humidity + k) = hm.extractLsb' (8 * k) 8 :=
  State.putBytes_f32_read (s.putBytes _ _) _ hm hk

theorem exec_sensorUpdate_ok {s : State} (h : s.Ready) (tp hm : Word32) :
    exec (.sensorUpdate (.ok tp hm)) s = .next { s.putReading tp hm with answer := {} } :=
  admitted_ready h _

theorem exec_sensorUpdate_noReading {s : State} (h : s.Ready) :
    exec (.sensorUpdate .noReading) s
      = .next { s.putStatus s.params.statusBits.readError true with answer := { raised := some .sensorReadError } } :=
  admitted_ready h _

/-- Settles O49: the two typed writes byte by byte, and the one bit of STATUS. -/
theorem sensorUpdateWritesTheReading : Obligations.SensorUpdateWritesTheReading := by
  intro s h
  refine ⟨fun tp hm => ?_, ?_⟩
  · exact ⟨_, exec_sensorUpdate_ok h tp hm, rfl, fun k => State.putReading_read_temperature h.1 tp hm,
      fun k => s.putReading_read_humidity tp hm, fun a => State.putReading_read_outside h.1 tp hm⟩
  · exact ⟨_, exec_sensorUpdate_noReading h, rfl, s.putStatus_only (Params.readError_le h.1) true⟩

end Sys2Proof.Machine

/-! PROOF. The block's program counter (46 R261): no operation but ADDR, WR, RD, RESETCURSOR and ADVANCECURSOR names the
cursor in what it writes, so each other instruction leaves it where it was. -/

namespace Sys2Proof.Machine

/-! The persistence operations and the services -/

@[simp] theorem State.save_cursor (s : State) : s.save.cursor = s.cursor := by
  rw [State.save_frame, State.putConfigSaved_cursor]

@[simp] theorem State.eraseConfig_cursor (s : State) : s.eraseConfig.cursor = s.cursor := by
  rw [State.eraseConfig_frame, State.putConfigSaved_cursor]

@[simp] theorem State.restore_cursor (s : State) : s.restore.cursor = s.cursor := by
  rw [State.restore_frame]

@[simp] theorem State.serveWrite_cursor (s : State) : s.serveWrite.cursor = s.cursor := by
  rw [State.serveWrite_frame]

@[simp] theorem State.serveReset_cursor (s : State) : s.serveReset.cursor = s.cursor := by
  rw [State.serveReset_frame]

@[simp] theorem State.putReading_cursor (s : State) (t u : Word32) : (s.putReading t u).cursor = s.cursor := by
  rw [State.putReading, State.putBytes_cursor, State.putBytes_cursor]

/-! The instructions -/

/-- The cursor of `t` is that of `s`. -/
def KeepsCursor (s t : State) : Prop := t.cursor = s.cursor

theorem execSave_keepsCursor (s : State) : NextHolds (KeepsCursor s) (execSave s) := by
  refine nextHolds_admitted fun _ => nextHolds_finish ?_
  split
  · exact s.save_cursor
  · exact s.startJob_cursor (saveMicros s.params)

theorem execServiceTriggers_keepsCursor (s : State) : NextHolds (KeepsCursor s) (execServiceTriggers s) := by
  refine nextHolds_admitted fun _ => nextHolds_finish ?_
  split
  · exact s.serveWrite.serveReset_cursor.trans s.serveWrite_cursor
  · exact s.startJob_cursor serviceMicros

theorem execSensorUpdate_keepsCursor (res : SensorResult) (s : State) :
    NextHolds (KeepsCursor s) (execSensorUpdate res s) := by
  refine nextHolds_admitted fun _ => ?_
  cases res with
  | ok t u => exact nextHolds_finish (s.putReading_cursor t u)
  | noReading => exact nextHolds_finish (s.putStatus_cursor s.params.statusBits.readError true)

theorem execClassAt_keepsCursor (a : Address) (s : State) : NextHolds (KeepsCursor s) (execClassAt a s) := by
  refine nextHolds_admitted fun _ => ?_
  split
  · exact nextHolds_finish rfl
  · exact nextHolds_refused _

/-- Every instruction but the five that move the cursor keeps it. -/
theorem exec_keepsCursor {i : Instr} (haddr : ∀ a, i ≠ .addr a) (hwr : ∀ b, i ≠ .wr b) (hrd : ∀ n, i ≠ .rd n)
    (hresetCursor : i ≠ .resetCursor) (hadvanceCursor : i ≠ .advanceCursor) (s : State) :
    NextHolds (KeepsCursor s) (exec i s) := by
  cases i with
  | addr a => exact absurd rfl (haddr a)
  | wr b => exact absurd rfl (hwr b)
  | rd n => exact absurd rfl (hrd n)
  | resetCursor => exact absurd rfl hresetCursor
  | advanceCursor => exact absurd rfl hadvanceCursor
  | endTx | totalSize | cursor | crc32 => exact nextHolds_admitted fun _ => nextHolds_finish rfl
  | encode | decode | lookup =>
    exact nextHolds_admitted fun _ => nextHolds_ite (fun _ => nextHolds_finish rfl) fun _ => nextHolds_refused _
  | classAt a => exact execClassAt_keepsCursor a s
  | readByte | writeByte =>
    exact nextHolds_admitted fun _ => nextHolds_ite (fun _ => nextHolds_takeFault rfl) fun _ => nextHolds_finish rfl
  | readTyped => exact nextHolds_admitted fun _ => nextHolds_typedCall fun _ _ => nextHolds_finish rfl
  | writeTyped T r v =>
    exact nextHolds_admitted fun _ => nextHolds_typedCall fun _ _ => nextHolds_ite
      (fun _ => nextHolds_finish (s.putBytes_cursor r v.encode)) fun _ => nextHolds_refused _
  | getBit => exact nextHolds_admitted fun _ => nextHolds_bitCall fun _ => nextHolds_finish rfl
  | setBit r k x =>
    exact nextHolds_admitted fun _ => nextHolds_bitCall fun _ => nextHolds_finish (s.putBit_cursor r k x)
  | save => exact execSave_keepsCursor s
  | restore => exact nextHolds_admitted fun _ => nextHolds_finish s.restore_cursor
  | resetConfig => exact nextHolds_admitted fun _ => nextHolds_finish s.eraseConfig_cursor
  | serviceTriggers => exact execServiceTriggers_keepsCursor s
  | sensorUpdate res => exact execSensorUpdate_keepsCursor res s

/-- Settles O57: the nineteen instructions that are none of the five leave the cursor as it was. -/
theorem onlyFiveInstructionsMoveTheCursor : Obligations.OnlyFiveInstructionsMoveTheCursor :=
  fun _ s t hexec haddr hwr hrd hresetCursor hadvanceCursor =>
    exec_keepsCursor haddr hwr hrd hresetCursor hadvanceCursor s t hexec

end Sys2Proof.Machine

/-! PROOF. What has no meaning and what always has one (60 R279, R289): an ill-formed instruction, a call that does not
decode and a parameter set that is not well-formed are refused; an event word of a run that has not stopped never is. -/

namespace Sys2Proof

/-! A type outside the codec (40 R127, 60 R279) -/

theorem ScalarType.tag_toNat_le (T : ScalarType) : T.tag.toNat ≤ 7 := by cases T <;> decide

theorem ScalarType.ofTag_eq_none {tag : Byte} (h : 7 < tag.toNat) : ScalarType.ofTag tag = none := by
  rw [ofTag, List.find?_eq_none]
  intro T _ htag
  have heq : T.tag = tag := of_decide_eq_true htag
  have hle := T.tag_toNat_le
  rw [heq] at hle
  omega

theorem withType_notCodecType {tag : Byte} (h : 7 < tag.toNat) (k : ScalarType → Instr) :
    withType tag k = .error (.notCodecType tag) := by
  rw [withType, ScalarType.ofTag_eq_none h]

end Sys2Proof

namespace Sys2Proof.Machine

/-! An instruction that is not well-formed (30 R97, 40 R122, 42 R154, R155) -/

/-- The typed call refuses on its own grounds, or goes on to a refusal. -/
theorem typedCall_refused (T : ScalarType) (r : Nat) (s : State) (e : Refusal) :
    ∃ e', typedCall T r s (.refused e) = .refused e' := by
  rcases Nat.lt_or_ge r s.params.regCount with hr | hr
  · by_cases hw : T.width = s.params.width r
    · exact ⟨_, typedCall_ok hr hw _⟩
    · exact ⟨_, typedCall_widthMismatch hr hw _⟩
  · exact ⟨_, typedCall_unknownRegister hr _⟩

/-- A bit index above 7 is refused on every register, if not for itself then on an earlier ground (log entry 14). -/
theorem bitCall_refused {i : Nat} (hi : 7 < i) (r : Nat) (s : State) (k : StepOutcome) :
    ∃ e, bitCall r i s k = .refused e := by
  rcases Nat.lt_or_ge r s.params.regCount with hr | hr
  · by_cases hw : s.params.width r = 1
    · exact ⟨_, bitCall_bitIndexTooLarge hr hw hi _⟩
    · exact ⟨_, bitCall_notBitRegister hr hw _⟩
  · exact ⟨_, bitCall_unknownRegister hr _⟩

section Ready
variable {s : State} (h : s.Ready)
include h

theorem exec_encode_valueNotOfType {T : ScalarType} {v : ScalarVal} (hty : v.ty ≠ T) :
    exec (.encode T v) s = .refused .valueNotOfType := by
  rw [exec, execEncode, admitted_ready h, if_neg hty]

theorem exec_writeTyped_refused {T : ScalarType} {v : ScalarVal} (hty : v.ty ≠ T) (r : Nat) :
    ∃ e, exec (.writeTyped T r v) s = .refused e := by
  rw [exec, execWriteTyped, admitted_ready h, if_neg hty]
  exact typedCall_refused T r s _

theorem exec_refused_of_illFormed {i : Instr} (hi : i.wf = false) : ∃ e, exec i s = .refused e := by
  cases i with
  | encode T v => exact ⟨_, exec_encode_valueNotOfType h (of_decide_eq_false hi)⟩
  | decode T bs => exact ⟨_, exec_decode_wrongLength h (of_decide_eq_false hi)⟩
  | writeTyped T r v => exact exec_writeTyped_refused h (of_decide_eq_false hi) r
  | getBit r k =>
    rw [exec, execGetBit, admitted_ready h]
    exact bitCall_refused (Nat.not_le.mp (of_decide_eq_false hi)) r s _
  | setBit r k x =>
    rw [exec, execSetBit, admitted_ready h]
    exact bitCall_refused (Nat.not_le.mp (of_decide_eq_false hi)) r s _
  | _ => cases hi

/-- A call that does not decode, with no sub-step owed, is refused by the decoder's reason. -/
theorem step_undecodable {p : PortWord} {e : DecodeError} {rest : List PortInput} (hjob : s.job = [])
    (hinbox : s.inbox = .word p :: rest) (hdec : decodeInstr p = .error e) :
    step s = .refused (.undecodable e) := by
  have hturn : turnOf p = .reject e := by rw [turnOf, hdec]
  rw [step, fetch_word hinbox (.inl hjob), hturn]
  exact admitted_ready (s := { s with inbox := rest }) h _

end Ready

/-! A parameter set that is not well-formed (00 R8) -/

theorem exec_badParameters {s : State} (hwf : s.params.wf = false) (i : Instr) : exec i s = .refused .badParameters := by
  obtain ⟨k, hk⟩ := exec_eq_admitted i s
  rw [hk, admitted_badParameters hwf]

theorem powerOnReset_badParameters {s : State} (hwf : s.params.wf = false) :
    powerOnReset s = .refused .badParameters := by
  rw [powerOnReset, if_neg (by simp [hwf])]

theorem step_badParameters {s : State} (hwf : s.params.wf = false) : step s = .refused .badParameters := by
  have hwf' : (fetch s).2.params.wf = false := by rwa [fetch_params]
  by_cases hturn : (fetch s).1 = .reset
  · have hfetch : fetch s = (.reset, (fetch s).2) := Prod.ext hturn rfl
    rw [step, hfetch]
    exact powerOnReset_badParameters hwf'
  · obtain ⟨k, hk⟩ := step_eq_admitted hturn
    rw [hk, admitted_badParameters hwf']

/-- Settles O54: the four families of refusal, each by its own lemma. -/
theorem illFormedCallsAreRefused : Obligations.IllFormedCallsAreRefused := by
  refine ⟨fun i s h hi => exec_refused_of_illFormed h hi, fun tag v bs r htag => ?_,
    fun s p e rest h hjob hinbox hdec => step_undecodable h hjob hinbox hdec,
    fun s hwf => ⟨exec_badParameters hwf, step_badParameters hwf⟩⟩
  exact ⟨(decodeInstr_callWord .encode _).trans (withType_notCodecType htag _),
    (decodeInstr_callWord .decode _).trans (withType_notCodecType htag _),
    (decodeInstr_callWord .readTyped _).trans (withType_notCodecType htag _),
    (decodeInstr_callWord .writeTyped _).trans (withType_notCodecType htag _)⟩

/-! An event word (60 R289) -/

/-- Each of the four events has a next state: ADDR at or above TOTAL by setting the marker, WR and RD because the cursor
has a class. -/
theorem exec_busEvent_next {s : State} (h : s.Ready) (hlt : s.cursor.toNat < s.params.total) {w : BitVec 10} {i : Instr}
    (hdec : decodeInstr (.ev w) = .ok i) : ∃ t, exec i s = .next t := by
  obtain rfl | ⟨a, rfl⟩ | ⟨b, rfl⟩ | ⟨n, rfl⟩ := busEvent_of_decodeInstr_ev hdec
  · exact ⟨_, exec_endTx_ready h⟩
  · rcases Nat.lt_or_ge a.toNat s.params.total with ha | ha
    · exact ⟨_, exec_addr_ready h ha⟩
    · exact ⟨_, exec_addr_outOfRange h ha⟩
  · exact ⟨_, exec_wr_ready h hlt b⟩
  · exact ⟨_, exec_rd_ready h hlt n⟩

/-- Settles O32: the step runs the word's event on the state without the word, which still has the cursor below TOTAL. -/
theorem everyEventHasANextState : Obligations.EveryEventHasANextState := by
  intro s w rest hinv hfault hinbox
  have hdec : decodeInstr (.ev w) = .ok (decodeEv w) := rfl
  rw [stepRunsTheDecodedInstruction s (.ev w) _ rest hinbox hdec (.inr ⟨w, rfl⟩)]
  exact exec_busEvent_next (s := { s with inbox := rest }) ⟨hinv.params_wf, hfault⟩ hinv.cursor_lt hdec

end Sys2Proof.Machine

/-! PROOF. Power-on reset and the boot sequence (70 R300, R301, R302): the step a reset takes, and each byte of the
register file after the boot RESTORE, which starts from REG_RESET. -/

namespace Sys2Proof.Machine

/-- What the boot RESTORE starts from, with the reset taken from the inbox and `rest` left in it. -/
def State.atBoot (s : State) (rest : List PortInput) : State := State.powerOn { s with inbox := rest }

/-- A reset that is next is the environment's step, which a stopped block takes too (log entry 9). -/
theorem step_reset {s : State} {rest : List PortInput} (h : s.params.wf = true) (hinbox : s.inbox = .reset :: rest)
    (hturn : s.job = [] ∨ s.fault ≠ none) :
    step s = .next { (s.atBoot rest).restore with answer := { raised := (s.atBoot rest).restoreRaised } } :=
  ((stepTakesTheScheduledTurn s rest).2.1 hinbox hturn).trans (if_pos h)

/-- Settles O50: power-on reset clears the volatile fields, and the boot RESTORE changes only the register file. -/
theorem powerOnResetRestartsTheBlock : Obligations.PowerOnResetRestartsTheBlock :=
  fun s rest h hinbox hturn => ⟨_, step_reset h hinbox hturn, (s.atBoot rest).restore_answer_eq _⟩

/-! The register file before the boot RESTORE (10 R34) -/

section PowerOn
variable {s : State} (h : s.params.wf = true)
include h

theorem State.powerOn_read {a : Nat} (ha : a < s.params.total) :
    some (s.powerOn.reg.read a) = s.params.regReset[a]? := by
  have hlen : a < s.params.regReset.length := by rwa [(Params.wf_spec h).regReset_length]
  rw [State.powerOn_reg, Memory.read_ofBytes, List.getElem?_eq_getElem hlen, Option.getD_some]

theorem State.powerOn_statusBit (j : Nat) :
    some (s.powerOn.statusBit j) = s.params.regReset[s.params.offOf .status]?.map (·.getLsbD j) := by
  have hlt : s.params.offOf .status < s.params.total :=
    Params.off_lt_total h (s.params.declared_of_width_one (Params.wf_spec h).status_width)
  rw [← State.powerOn_read h hlt, Option.map_some, State.statusBit, State.bit_eq]
  rfl

end PowerOn

/-! What RESTORE leaves, whether or not the main block is valid (44 R216) -/

section Restore
variable {s : State}

theorem State.restore_statusBit_other (h : s.params.wf = true) (hstatus : .status ∉ s.params.persist) {j : Nat}
    (hj : j < 8) (hne : j ≠ s.params.statusBits.configSaved) : s.restore.statusBit j = s.statusBit j := by
  by_cases hv : validMainBlock s
  · rw [State.restore_statusBit_of_valid h hv hstatus hj, if_neg hne]
  · rw [State.restore_statusBit_of_invalid h hv hj, if_neg hne]

/-- A byte of neither STATUS nor a persisted register, that no optional block gives. -/
theorem State.restore_read_unpersisted {a : Nat} (hout : ∀ n ∈ s.params.persist, ¬ inSpan s.params (s.params.idOf n) a)
    (hne : a ≠ s.params.offOf .status) (ht : ¬ takenByOptionalBlock s a) : s.restore.reg.read a = s.reg.read a := by
  by_cases hv : validMainBlock s
  · exact State.restore_read_other hv hout hne ht
  · exact State.restore_read_of_invalid hv hne ht

theorem State.restore_configSaved (h : s.params.wf = true) :
    s.restore.statusBit s.params.statusBits.configSaved = s.mainValid :=
  (State.restore_statusBit h _).trans (State.restoreMain_configSaved h)

end Restore

/-- Settles O51: RESTORE's clauses on a register file that holds REG_RESET and on the store as it was. -/
theorem bootRestoresOrKeepsDefaults : Obligations.BootRestoresOrKeepsDefaults := by
  intro s rest h hinbox hturn hplain
  -- The state at boot has the parameters and the store of `s`, so each hypothesis on these is one on it.
  have hboot : (s.atBoot rest).params.wf = true := h
  have hreset : ∀ a, a < s.params.total → some ((s.atBoot rest).reg.read a) = s.params.regReset[a]? := fun _ =>
    State.powerOn_read (s := { s with inbox := rest }) h
  have hsaved : (s.atBoot rest).restore.statusBit s.params.statusBits.configSaved = (s.atBoot rest).mainValid :=
    State.restore_configSaved hboot
  refine ⟨_, step_reset h hinbox hturn, fun j hj hne => ?_, fun a ha hout hne ht => ?_, fun hv => ⟨?_, ?_⟩,
    fun hv => ⟨?_, fun a ha hne ht => ?_⟩, ?_, ?_⟩
  · exact (congrArg some (State.restore_statusBit_other hboot hplain.2 hj hne)).trans
      (State.powerOn_statusBit (s := { s with inbox := rest }) h j)
  · exact (congrArg some (State.restore_read_unpersisted (s := s.atBoot rest) hout hne ht)).trans (hreset a ha)
  · exact hsaved.trans (State.mainValid_of_valid hv)
  · exact fun k n j => State.restore_read_persisted hboot hv hplain
  · exact hsaved.trans (State.mainValid_of_invalid hv)
  · exact (congrArg some (State.restore_read_of_invalid (s := s.atBoot rest) hv hne ht)).trans (hreset a ha)
  · exact State.restore_read_deviceAddress hboot
  · exact State.restore_read_model (s := s.atBoot rest)

end Sys2Proof.Machine
